-- ==== Sys2Proof/Word.lean ====
section
/-! DEFINITION. The word types of QRCORE: the 32-bit port word, the byte, and the unsigned readings of rules R11 and R12. -/

namespace Sys2Proof

/-- A 32-bit word: a command word, an argument word, RESULT, a penalty register (R33, R40, R41, R90). -/
abbrev Word := BitVec 32

/-- An 8-bit byte: a WRAM byte, a codeword, an element of GF(256) (R71, R171). -/
abbrev Byte := BitVec 8

/-- `zext_32` of an unsigned field (R12, R95). -/
abbrev zext32 {n : Nat} (x : BitVec n) : Word := x.setWidth 32

end Sys2Proof
end

