-- ==== Sys2Proof/Syntax.lean ====
section
/-! DEFINITION. The command as three words, and the thirty commands of the opcode map (30_encoding.md). -/

namespace Sys2Proof

/-- The three words a command carries on the port (R90). -/
structure Command where
  cmd : Word
  arg0 : Word
  arg1 : Word
  deriving DecidableEq, Repr

/-- The thirty commands of R98, one constructor per row of the opcode map, with the fields of its format (R94) and the
argument words it reads (R96). Every field has the width the format gives it. -/
inductive Instr where
  /-- NOP, opcode 0x00 (R301). -/
  | nop
  /-- BB_CLEAR, opcode 0x10 (R122). -/
  | bbClear
  /-- BB_APPEND, opcode 0x11 (R124): `value` is ARG0. -/
  | bbAppend (nbits : BitVec 6) (value : Word)
  /-- BB_APPEND_BYTE, opcode 0x12 (R126). -/
  | bbAppendByte (byte : Byte)
  /-- BB_LENGTH, opcode 0x13 (R127). -/
  | bbLength
  /-- BB_GETBIT, opcode 0x14 (R128): `index` is ARG0. -/
  | bbGetbit (index : Word)
  /-- BB_GETBYTE, opcode 0x15 (R130): `k` is ARG0. -/
  | bbGetbyte (k : Word)
  /-- LEN_SET, opcode 0x20 (R144). -/
  | lenSet (len : BitVec 10)
  /-- VER_SET, opcode 0x21 (R146). -/
  | verSet (ver : BitVec 4)
  /-- DE_SELECT, opcode 0x22 (R148). -/
  | deSelect
  /-- DE_ENCODE, opcode 0x23 (R150). -/
  | deEncode
  /-- GF_EXP, opcode 0x30 (R176). -/
  | gfExp (i : Byte)
  /-- GF_LOG, opcode 0x31 (R177). -/
  | gfLog (a : Byte)
  /-- GF_MUL, opcode 0x32 (R178). -/
  | gfMul (a b : Byte)
  /-- GF_DIV, opcode 0x33 (R179). -/
  | gfDiv (a b : Byte)
  /-- RS_GEN, opcode 0x40 (R193): `dst` is ARG0. -/
  | rsGen (n : Byte) (dst : Word)
  /-- RS_ENCODE, opcode 0x41 (R195): `src` is ARG0[15:0], `len` is ARG0[31:16], `dst` is ARG1. -/
  | rsEncode (n : Byte) (src len : BitVec 16) (dst : Word)
  /-- CW_BUILD, opcode 0x42 (R206). -/
  | cwBuild
  /-- MB_FUNC, opcode 0x50 (R222). -/
  | mbFunc
  /-- MB_PLACE, opcode 0x51 (R240). -/
  | mbPlace
  /-- MB_CELL, opcode 0x52 (R250). -/
  | mbCell (row col : Byte)
  /-- MB_FINAL, opcode 0x53 (R252). -/
  | mbFinal
  /-- MB_ISDARK, opcode 0x54 (R260). -/
  | mbIsdark (row col : Byte)
  /-- MB_PENALTY, opcode 0x60 (R278). -/
  | mbPenalty (m : BitVec 3)
  /-- MB_SELECT, opcode 0x61 (R284). -/
  | mbSelect
  /-- WR_WRITE, opcode 0x70 (R302). -/
  | wrWrite (addr : BitVec 12) (byte : Byte)
  /-- WR_READ, opcode 0x71 (R304). -/
  | wrRead (addr : BitVec 12)
  /-- REG_READ, opcode 0x72 (R306). -/
  | regRead (sel : BitVec 5)
  /-- ERR_CLEAR, opcode 0x73 (R308). -/
  | errClear
  /-- ENCODE, opcode 0x74 (R310). -/
  | encode
  deriving DecidableEq, Repr

end Sys2Proof
end

