-- ==== Sys2Proof/WellFormed.lean ====
section
/-! DEFINITION. Which terms of `Instr` are commands: field widths are in the types, so the one check is REG_READ's selector (R97). -/

namespace Sys2Proof

/-- The selectors REG_READ may carry: 0 to 8 and 16 to 23; 9 to 15 and 24 to 31 are reserved (R44, R97). -/
def legalSelector (sel : BitVec 5) : Bool :=
  sel.toNat ≤ 8 || (16 ≤ sel.toNat && sel.toNat ≤ 23)

/-- A term of `Instr` that some legal command word stands for (R99 (c)). -/
def Instr.wellFormed : Instr → Bool
  | .nop => true
  | .bbClear => true
  | .bbAppend _ _ => true
  | .bbAppendByte _ => true
  | .bbLength => true
  | .bbGetbit _ => true
  | .bbGetbyte _ => true
  | .lenSet _ => true
  | .verSet _ => true
  | .deSelect => true
  | .deEncode => true
  | .gfExp _ => true
  | .gfLog _ => true
  | .gfMul _ _ => true
  | .gfDiv _ _ => true
  | .rsGen _ _ => true
  | .rsEncode _ _ _ _ => true
  | .cwBuild => true
  | .mbFunc => true
  | .mbPlace => true
  | .mbCell _ _ => true
  | .mbFinal => true
  | .mbIsdark _ _ => true
  | .mbPenalty _ => true
  | .mbSelect => true
  | .wrWrite _ _ => true
  | .wrRead _ => true
  | .regRead sel => legalSelector sel
  | .errClear => true
  | .encode => true

end Sys2Proof
end

