-- ==== Sys2Proof/Decode.lean ====
section
/-! DEFINITION. The decoder of rule R101, total on every command word, and after it the encoder written from R94 and R98. -/

namespace Sys2Proof

/-- Why a command word is illegal: the three cases of R99. -/
inductive DecodeError where
  /-- R99 (a): the opcode is not in the map of R98. -/
  | unassignedOpcode
  /-- R99 (b): a reserved bit of the format is 1. -/
  | reservedBits
  /-- R99 (c): a REG_READ with a reserved selector. -/
  | reservedSelector
  deriving DecidableEq, Repr

/-- `CMD[31:24]` (R93). -/
def opcodeOf (w : Word) : BitVec 8 := w.extractLsb' 24 8

/-- Every bit of `w` under `mask` is 0: the reserved-bit check of R101. -/
def reservedClear (mask w : Word) : Bool := w &&& mask == 0#32

/-- A command of a format whose `RESERVED_MASK` is `mask`: refused if a reserved bit is set, else `i` (R101). -/
def withFormat (mask w : Word) (i : Instr) : Except DecodeError Instr :=
  if reservedClear mask w then .ok i else .error .reservedBits

/-- Format N: no field (R94). -/
def formatN (w : Word) (i : Instr) : Except DecodeError Instr := withFormat 0xFFFFFF#32 w i

/-- Format I8: `imm8 = CMD[7:0]` (R94). -/
def formatI8 (w : Word) (i : Byte → Instr) : Except DecodeError Instr :=
  withFormat 0xFFFF00#32 w (i (w.extractLsb' 0 8))

/-- Format P8: `a = CMD[15:8]`, `b = CMD[7:0]` (R94). -/
def formatP8 (w : Word) (i : Byte → Byte → Instr) : Except DecodeError Instr :=
  withFormat 0xFF0000#32 w (i (w.extractLsb' 8 8) (w.extractLsb' 0 8))

/-- Format NB: `nbits = CMD[5:0]` (R94). -/
def formatNB (w : Word) (i : BitVec 6 → Instr) : Except DecodeError Instr :=
  withFormat 0xFFFFC0#32 w (i (w.extractLsb' 0 6))

/-- Format L10: `len = CMD[9:0]` (R94). -/
def formatL10 (w : Word) (i : BitVec 10 → Instr) : Except DecodeError Instr :=
  withFormat 0xFFFC00#32 w (i (w.extractLsb' 0 10))

/-- Format V4: `ver = CMD[3:0]` (R94). -/
def formatV4 (w : Word) (i : BitVec 4 → Instr) : Except DecodeError Instr :=
  withFormat 0xFFFFF0#32 w (i (w.extractLsb' 0 4))

/-- Format M3: `m = CMD[2:0]` (R94). -/
def formatM3 (w : Word) (i : BitVec 3 → Instr) : Except DecodeError Instr :=
  withFormat 0xFFFFF8#32 w (i (w.extractLsb' 0 3))

/-- Format AB: `addr = CMD[19:8]`, `byte = CMD[7:0]` (R94). -/
def formatAB (w : Word) (i : BitVec 12 → Byte → Instr) : Except DecodeError Instr :=
  withFormat 0xF00000#32 w (i (w.extractLsb' 8 12) (w.extractLsb' 0 8))

/-- Format A: `addr = CMD[19:8]`, with CMD[7:0] reserved (R94). -/
def formatA (w : Word) (i : BitVec 12 → Instr) : Except DecodeError Instr :=
  withFormat 0xF000FF#32 w (i (w.extractLsb' 8 12))

/-- Format RC: `row = CMD[15:8]`, `col = CMD[7:0]` (R94). -/
def formatRC (w : Word) (i : Byte → Byte → Instr) : Except DecodeError Instr :=
  withFormat 0xFF0000#32 w (i (w.extractLsb' 8 8) (w.extractLsb' 0 8))

/-- Format S5: `sel = CMD[4:0]`, and the reserved selectors refused after the reserved bits (R94, R97, R101). -/
def formatS5 (w : Word) (i : BitVec 5 → Instr) : Except DecodeError Instr :=
  if reservedClear 0xFFFFE0#32 w then
    if legalSelector (w.extractLsb' 0 5) then .ok (i (w.extractLsb' 0 5)) else .error .reservedSelector
  else .error .reservedBits

/-- The decoder (R101): the opcode map of R98, row by row. It reads `CMD` only; the argument words are handed on to the
commands that read them (R96), and the other commands drop them (R90). -/
def decode (c : Command) : Except DecodeError Instr :=
  match opcodeOf c.cmd with
  | 0x00#8 => formatN c.cmd .nop
  | 0x10#8 => formatN c.cmd .bbClear
  | 0x11#8 => formatNB c.cmd fun nbits => .bbAppend nbits c.arg0
  | 0x12#8 => formatI8 c.cmd fun imm8 => .bbAppendByte imm8
  | 0x13#8 => formatN c.cmd .bbLength
  | 0x14#8 => formatN c.cmd (.bbGetbit c.arg0)
  | 0x15#8 => formatN c.cmd (.bbGetbyte c.arg0)
  | 0x20#8 => formatL10 c.cmd fun len => .lenSet len
  | 0x21#8 => formatV4 c.cmd fun ver => .verSet ver
  | 0x22#8 => formatN c.cmd .deSelect
  | 0x23#8 => formatN c.cmd .deEncode
  | 0x30#8 => formatI8 c.cmd fun imm8 => .gfExp imm8
  | 0x31#8 => formatI8 c.cmd fun imm8 => .gfLog imm8
  | 0x32#8 => formatP8 c.cmd fun a b => .gfMul a b
  | 0x33#8 => formatP8 c.cmd fun a b => .gfDiv a b
  | 0x40#8 => formatI8 c.cmd fun imm8 => .rsGen imm8 c.arg0
  | 0x41#8 => formatI8 c.cmd fun imm8 => .rsEncode imm8 (c.arg0.extractLsb' 0 16) (c.arg0.extractLsb' 16 16) c.arg1
  | 0x42#8 => formatN c.cmd .cwBuild
  | 0x50#8 => formatN c.cmd .mbFunc
  | 0x51#8 => formatN c.cmd .mbPlace
  | 0x52#8 => formatRC c.cmd fun row col => .mbCell row col
  | 0x53#8 => formatN c.cmd .mbFinal
  | 0x54#8 => formatRC c.cmd fun row col => .mbIsdark row col
  | 0x60#8 => formatM3 c.cmd fun m => .mbPenalty m
  | 0x61#8 => formatN c.cmd .mbSelect
  | 0x70#8 => formatAB c.cmd fun addr byte => .wrWrite addr byte
  | 0x71#8 => formatA c.cmd fun addr => .wrRead addr
  | 0x72#8 => formatS5 c.cmd fun sel => .regRead sel
  | 0x73#8 => formatN c.cmd .errClear
  | 0x74#8 => formatN c.cmd .encode
  | _ => .error .unassignedOpcode

/-- A field at its bit position of a command word (R94). -/
def field {n : Nat} (x : BitVec n) (lo : Nat) : Word := zext32 x <<< lo

/-- `{opcode, fields}`: the opcode in [31:24] (R93, R98). -/
def commandWord (op : BitVec 8) (fields : Word) : Word := field op 24 ||| fields

/-- The three words of a command, each field at its bit position and every reserved bit 0 (R94, R98). An argument word the
command does not read is 0 (R102). -/
def encode : Instr → Command
  | .nop => ⟨commandWord 0x00 0, 0, 0⟩
  | .bbClear => ⟨commandWord 0x10 0, 0, 0⟩
  | .bbAppend nbits value => ⟨commandWord 0x11 (field nbits 0), value, 0⟩
  | .bbAppendByte byte => ⟨commandWord 0x12 (field byte 0), 0, 0⟩
  | .bbLength => ⟨commandWord 0x13 0, 0, 0⟩
  | .bbGetbit index => ⟨commandWord 0x14 0, index, 0⟩
  | .bbGetbyte k => ⟨commandWord 0x15 0, k, 0⟩
  | .lenSet len => ⟨commandWord 0x20 (field len 0), 0, 0⟩
  | .verSet ver => ⟨commandWord 0x21 (field ver 0), 0, 0⟩
  | .deSelect => ⟨commandWord 0x22 0, 0, 0⟩
  | .deEncode => ⟨commandWord 0x23 0, 0, 0⟩
  | .gfExp i => ⟨commandWord 0x30 (field i 0), 0, 0⟩
  | .gfLog a => ⟨commandWord 0x31 (field a 0), 0, 0⟩
  | .gfMul a b => ⟨commandWord 0x32 (field a 8 ||| field b 0), 0, 0⟩
  | .gfDiv a b => ⟨commandWord 0x33 (field a 8 ||| field b 0), 0, 0⟩
  | .rsGen n dst => ⟨commandWord 0x40 (field n 0), dst, 0⟩
  | .rsEncode n src len dst => ⟨commandWord 0x41 (field n 0), field len 16 ||| field src 0, dst⟩
  | .cwBuild => ⟨commandWord 0x42 0, 0, 0⟩
  | .mbFunc => ⟨commandWord 0x50 0, 0, 0⟩
  | .mbPlace => ⟨commandWord 0x51 0, 0, 0⟩
  | .mbCell row col => ⟨commandWord 0x52 (field row 8 ||| field col 0), 0, 0⟩
  | .mbFinal => ⟨commandWord 0x53 0, 0, 0⟩
  | .mbIsdark row col => ⟨commandWord 0x54 (field row 8 ||| field col 0), 0, 0⟩
  | .mbPenalty m => ⟨commandWord 0x60 (field m 0), 0, 0⟩
  | .mbSelect => ⟨commandWord 0x61 0, 0, 0⟩
  | .wrWrite addr byte => ⟨commandWord 0x70 (field addr 8 ||| field byte 0), 0, 0⟩
  | .wrRead addr => ⟨commandWord 0x71 (field addr 8), 0, 0⟩
  | .regRead sel => ⟨commandWord 0x72 (field sel 0), 0, 0⟩
  | .errClear => ⟨commandWord 0x73 0, 0, 0⟩
  | .encode => ⟨commandWord 0x74 0, 0, 0⟩

/-- The command whose 96 bits are the number `w`, cut to its low `nbits` bits: CMD is bits 31..0, ARG0 bits 63..32, ARG1 bits
95..64, and every bit at or above `nbits` is 0 (R90, R91; the numbering of opcode_table.json). -/
def commandOfTableWord (nbits w : Nat) : Command :=
  let v := w % 2 ^ nbits
  ⟨BitVec.ofNat 32 v, BitVec.ofNat 32 (v / 2 ^ 32), BitVec.ofNat 32 (v / 2 ^ 64)⟩

/-- What the decoder reads from a table word: `none` where it refuses. -/
def decodeTableWord (nbits w : Nat) : Option Instr :=
  match decode (commandOfTableWord nbits w) with
  | .ok i => some i
  | .error _ => none

end Sys2Proof
end

