-- ==== Sys2Proof/Config.lean ====
section
/-! DEFINITION. The implementation parameters of rule R9, and the values the spec leaves open, which are opaque: no proof can see them. -/

namespace Sys2Proof.Config

/-- `LMAX`: the longest input text, in bytes (R9). -/
def lMax : Nat := 520

/-- `BB_CAP`: the capacity of the bit buffer, in bits (R9). -/
def bbCap : Nat := 8192

/-- `WRAM_SIZE`: the number of bytes of the work RAM (R9, R70). -/
def wramSize : Nat := 4096

/-- `MAT_DIM`: the side of the matrix array (R9, R45). -/
def matDim : Nat := 77

/-- `RS_NMAX`: the largest EC count per block (R9). -/
def rsNMax : Nat := 30

/-- `DATA_BASE` (R9, R73). -/
def dataBase : Nat := 0x000

/-- `EC_BASE` (R9, R73). -/
def ecBase : Nat := 0x400

/-- `SEQ_BASE` (R9, R73). -/
def seqBase : Nat := 0x800

/-- `TXT_BASE` (R9, R73, R74). -/
def txtBase : Nat := 0xC00

/-- The unspecified byte the LOG ROM holds at index 0 (R49, R172). FREE VALUE: no rule reads it. Log entry 9. -/
opaque logZero : Byte

/-- `LAT(cmd) - 1`, the clocks a command takes beyond the one it always takes (R367): a function of the three command
words only. FREE VALUE, read by the clock-level port alone. Log entry 13. -/
opaque extraLatency : Word → Word → Word → Nat

/-- `rsp_result` at a clock where `rsp_valid = 0` (R365 (b)). FREE VALUE for each clock. Log entry 15. -/
opaque idleResult : Nat → Word

/-- `rsp_err` at a clock where `rsp_valid = 0` (R365 (b)). FREE VALUE for each clock. Log entry 15. -/
opaque idleErr : Nat → BitVec 3

/-- What QRCORE accepts when the host has broken the handshake of R365 (a): three unspecified words, or nothing (R365 (c)).
FREE VALUE for each clock. Log entry 14. -/
opaque brokenCommand : Nat → Option (Word × Word × Word)

end Sys2Proof.Config
end

