-- ==== Sys2Proof/Machine/State.lean ====
section
/-! DEFINITION. The state of QRCORE (10_state.md), the reasons a step can stop, and the state after reset (R360). -/

namespace Sys2Proof.Machine

/-- The value of a matrix cell (R45). -/
inductive CellVal where
  | unset
  | light
  | dark
  deriving DecidableEq, Repr

/-- A cell of the module matrix: its value and its reserved flag (R45). -/
structure Cell where
  val : CellVal
  res : Bool
  deriving DecidableEq, Repr

/-- The cell MB_FUNC starts from: `.val = UNSET`, `.res = 0` (R222). -/
def Cell.blank : Cell := ⟨.unset, false⟩

/-- The module matrix MAT, a list of rows (R45). -/
abbrev Grid := List (List Cell)

/-- How far the matrix has been built: the five values of MSTAGE (R35). -/
inductive MStage where
  | empty
  | func
  | placed
  | selected
  | final
  deriving DecidableEq, Repr

/-- The error codes of R330. STATUS.ERR holds `ok` to `illegal`; `errPending` is a response code only (R34). Code 6 is never
produced. -/
inductive ErrCode where
  | ok
  | capacity
  | range
  | domain
  | sequence
  | illegal
  | errPending
  deriving DecidableEq, Repr

/-- The response to a command: RESULT and ERR (R92). -/
structure Response where
  result : Word
  err : ErrCode
  deriving DecidableEq, Repr

/-- What the host does at the port between two steps: it presents a command (R300) or pulls `rst_n` low (R360, R361). -/
inductive HostInput where
  | command (c : Command)
  | reset
  deriving DecidableEq, Repr

/-- The work RAM as the bytes some command has written since reset, addresses strictly rising. An unlisted address holds no
value (R48, R71). Log entry 1. -/
abbrev Memory := List Host.Cell

/-- The architectural state (R30), and the host's side of the port. The ROMs are constants (Machine/Rom.lean, log entry 8). -/
structure State where
  /-- RESULT, 32 bits (R33). -/
  result : Word
  /-- STATUS.ERR (R34). -/
  err : ErrCode
  /-- STATUS.MSTAGE (R35). -/
  mstage : MStage
  /-- VERSION, 4 bits; 0 is no version (R36). -/
  version : BitVec 4
  /-- MASK, 3 bits (R37). -/
  mask : BitVec 3
  /-- TXT_LEN, 10 bits (R38). -/
  txtLen : BitVec 10
  /-- PN1, 32 bits (R40). -/
  pn1 : Word
  /-- PN2, 32 bits (R40). -/
  pn2 : Word
  /-- PN3, 32 bits (R40). -/
  pn3 : Word
  /-- PN4, 32 bits (R40). -/
  pn4 : Word
  /-- PEN[0..7], 32 bits each (R41). -/
  pen : Vector Word 8
  /-- BB[0 .. BB_LEN-1], the bits that can be read; its length is the register BB_LEN (R39, R47). Log entry 6. -/
  bb : List Bool
  /-- WRAM (R48, R70). -/
  wram : Memory
  /-- MAT[0..76][0..76] (R45). Log entry 7. -/
  mat : Grid
  /-- The last response (R92); none since reset when no command has been performed, as `rsp_valid = 0` says (R360). The
  model's own view of the port. Log entry 5. -/
  rsp : Option Response
  /-- What the host will do at the port, in order. The model's own. Log entry 2. -/
  inputs : List HostInput
  deriving DecidableEq, Repr

/-- Why a step stops with a fault. -/
inductive Fault where
  /-- A read of the WRAM byte at `addr`, which no command has written since reset. Raised by WR_READ, RS_ENCODE, DE_ENCODE,
  CW_BUILD, MB_PLACE and ENCODE. The spec: "A model shall treat that read as a fault" (R71). SAFE: the hardware goes on with
  an unspecified byte. Log entry 1. -/
  | unwrittenByte (addr : Nat)
  /-- An access outside 0x000..0xFFF, which the spec says does not exist (R70, R71). Raised by the byte operations; every
  command checks its range first, so no command reaches it. SAFE. Log entry 12. -/
  | noSuchAddress (addr : Nat)
  deriving DecidableEq, Repr

/-- Why a step refuses. -/
inductive Refusal where
  /-- An instruction that has no meaning yet, rejected by name in `exec`. No instruction of this model is. SAFE. -/
  | notModelled (mnemonic : String)
  deriving DecidableEq, Repr

/-- The machine right after reset (R360): every register 0, the bit buffer empty, no WRAM byte written, MSTAGE EMPTY. The cells
of MAT are unspecified and cannot be read at MSTAGE 0; the model writes them blank (DESIGN CHOICE, log entry 7). -/
def State.reset : State where
  result := 0
  err := .ok
  mstage := .empty
  version := 0
  mask := 0
  txtLen := 0
  pn1 := 0
  pn2 := 0
  pn3 := 0
  pn4 := 0
  pen := Vector.replicate 8 0
  bb := []
  wram := []
  mat := List.replicate Config.matDim (List.replicate Config.matDim Cell.blank)
  rsp := none
  inputs := []

end Sys2Proof.Machine
end

