-- ==== Sys2Proof/Machine/Ops.lean ====
section
/-! DEFINITION. The named operations over WRAM, the bit buffer, the matrix and the response registers, and how an error is taken (R334), refused (R335) and cleared (R308). -/

namespace Sys2Proof.Machine

/-- What a step of the machine answers. -/
abbrev Answer := Host.Outcome State Fault Refusal

/-- How a command body ends early: with an error of the spec (`raise`, R14), or with a fault of the model (log entry 1). -/
inductive Exit where
  | raise (e : ErrCode)
  | stop (f : Fault)
  deriving DecidableEq, Repr

/-- A computation inside a command: a value, a raised error, or a fault of the model. -/
abbrev Exec (α : Type) := Except Exit α

/-- A command's rule: from the state before, the state after it and its RESULT. Nothing of it is kept if it raises (R14). -/
abbrev Body := State → Exec (State × Word)

/-- `raise <Error>` (R14). -/
def raise {α : Type} (e : ErrCode) : Exec α := .error (.raise e)

/-- A fault of the model. -/
def stop {α : Type} (f : Fault) : Exec α := .error (.stop f)

/-! ### Errors and responses -/

/-- A response: RESULT is written and returned with the error code (R33, R92). -/
def State.respond (s : State) (r : Word) (e : ErrCode) : State :=
  { s with result := r, rsp := some ⟨r, e⟩ }

/-- TAKING AN ERROR, the machine's one exception (R334, R337): RESULT is 0, the response carries the code, and STATUS.ERR
keeps the first failing command's code. -/
def State.fail (s : State) (e : ErrCode) : State :=
  let s := { s with err := if s.err = ErrCode.ok then e else s.err }
  s.respond 0 e

/-- THE RETURN FROM AN ERROR (R308, R337): STATUS.ERR goes back to 0. -/
def State.clearErr (s : State) : State := { s with err := .ok }

/-- The gate's answer while an error is pending: ErrPending, and nothing but RESULT changes (R334, R335). -/
def State.refusePending (s : State) : State := s.respond 0 .errPending

/-- Performs a command body: its state is committed with its RESULT, or its error is taken on the state before (R14, R333). -/
def perform (body : Body) (s : State) : Answer :=
  match body s with
  | .ok (s', r) => .next (s'.respond r .ok)
  | .error (.raise e) => .next (s.fail e)
  | .error (.stop f) => .fault f

/-- The error gate before a command body (R335). -/
def gated (body : Body) (s : State) : Answer :=
  if s.err = .ok then perform body s else .next s.refusePending

/-! ### WRAM -/

/-- The canonical form of the work RAM: addresses strictly rising and within 0x000..0xFFF. An unlisted address holds no value,
so every listed byte differs from it. -/
abbrev Memory.wf (m : Memory) : Prop :=
  m.Pairwise (fun x y => x.1 < y.1) ∧ ∀ x ∈ m, x.1 < Config.wramSize

/-- The byte some command has written at `a`, if one has. -/
def Memory.lookup : Memory → Nat → Option Byte
  | [], _ => none
  | (x, b) :: rest, a => if x = a then some b else Memory.lookup rest a

/-- Puts `v` at `a`, keeping the addresses rising. -/
def Memory.insert : Memory → Nat → Byte → Memory
  | [], a, v => [(a, v)]
  | (x, b) :: rest, a, v =>
    if a < x then (a, v) :: (x, b) :: rest
    else if a = x then (a, v) :: rest
    else (x, b) :: Memory.insert rest a v

/-- Puts the bytes at `a`, `a + 1`, and so on. -/
def Memory.store : Memory → Nat → List Byte → Memory
  | m, _, [] => m
  | m, a, v :: vs => Memory.store (m.insert a v) (a + 1) vs

/-- `MemRead(a, 1)` (R71): a byte that no command has written since reset is a fault of the model. -/
def Memory.readByte (m : Memory) (a : Nat) : Exec Byte :=
  if a < Config.wramSize then
    match m.lookup a with
    | some b => .ok b
    | none => stop (.unwrittenByte a)
  else stop (.noSuchAddress a)

/-- `MemRead(a + k, 1)` for `k = 0 .. n-1`, in order. -/
def Memory.readBytes (m : Memory) : Nat → Nat → Exec (List Byte)
  | _, 0 => .ok []
  | a, n + 1 => do
    let b ← m.readByte a
    let bs ← m.readBytes (a + 1) n
    return b :: bs

/-- `MemWrite(a + k, 1, bytes[k])` for every `k`, in order (R71). -/
def Memory.writeBytes (m : Memory) (a : Nat) (bytes : List Byte) : Exec Memory :=
  if a + bytes.length ≤ Config.wramSize then .ok (m.store a bytes)
  else stop (.noSuchAddress (max a Config.wramSize))

/-! ### The bit buffer -/

/-- The low `n` bits of `value`, most significant first (R77). -/
def msbBits : Nat → Nat → List Bool
  | 0, _ => []
  | k + 1, value => value.testBit k :: msbBits k value

/-- The number whose bits, most significant first, are `bits` (R78). -/
def ofMsbBits (bits : List Bool) : Nat := bits.foldl (fun acc b => 2 * acc + b.toNat) 0

/-- `AppendBits(value, n)` on a bit buffer (R121): both checks come before any bit is appended. -/
def appendBits (bb : List Bool) (value n : Nat) : Exec (List Bool) :=
  if 32 < n then raise .range
  else if Config.bbCap < bb.length + n then raise .range
  else .ok (bb ++ msbBits n value)

/-- `AppendBits(b, 8)` for each byte in order (R152). -/
def appendBytes : List Bool → List Byte → Exec (List Bool)
  | bb, [] => .ok bb
  | bb, b :: bs => do
    let bb' ← appendBits bb b.toNat 8
    appendBytes bb' bs

/-- Byte `k` of a bit buffer, if it is wholly in it: `BB[8k]` is its most significant bit (R78, R130). -/
def byteOfBits (bb : List Bool) (k : Nat) : Option Byte :=
  if 8 * k + 8 ≤ bb.length then some (BitVec.ofNat 8 (ofMsbBits ((bb.drop (8 * k)).take 8))) else none

/-- The first `n` bytes of a bit buffer. -/
def bytesOfBits : Nat → List Bool → List Byte
  | 0, _ => []
  | n + 1, bb => BitVec.ofNat 8 (ofMsbBits (bb.take 8)) :: bytesOfBits n (bb.drop 8)

/-! ### The matrix -/

/-- `Cell(r, c)` (R13, R45). Every index a command forms lies in the 77 by 77 array. -/
def Grid.cell (g : Grid) (r c : Nat) : Cell := (g.getD r []).getD c Cell.blank

/-- Sets `Cell(r, c)`. -/
def Grid.putCell (g : Grid) (r c : Nat) (x : Cell) : Grid := g.set r ((g.getD r []).set c x)

/-- Sets `Cell(r, c).val` to DARK or LIGHT and leaves `.res`. -/
def Grid.putVal (g : Grid) (r c : Nat) (dark : Bool) : Grid :=
  g.putCell r c { g.cell r c with val := if dark then .dark else .light }

/-- Applies `f` to the first `n` entries of a list, with their indices from `i`. -/
def mapFirst {α : Type} (f : Nat → α → α) : Nat → Nat → List α → List α
  | n + 1, i, x :: xs => f i x :: mapFirst f n (i + 1) xs
  | _, _, xs => xs

/-- Applies `f` to every cell of the symbol square of side `n`, and leaves the cells outside it (R221). -/
def Grid.mapSquare (f : Nat → Nat → Cell → Cell) (n : Nat) (g : Grid) : Grid :=
  mapFirst (fun r row => mapFirst (f r) n 0 row) n 0 g

end Sys2Proof.Machine
end

