-- ==== Sys2Proof/Machine/Flags.lean ====
section
/-! DEFINITION. QRCORE has no carry, zero, overflow or condition flag (R43). Its one status word is STATUS, a view of STATUS.ERR and STATUS.MSTAGE (R34). -/

namespace Sys2Proof.Machine

/-- The value code MB_CELL returns (R250). -/
def CellVal.code : CellVal → BitVec 2
  | .unset => 0b00#2
  | .light => 0b01#2
  | .dark => 0b10#2

/-- The value of STATUS[6:4] (R35). -/
def MStage.code : MStage → BitVec 3
  | .empty => 0#3
  | .func => 1#3
  | .placed => 2#3
  | .selected => 3#3
  | .final => 4#3

/-- The number of an error code (R330). -/
def ErrCode.code : ErrCode → BitVec 3
  | .ok => 0#3
  | .capacity => 1#3
  | .range => 2#3
  | .domain => 3#3
  | .sequence => 4#3
  | .illegal => 5#3
  | .errPending => 7#3

/-- STATUS as REG_READ 0 returns it: ERR in [2:0], MSTAGE in [6:4], and 0 in [3] and [31:7] (R34, R306). -/
def State.statusWord (s : State) : Word := zext32 s.mstage.code <<< 4 ||| zext32 s.err.code

end Sys2Proof.Machine
end

