-- ==== Sys2Proof/Machine/Operands.lean ====
section
/-! DEFINITION. What a command reads beside its own fields: the registers by selector (R44), the symbol's side, and the WRAM regions (R73). -/

namespace Sys2Proof.Machine

/-- VERSION as a number; 0 is no version (R36). -/
def State.ver (s : State) : Nat := s.version.toNat

/-- `N = SIZE(VERSION)` (R9, R220). -/
def State.side (s : State) : Nat := Rom.size s.ver

/-- BB_LEN (R39): the length of the bit buffer. -/
def State.bbLen (s : State) : Nat := s.bb.length

/-- The input text `T` (R74). -/
def State.text (s : State) : Exec (List Byte) := s.wram.readBytes Config.txtBase s.txtLen.toNat

/-- The data codewords in the DATA region (R73, R206). -/
def State.dataRegion (s : State) : Exec (List Byte) := s.wram.readBytes Config.dataBase (Rom.dataCount s.ver)

/-- The interleaved sequence in the SEQ region (R73, R240). -/
def State.seqRegion (s : State) : Exec (List Byte) := s.wram.readBytes Config.seqBase (Rom.totalCount s.ver)

/-- `PEN[m]` (R41). -/
def State.penOf (s : State) (m : BitVec 3) : Word := s.pen[m.toNat]'m.isLt

/-- The register a selector names, as R44 returns it in RESULT; `none` for the reserved selectors. -/
def State.readReg (s : State) (sel : BitVec 5) : Option Word :=
  match sel.toNat with
  | 0 => some s.statusWord
  | 1 => some (zext32 s.version)
  | 2 => some (zext32 s.mask)
  | 3 => some (zext32 s.txtLen)
  | 4 => some (BitVec.ofNat 32 s.bbLen)
  | 5 => some s.pn1
  | 6 => some s.pn2
  | 7 => some s.pn3
  | 8 => some s.pn4
  | k => if 16 ≤ k ∧ k ≤ 23 then some (s.penOf (BitVec.ofNat 3 (k - 16))) else none

end Sys2Proof.Machine
end

