-- ==== Sys2Proof/Machine/BitBuffer.lean ====
section
/-! DEFINITION. The bit buffer commands (40_bit_buffer.md). -/

namespace Sys2Proof.Machine

/-- BB_CLEAR (R122). -/
def execBbClear (s : State) : Answer :=
  gated (fun s => .ok ({ s with bb := [] }, 0)) s

/-- BB_APPEND (R124). -/
def execBbAppend (nbits : BitVec 6) (value : Word) (s : State) : Answer :=
  gated (fun s => do
    let bb ← appendBits s.bb value.toNat nbits.toNat
    return ({ s with bb := bb }, 0)) s

/-- BB_APPEND_BYTE (R126). -/
def execBbAppendByte (byte : Byte) (s : State) : Answer :=
  gated (fun s => do
    let bb ← appendBits s.bb byte.toNat 8
    return ({ s with bb := bb }, 0)) s

/-- BB_LENGTH (R127). -/
def execBbLength (s : State) : Answer :=
  gated (fun s => .ok (s, BitVec.ofNat 32 s.bbLen)) s

/-- BB_GETBIT (R128): RangeError for every index at or above BB_LEN. -/
def execBbGetbit (index : Word) (s : State) : Answer :=
  gated (fun s =>
    match s.bb[index.toNat]? with
    | some b => .ok (s, if b then 1 else 0)
    | none => raise .range) s

/-- BB_GETBYTE (R130): RangeError for a byte that is not wholly in the buffer. -/
def execBbGetbyte (k : Word) (s : State) : Answer :=
  gated (fun s =>
    match byteOfBits s.bb k.toNat with
    | some b => .ok (s, zext32 b)
    | none => raise .range) s

end Sys2Proof.Machine
end

