-- ==== Sys2Proof/Machine/DataEncoder.lean ====
section
/-! DEFINITION. The data formatter commands (41_data_encoder.md). -/

namespace Sys2Proof.Machine

/-- LEN_SET (R144). -/
def execLenSet (len : BitVec 10) (s : State) : Answer :=
  gated (fun s => .ok ({ s with txtLen := len }, 0)) s

/-- A write of VERSION: MSTAGE goes to 0 with it (R36). -/
def State.setVersion (s : State) (v : BitVec 4) : State := { s with version := v, mstage := .empty }

/-- VER_SET (R146). -/
def execVerSet (ver : BitVec 4) (s : State) : Answer :=
  gated (fun s => .ok (s.setVersion ver, 0)) s

/-- `SelectVersion(L)` (R147): the least version whose capacity is at least `len`. -/
def selectVersion (len : Nat) : Exec Nat :=
  if Config.lMax < len then raise .capacity
  else
    match (List.range' 1 15).find? (fun v => decide (len ≤ Rom.cap v)) with
    | some v => .ok v
    | none => raise .capacity

/-- The rule of DE_SELECT (R148). -/
def deSelectBody : Body := fun s => do
  let v ← selectVersion s.txtLen.toNat
  return (s.setVersion (BitVec.ofNat 4 v), BitVec.ofNat 32 v)

/-- DE_SELECT (R148). -/
def execDeSelect (s : State) : Answer := gated deSelectBody s

/-- The pad bytes (R155): 0xEC and 0x11 alternately until the buffer holds `capBits` bits; `p` counts them. The fuel is the
number of bytes the stream can hold, so it does not run out. -/
def padBytes (capBits : Nat) : Nat → Nat → List Bool → Exec (List Bool)
  | 0, _, bb => .ok bb
  | fuel + 1, p, bb =>
    if bb.length < capBits then do
      let bb' ← appendBits bb (if p % 2 = 0 then 0xEC else 0x11) 8
      padBytes capBits fuel (p + 1) bb'
    else .ok bb

/-- The byte-mode stream of a text at version `v`, from an empty buffer: header, data, terminator, bit padding, pad bytes
(R150 to R155). -/
def formatStream (v : Nat) (text : List Byte) : Exec (List Bool) := do
  let capBits := 8 * Rom.dataCount v
  let bb ← appendBits [] 0b0100 4
  let bb ← appendBits bb text.length (Rom.countBits v)
  let bb ← appendBytes bb text
  let bb ← appendBits bb 0 (min 4 (capBits - bb.length))
  let bb ← appendBits bb 0 ((8 - bb.length % 8) % 8)
  padBytes capBits (Rom.dataCount v) 0 bb

/-- The rule of DE_ENCODE (R150, R156). -/
def deEncodeBody : Body := fun s =>
  if s.version = 0 then raise .sequence
  else if Rom.cap s.ver < s.txtLen.toNat then raise .capacity
  else do
  let text ← s.text
  let bb ← formatStream s.ver text
  let wram ← s.wram.writeBytes Config.dataBase (bytesOfBits (Rom.dataCount s.ver) bb)
  return ({ s with bb := bb, wram := wram }, BitVec.ofNat 32 (Rom.dataCount s.ver))

/-- DE_ENCODE (R150). -/
def execDeEncode (s : State) : Answer := gated deEncodeBody s

end Sys2Proof.Machine
end

