-- ==== Sys2Proof/Machine/MaskFormulas.lean ====
section
/-! DEFINITION. The eight mask patterns (R271). -/

namespace Sys2Proof.Machine

/-- `MaskBit(m, i, j)`: mask `m` flips the cell at row `i`, column `j` (R271). -/
def maskBit (m : BitVec 3) (i j : Nat) : Bool :=
  match m.toNat with
  | 0 => (i + j) % 2 == 0
  | 1 => i % 2 == 0
  | 2 => j % 3 == 0
  | 3 => (i + j) % 3 == 0
  | 4 => (i / 2 + j / 3) % 2 == 0
  | 5 => (i * j) % 2 + (i * j) % 3 == 0
  | 6 => ((i * j) % 2 + (i * j) % 3) % 2 == 0
  | _ => ((i + j) % 2 + (i * j) % 3) % 2 == 0

end Sys2Proof.Machine
end

