-- ==== Sys2Proof/Machine/MatrixBuilder.lean ====
section
/-! DEFINITION. The symbol matrix builder (44_matrix_builder.md): function patterns, reserved areas, data placement, finalisation and the cell queries. -/

namespace Sys2Proof.Machine

/-- `|a - b|` (R11). -/
def absDiff (a b : Nat) : Nat := (a - b) + (b - a)

/-- `max(|r - r0|, |c - c0|)`: how far a cell lies from a pattern's centre (R223, R224, R226). -/
def ringDist (r c r0 c0 : Nat) : Nat := max (absDiff r r0) (absDiff c c0)

/-! ### Function patterns. A pattern gives, for each cell of the square, the colour it draws there, if it draws it. -/

/-- `SetFn` on every cell that the pattern draws (R220). -/
def Grid.draw (pattern : Nat → Nat → Option Bool) (n : Nat) (g : Grid) : Grid :=
  g.mapSquare (fun r c x =>
    match pattern r c with
    | some d => ⟨if d then .dark else .light, true⟩
    | none => x) n

/-- Sets `.res` and leaves `.val` on every cell of an area (R236, R237). -/
def Grid.reserve (area : Nat → Nat → Bool) (n : Nat) (g : Grid) : Grid :=
  g.mapSquare (fun r c x => if area r c then { x with res := true } else x) n

/-- The timing patterns: row 6 and column 6, dark at even indices (R225). -/
def timingPattern (r c : Nat) : Option Bool :=
  if r = 6 then some (c % 2 == 0) else if c = 6 then some (r % 2 == 0) else none

/-- The centres of the three finders of a symbol of side `n` (R223). -/
def finderCentres (n : Nat) : List (Nat × Nat) := [(3, 3), (3, n - 4), (n - 4, 3)]

/-- The finders (R223) and their separators (R224): the rings at distance 0, 1 and 3 are dark, those at 2 and 4 light. -/
def finderPattern (n r c : Nat) : Option Bool :=
  (finderCentres n).findSome? fun p =>
    let d := ringDist r c p.1 p.2
    if d ≤ 4 then some (d != 2 && d != 4) else none

/-- The centres of the alignment patterns: every ordered pair of coordinates but the three that meet a finder (R226). -/
def alignCentres (v : Nat) : List (Nat × Nat) :=
  let p := Rom.alignPos v
  let k := p.length
  (List.range k).flatMap fun a => (List.range k).filterMap fun b =>
    if (a = 0 ∧ b = 0) ∨ (a = 0 ∧ b + 1 = k) ∨ (a + 1 = k ∧ b = 0) then none else some (p.getD a 0, p.getD b 0)

/-- The alignment patterns: a dark ring, a light ring and a dark centre (R226). No two of them share a cell. -/
def alignPattern (v r c : Nat) : Option Bool :=
  (alignCentres v).findSome? fun p =>
    let d := ringDist r c p.1 p.2
    if d ≤ 2 then some (d != 1) else none

/-- The 30 format-information cells (R236). -/
def formatArea (n r c : Nat) : Bool :=
  (c == 8 && (r ≤ 5 || r == 7 || r == 8)) || (r == 8 && (c ≤ 5 || c == 7)) ||
  (r == 8 && (n ≤ c + 8 && c < n)) || (c == 8 && (n ≤ r + 7 && r < n))

/-- The dark module (R228). -/
def darkModule (n r c : Nat) : Option Bool := if r + 8 = n ∧ c = 8 then some true else none

/-- The 36 version-information cells of versions 7 and up (R237). -/
def versionArea (n r c : Nat) : Bool :=
  (r ≤ 5 && (n ≤ c + 11 && c + 9 ≤ n)) || (c ≤ 5 && (n ≤ r + 11 && r + 9 ≤ n))

/-- The matrix MB_FUNC builds for version `v`, in its drawing order (R222). -/
def functionPatterns (v : Nat) (g : Grid) : Grid :=
  let n := Rom.size v
  let g := g.mapSquare (fun _ _ _ => Cell.blank) n
  let g := g.draw timingPattern n
  let g := g.draw (finderPattern n) n
  let g := g.draw (alignPattern v) n
  let g := g.reserve (formatArea n) n
  let g := g.draw (darkModule n) n
  if 7 ≤ v then g.reserve (versionArea n) n else g

/-- The rule of MB_FUNC (R222). -/
def mbFuncBody : Body := fun s =>
  if s.version = 0 then raise .sequence
  else .ok ({ s with mat := functionPatterns s.ver s.mat, mstage := .func }, BitVec.ofNat 32 s.side)

/-- MB_FUNC (R222). -/
def execMbFunc (s : State) : Answer := gated mbFuncBody s

/-! ### Data placement -/

/-- The right columns of ZigZag's column pairs, from `right` down, column 6 skipped (R242). -/
def zigzagColumns : Nat → Nat → List Nat
  | 0, _ => []
  | fuel + 1, right =>
    if 1 ≤ right then
      let right := if right = 6 then 5 else right
      right :: zigzagColumns fuel (right - 2)
    else []

/-- The cells of one column pair, upward or downward, the right column first (R242). -/
def zigzagPair (n right : Nat) : List (Nat × Nat) :=
  (List.range n).flatMap fun vert =>
    let r := if (right + 1) &&& 2 = 0 then n - 1 - vert else vert
    [(r, right), (r, right - 1)]

/-- `ZigZag(N)`, the cell order of placement (R242). -/
def zigzag (n : Nat) : List (Nat × Nat) := (zigzagColumns n (n - 1)).flatMap (zigzagPair n)

/-- The placed bit stream: each codeword most significant bit first, in order (R244). -/
def codewordBits (seq : List Byte) : List Bool := seq.flatMap fun b => msbBits 8 b.toNat

/-- Places bits into the non-reserved cells in order; the cells left over are LIGHT (R240, R246). It also counts the bits. -/
def placeBits : List (Nat × Nat) → List Bool → Grid → Nat → Grid × Nat
  | [], _, g, k => (g, k)
  | (r, c) :: cells, bits, g, k =>
    if (g.cell r c).res then placeBits cells bits g k
    else
      match bits with
      | b :: bs => placeBits cells bs (g.putVal r c b) (k + 1)
      | [] => placeBits cells [] (g.putVal r c false) k

/-- The rule of MB_PLACE (R240). -/
def mbPlaceBody : Body := fun s =>
  if s.mstage ≠ .func then raise .sequence
  else do
  let seq ← s.seqRegion
  let placed := placeBits (zigzag s.side) (codewordBits seq) s.mat 0
  return ({ s with mat := placed.1, mstage := .placed }, BitVec.ofNat 32 placed.2)

/-- MB_PLACE (R240). -/
def execMbPlace (s : State) : Answer := gated mbPlaceBody s

/-! ### Finalisation -/

/-- The cells of bit `i` of the format word in the first and the second copy (R256). -/
def formatCells (n i : Nat) : List (Nat × Nat) :=
  if i ≤ 5 then [(i, 8), (8, n - 1 - i)]
  else if i = 6 then [(7, 8), (8, n - 7)]
  else if i = 7 then [(8, 8), (8, n - 8)]
  else if i = 8 then [(8, 7), (n - 7, 8)]
  else [(8, 14 - i), (n - 15 + i, 8)]

/-- The cells of bit `i` of the version word in its two blocks (R258). -/
def versionCells (n i : Nat) : List (Nat × Nat) :=
  [(i / 3, n - 11 + i % 3), (n - 11 + i % 3, i / 3)]

/-- Writes the bits of a word, each at its cells, 1 = DARK (R256, R258). -/
def Grid.writeWord (cells : Nat → List (Nat × Nat)) (w : Nat) (bits : Nat) (g : Grid) : Grid :=
  (List.range bits).foldl
    (fun g i => (cells i).foldl (fun g p => g.putVal p.1 p.2 (w.testBit i)) g) g

/-- A cell under mask `m`: a non-reserved cell the mask selects is flipped (R253). -/
def maskCell (m : BitVec 3) (r c : Nat) (x : Cell) : Cell :=
  if x.res = false ∧ maskBit m r c then { x with val := if x.val = .dark then .light else .dark } else x

/-- `Finalize(m)` on the placed matrix of version `v` (R253). -/
def finalize (v : Nat) (m : BitVec 3) (g : Grid) : Grid :=
  let n := Rom.size v
  let g := g.mapSquare (maskCell m) n
  let g := g.writeWord (formatCells n) (Rom.fmt m).toNat 15
  if 7 ≤ v then g.writeWord (versionCells n) (Rom.vinfo v).toNat 18 else g

/-- The rule of MB_FINAL (R252). -/
def mbFinalBody : Body := fun s =>
  if s.mstage ≠ .selected then raise .sequence
  else .ok ({ s with mat := finalize s.ver s.mask s.mat, mstage := .final }, zext32 s.mask)

/-- MB_FINAL (R252). -/
def execMbFinal (s : State) : Answer := gated mbFinalBody s

/-! ### Cell queries -/

/-- What MB_CELL returns of a cell: the value code in [1:0] and the reserved flag in [2] (R250). -/
def Cell.code (x : Cell) : Word := zext32 (BitVec.ofBool x.res) <<< 2 ||| zext32 x.val.code

/-- MB_CELL (R250): SequenceError is checked before RangeError. -/
def execMbCell (row col : Byte) (s : State) : Answer :=
  gated (fun s =>
    if s.mstage = .empty then raise .sequence
    else if s.side ≤ row.toNat ∨ s.side ≤ col.toNat then raise .range
    else .ok (s, (s.mat.cell row.toNat col.toNat).code)) s

/-- MB_ISDARK (R260): SequenceError is checked before RangeError. -/
def execMbIsdark (row col : Byte) (s : State) : Answer :=
  gated (fun s =>
    if s.mstage ≠ .final then raise .sequence
    else if s.side ≤ row.toNat ∨ s.side ≤ col.toNat then raise .range
    else .ok (s, if (s.mat.cell row.toNat col.toNat).val = .dark then 1 else 0)) s

end Sys2Proof.Machine
end

