-- ==== Sys2Proof/Machine/MaskEvaluator.lean ====
section
/-! DEFINITION. The mask evaluator (45_mask_evaluator.md): the four penalties of a candidate, and the choice of the mask. A line is a list of colours, `true` for DARK (R270). -/

namespace Sys2Proof.Machine

/-- The rows of the symbol square of side `n` as colours (R270). -/
def rowLines (n : Nat) (g : Grid) : List (List Bool) :=
  (g.take n).map fun row => (row.take n).map fun x => decide (x.val = .dark)

/-- The columns of `n` rows of `n` colours, left to right (R272). -/
def columnLines (n : Nat) (rows : List (List Bool)) : List (List Bool) :=
  (List.range n).map fun c => rows.map fun row => row.getD c false

/-- The `2N` lines of a symbol: its rows, then its columns (R272, R274). -/
def allLines (n : Nat) (rows : List (List Bool)) : List (List Bool) := rows ++ columnLines n rows

/-- The lengths of the maximal runs of a line whose first run has colour `x` and `k` cells so far (R272). -/
def runsFrom (x : Bool) : Nat → List Bool → List Nat
  | k, [] => [k]
  | k, y :: ys => if y = x then runsFrom x (k + 1) ys else k :: runsFrom y 1 ys

/-- The lengths of the maximal runs of equal colour of a line, in order (R272). -/
def runLengths : List Bool → List Nat
  | [] => []
  | x :: xs => runsFrom x 1 xs

/-- What a run of length `k` adds: `3 + (k - 5)` from 5 on (R272). -/
def runPenalty (k : Nat) : Nat := if 5 ≤ k then 3 + (k - 5) else 0

/-- N1, the run penalty (R272). -/
def penaltyN1 (n : Nat) (rows : List (List Bool)) : Nat :=
  ((allLines n rows).map fun ln => ((runLengths ln).map runPenalty).sum).sum

/-- The 2 by 2 blocks of one colour between two neighbouring rows (R273). -/
def blocksBetween : List Bool → List Bool → Nat
  | a :: b :: as, c :: d :: cs =>
    (if a = b ∧ a = c ∧ a = d then 1 else 0) + blocksBetween (b :: as) (d :: cs)
  | _, _ => 0

/-- The 2 by 2 blocks of one colour of a symbol, overlapping ones counted (R273). -/
def colourBlocks : List (List Bool) → Nat
  | r :: r' :: rs => blocksBetween r r' + colourBlocks (r' :: rs)
  | _ => 0

/-- N2, the block penalty (R273). -/
def penaltyN2 (rows : List (List Bool)) : Nat := 3 * colourBlocks rows

/-- `PA`, 1 = DARK (R274). -/
def patternA : List Bool := [true, false, true, true, true, false, true, false, false, false, false]

/-- `PB`, the reverse of PA (R274). -/
def patternB : List Bool := [false, false, false, false, true, false, true, true, true, false, true]

/-- The start positions of a line where the 11 cells equal PA, and those where they equal PB (R274). -/
def finderLike : List Bool → Nat
  | [] => 0
  | x :: xs =>
    (if (x :: xs).take 11 = patternA then 1 else 0) + (if (x :: xs).take 11 = patternB then 1 else 0) + finderLike xs

/-- N3, the finder-like penalty (R274). -/
def penaltyN3 (n : Nat) (rows : List (List Bool)) : Nat := 40 * ((allLines n rows).map finderLike).sum

/-- The number of DARK cells (R275). -/
def darkCount (rows : List (List Bool)) : Nat := (rows.map fun row => row.count true).sum

/-- N4 from the number of dark cells and of all cells (R275). -/
def balancePenalty (dark total : Nat) : Nat := 10 * (absDiff (20 * dark) (10 * total) / total)

/-- N4, the balance penalty (R275). -/
def penaltyN4 (n : Nat) (rows : List (List Bool)) : Nat := balancePenalty (darkCount rows) (n * n)

/-- Scores the candidate of mask `m`: PN1 to PN4 and PEN[m] (R276, R278, R284). MAT is read and not written. -/
def State.score (m : BitVec 3) (s : State) : State :=
  let n := s.side
  let rows := rowLines n (finalize s.ver m s.mat)
  let p1 := BitVec.ofNat 32 (penaltyN1 n rows)
  let p2 := BitVec.ofNat 32 (penaltyN2 rows)
  let p3 := BitVec.ofNat 32 (penaltyN3 n rows)
  let p4 := BitVec.ofNat 32 (penaltyN4 n rows)
  { s with pn1 := p1, pn2 := p2, pn3 := p3, pn4 := p4, pen := s.pen.set m.toNat (p1 + p2 + p3 + p4) m.isLt }

/-- MB_PENALTY (R278). -/
def execMbPenalty (m : BitVec 3) (s : State) : Answer :=
  gated (fun s =>
    if s.mstage ≠ .placed ∧ s.mstage ≠ .selected then raise .sequence
    else .ok (s.score m, (s.score m).penOf m)) s

/-- The masks in order, 0 to 7. -/
def allMasks : List (BitVec 3) := [0#3, 1#3, 2#3, 3#3, 4#3, 5#3, 6#3, 7#3]

/-- Scores the masks in order 0 to 7, so that mask 7's components stay in PN1 to PN4 (R284). -/
def State.scoreAll (s : State) : State := allMasks.foldl (fun s m => s.score m) s

/-- The least mask whose total is the minimum: the first tie wins (R284). -/
def State.bestMask (s : State) : BitVec 3 :=
  allMasks.foldl (fun best m => if s.penOf m < s.penOf best then m else best) 0#3

/-- The rule of MB_SELECT (R284): the masks are scored in order 0 to 7, and the totals are compared after all are known. -/
def mbSelectBody : Body := fun s =>
  if s.mstage ≠ .placed ∧ s.mstage ≠ .selected then raise .sequence
  else
    let t := s.scoreAll
    .ok ({ t with mask := t.bestMask, mstage := .selected }, zext32 t.bestMask)

/-- MB_SELECT (R284). -/
def execMbSelect (s : State) : Answer := gated mbSelectBody s

end Sys2Proof.Machine
end

