-- ==== Sys2Proof/Machine/GaloisField.lean ====
section
/-! DEFINITION. GF(256) arithmetic over the EXP and LOG ROMs (42_galois_field.md). -/

namespace Sys2Proof.Machine

/-- `gfmul(a, b)` (R175). -/
def gfmul (a b : Byte) : Byte :=
  if a = 0 ∨ b = 0 then 0 else Rom.exp ((Rom.log a + Rom.log b) % 255)

/-- `gfdiv(a, b)` for `b` that is not 0 (R179). -/
def gfdiv (a b : Byte) : Byte :=
  if a = 0 then 0 else Rom.exp ((Rom.log a + 255 - Rom.log b) % 255)

/-- GF_EXP (R176). -/
def execGfExp (i : Byte) (s : State) : Answer :=
  gated (fun s => .ok (s, zext32 (Rom.exp (i.toNat % 255)))) s

/-- GF_LOG (R177): 0 has no logarithm. -/
def execGfLog (a : Byte) (s : State) : Answer :=
  gated (fun s => if a = 0 then raise .domain else .ok (s, BitVec.ofNat 32 (Rom.log a))) s

/-- GF_MUL (R178). -/
def execGfMul (a b : Byte) (s : State) : Answer :=
  gated (fun s => .ok (s, zext32 (gfmul a b))) s

/-- GF_DIV (R179): DomainError for the divisor 0, `0 / 0` included. -/
def execGfDiv (a b : Byte) (s : State) : Answer :=
  gated (fun s => if b = 0 then raise .domain else .ok (s, zext32 (gfdiv a b))) s

end Sys2Proof.Machine
end

