-- ==== Sys2Proof/Machine/ReedSolomon.lean ====
section
/-! DEFINITION. The Reed-Solomon encoder, the block split and the interleaving (43_reed_solomon.md). Polynomials are coefficient lists, highest degree first (R16). -/

namespace Sys2Proof.Machine

/-- The product of a polynomial and `(x + c)`: `g ++ [0]` with `gfmul(g[k], c)` added one place lower (R190). -/
def mulRoot (g : List Byte) (c : Byte) : List Byte :=
  List.zipWith (· ^^^ ·) (g ++ [0]) (0 :: g.map fun x => gfmul x c)

/-- `gen(n)`, the RS generator polynomial of degree `n` (R190). -/
def rsGenPoly : Nat → List Byte
  | 0 => [1]
  | n + 1 => mulRoot (rsGenPoly n) (Rom.exp n)

/-- Adds `c * gtail` to the first places of `rem` (the inner loop of R192). -/
def subtractMultiple (c : Byte) : List Byte → List Byte → List Byte
  | g :: gs, x :: xs => (x ^^^ gfmul g c) :: subtractMultiple c gs xs
  | _, xs => xs

/-- `k` rounds of long division by the monic polynomial `1 :: gtail`; each round takes the leading coefficient away (R192). -/
def longDivide (gtail : List Byte) : Nat → List Byte → List Byte
  | k + 1, c :: rest => longDivide gtail k (if c = 0 then rest else subtractMultiple c gtail rest)
  | _, rem => rem

/-- `rs_remainder(d, n)` (R192). -/
def rsRemainder (d : List Byte) (n : Nat) : List Byte :=
  longDivide (rsGenPoly n).tail d.length (d ++ List.replicate n 0)

/-- RS_GEN (R193). -/
def execRsGen (n : Byte) (dst : Word) (s : State) : Answer :=
  gated (fun s =>
    if n.toNat < 1 ∨ Config.rsNMax < n.toNat then raise .range
    else if Config.wramSize < dst.toNat + n.toNat + 1 then raise .range
    else do
    let wram ← s.wram.writeBytes dst.toNat (rsGenPoly n.toNat)
    return ({ s with wram := wram }, BitVec.ofNat 32 (n.toNat + 1))) s

/-- RS_ENCODE (R195): every input byte is read before an output byte is written (R83). -/
def execRsEncode (n : Byte) (src len : BitVec 16) (dst : Word) (s : State) : Answer :=
  gated (fun s =>
    if n.toNat < 1 ∨ Config.rsNMax < n.toNat then raise .range
    else if len.toNat < 1 then raise .range
    else if Config.wramSize < src.toNat + len.toNat ∨ Config.wramSize < dst.toNat + n.toNat then raise .range
    else do
    let d ← s.wram.readBytes src.toNat len.toNat
    let wram ← s.wram.writeBytes dst.toNat (rsRemainder d n.toNat)
    return ({ s with wram := wram }, BitVec.ofNat 32 n.toNat)) s

/-- Cuts a sequence into blocks of the given lengths, in order (R200). -/
def splitBlocks {α : Type} : List Nat → List α → List (List α)
  | [], _ => []
  | k :: ks, xs => xs.take k :: splitBlocks ks (xs.drop k)

/-- One round of the round-robin: the first codeword of each block that has one, in block order (R205). -/
def roundHeads {α : Type} (blocks : List (List α)) : List α := blocks.filterMap List.head?

/-- `k` rounds of the round-robin over the blocks; a block that is exhausted is skipped (R205). -/
def roundRobin {α : Type} : Nat → List (List α) → List α
  | 0, _ => []
  | k + 1, blocks => roundHeads blocks ++ roundRobin k (blocks.map List.tail)

/-- The interleaved sequence: the data codewords, then the EC codewords, each round-robin (R205). -/
def interleave (data ec : List (List Byte)) : List Byte :=
  roundRobin ((data.map List.length).foldl max 0) data ++ roundRobin ((ec.map List.length).foldl max 0) ec

/-- The blocks of version `v` (R200). -/
def dataBlocks (v : Nat) (data : List Byte) : List (List Byte) := splitBlocks (Rom.blockLengths v) data

/-- The EC codewords of every block of version `v` (R201). -/
def ecBlocks (v : Nat) (data : List Byte) : List (List Byte) :=
  (dataBlocks v data).map fun b => rsRemainder b (Rom.ecCount v)

/-- The interleaved sequence of version `v` (R205). -/
def codewordSequence (v : Nat) (data : List Byte) : List Byte := interleave (dataBlocks v data) (ecBlocks v data)

/-- The rule of CW_BUILD (R204, R206): block `b`'s EC codewords lie at `EC_BASE + b*n`, that is block after block. -/
def cwBuildBody : Body := fun s =>
  if s.version = 0 then raise .sequence
  else do
  let data ← s.dataRegion
  let wram ← s.wram.writeBytes Config.ecBase (ecBlocks s.ver data).flatten
  let wram ← wram.writeBytes Config.seqBase (codewordSequence s.ver data)
  return ({ s with wram := wram }, BitVec.ofNat 32 (codewordSequence s.ver data).length)

/-- CW_BUILD (R206). -/
def execCwBuild (s : State) : Answer := gated cwBuildBody s

end Sys2Proof.Machine
end

