-- ==== Sys2Proof/Machine/HostInterface.lean ====
section
/-! DEFINITION. NOP, the memory and register commands, ERR_CLEAR and ENCODE (46_host_interface.md). -/

namespace Sys2Proof.Machine

/-- NOP (R301): it passes the gate. -/
def execNop (s : State) : Answer := perform (fun s => .ok (s, 0)) s

/-- WR_WRITE (R302). -/
def execWrWrite (addr : BitVec 12) (byte : Byte) (s : State) : Answer :=
  gated (fun s => do
    let wram ← s.wram.writeBytes addr.toNat [byte]
    return ({ s with wram := wram }, 0)) s

/-- WR_READ (R304). -/
def execWrRead (addr : BitVec 12) (s : State) : Answer :=
  gated (fun s => do
    let b ← s.wram.readByte addr.toNat
    return (s, zext32 b)) s

/-- REG_READ (R306): it passes the gate. A reserved selector is an illegal command (R97, R99). -/
def execRegRead (sel : BitVec 5) (s : State) : Answer :=
  perform (fun s =>
    match s.readReg sel with
    | some w => .ok (s, w)
    | none => raise .illegal) s

/-- ERR_CLEAR (R308): it passes the gate. -/
def execErrClear (s : State) : Answer :=
  perform (fun s => .ok (s.clearErr, zext32 s.err.code)) s

/-- `EncodeSteps` (R313): the seven command bodies in order, without the gate. -/
def encodeSteps (s : State) : Exec State := do
  let p ← deSelectBody s
  let p ← deEncodeBody p.1
  let p ← cwBuildBody p.1
  let p ← mbFuncBody p.1
  let p ← mbPlaceBody p.1
  let p ← mbSelectBody p.1
  let p ← mbFinalBody p.1
  return p.1

/-- ENCODE's RESULT: N in [15:8], MASK in [6:4], VERSION in [3:0] (R310). -/
def encodeResult (s : State) : Word :=
  zext32 (BitVec.ofNat 8 s.side) <<< 8 ||| zext32 s.mask <<< 4 ||| zext32 s.version

/-- The failure of an ENCODE that was performed: MSTAGE goes to 0 with the error, so that no earlier matrix can be read (R314). -/
def State.failEncode (s : State) (e : ErrCode) : State :=
  let s := s.fail e
  { s with mstage := .empty }

/-- ENCODE (R310). An error of a step is taken with MSTAGE set to 0, the one exception to the no-commit rule (R314). -/
def execEncode (s : State) : Answer :=
  if s.err = .ok then
    match encodeSteps s with
    | .ok s' => .next (s'.respond (encodeResult s') .ok)
    | .error (.raise e) => .next (s.failEncode e)
    | .error (.stop f) => .fault f
  else .next s.refusePending

end Sys2Proof.Machine
end

