-- ==== Sys2Proof/Machine/Dispatch.lean ====
section
/-! DEFINITION. The meaning of each command, one arm per constructor of `Instr`. -/

namespace Sys2Proof.Machine

def exec (i : Instr) (s : State) : Host.Outcome State Fault Refusal :=
  match i with
  | .nop => Sys2Proof.Machine.execNop s
  | .bbClear => Sys2Proof.Machine.execBbClear s
  | .bbAppend nbits value => Sys2Proof.Machine.execBbAppend nbits value s
  | .bbAppendByte byte => Sys2Proof.Machine.execBbAppendByte byte s
  | .bbLength => Sys2Proof.Machine.execBbLength s
  | .bbGetbit index => Sys2Proof.Machine.execBbGetbit index s
  | .bbGetbyte k => Sys2Proof.Machine.execBbGetbyte k s
  | .lenSet len => Sys2Proof.Machine.execLenSet len s
  | .verSet ver => Sys2Proof.Machine.execVerSet ver s
  | .deSelect => Sys2Proof.Machine.execDeSelect s
  | .deEncode => Sys2Proof.Machine.execDeEncode s
  | .gfExp n => Sys2Proof.Machine.execGfExp n s
  | .gfLog a => Sys2Proof.Machine.execGfLog a s
  | .gfMul a b => Sys2Proof.Machine.execGfMul a b s
  | .gfDiv a b => Sys2Proof.Machine.execGfDiv a b s
  | .rsGen n dst => Sys2Proof.Machine.execRsGen n dst s
  | .rsEncode n src len dst => Sys2Proof.Machine.execRsEncode n src len dst s
  | .cwBuild => Sys2Proof.Machine.execCwBuild s
  | .mbFunc => Sys2Proof.Machine.execMbFunc s
  | .mbPlace => Sys2Proof.Machine.execMbPlace s
  | .mbCell row col => Sys2Proof.Machine.execMbCell row col s
  | .mbFinal => Sys2Proof.Machine.execMbFinal s
  | .mbIsdark row col => Sys2Proof.Machine.execMbIsdark row col s
  | .mbPenalty m => Sys2Proof.Machine.execMbPenalty m s
  | .mbSelect => Sys2Proof.Machine.execMbSelect s
  | .wrWrite addr byte => Sys2Proof.Machine.execWrWrite addr byte s
  | .wrRead addr => Sys2Proof.Machine.execWrRead addr s
  | .regRead sel => Sys2Proof.Machine.execRegRead sel s
  | .errClear => Sys2Proof.Machine.execErrClear s
  | .encode => Sys2Proof.Machine.execEncode s

end Sys2Proof.Machine
end

