-- ==== Sys2Proof/Machine/Fetch.lean ====
section
/-! DEFINITION. Taking a command from the port: decoding it, answering an illegal word, and performing a legal one (R332). -/

namespace Sys2Proof.Machine

/-- Performs one accepted command (R332): an illegal word answers IllegalCommand and performs nothing, even while an error is
pending (R99, R334); a legal one has its meaning. -/
def runCommand (c : Command) (s : State) : Answer :=
  match decode c with
  | .ok i => exec i s
  | .error _ => .next (s.fail .illegal)

/-- Reset (R360, R361): every register takes its reset value and every WRAM byte counts as unwritten. What the host does next
is not the machine's. -/
def State.afterReset (s : State) : State := { State.reset with inputs := s.inputs }

/-- One thing the host does at the port. -/
def runInput (i : HostInput) (s : State) : Answer :=
  match i with
  | .command c => runCommand c s
  | .reset => .next s.afterReset

/-- One step: the next thing the host does at the port, or nothing while it does nothing (R84, R300). -/
def stepPort (s : State) : Answer :=
  match s.inputs with
  | [] => .next s
  | i :: rest => runInput i { s with inputs := rest }

end Sys2Proof.Machine
end

