-- ==== Sys2Proof/Machine/Step.lean ====
section
/-! DEFINITION. One step of the machine, and the host presenting one more command. -/

namespace Sys2Proof.Machine

/-- One step: one command from acceptance to its response, which R367 lets a model treat as one step. -/
def step (s : State) : Host.Outcome State Fault Refusal := stepPort s

/-- The host presents the command whose bits are `w` (numbered as opcode_table.json does) before all else it will do, so that
the next step performs it. -/
def State.withFetchWord (s : State) (nbits w : Nat) : State :=
  { s with inputs := .command (commandOfTableWord nbits w) :: s.inputs }

end Sys2Proof.Machine
end

