-- ==== Sys2Proof/Machine/Port.lean ====
section
/-! DEFINITION. The command port clock by clock (R300, R360, R361, R365, R367): the signals the host drives, the signals QRCORE drives, and one rising edge of `clk`. `step` abstracts it: one command, from acceptance to its response, is one step (log entry 13). -/

namespace Sys2Proof.Machine

/-- The signals the host drives, as one rising edge samples them (R300). -/
structure PortIn where
  rstN : Bool
  cmdValid : Bool
  cmd : Command
  rspReady : Bool
  deriving DecidableEq, Repr

/-- What the port is doing between two edges. -/
inductive PortPhase where
  /-- `rst_n` was 0 at the last edge (R360). -/
  | inReset
  /-- `cmd_ready = 1`: a command can be accepted (R300 (a)). -/
  | ready
  /-- A command has been accepted; the response is presented after this many more clocks (R300 (b), (c)). -/
  | busy (c : Command) (clocks : Nat)
  /-- `rsp_valid = 1`: the response waits to be taken (R300 (c), (d)). -/
  | responding
  /-- The response was taken at the last edge; `rsp_valid` falls and `cmd_ready` rises at the next one (R300 (d)). -/
  | taken
  deriving DecidableEq, Repr

/-- The machine with its port. The port's own registers are not architectural (R51). -/
structure PortState where
  /-- The architectural state. -/
  core : State
  phase : PortPhase
  /-- The command the host has presented and QRCORE has not accepted yet, which R365 (a) obliges the host to hold. -/
  offered : Option Command
  /-- The host has broken R365 (a) since the last acceptance. -/
  broken : Bool
  /-- The number of edges so far: the model's own counter, which the free values are applied to. -/
  clock : Nat
  deriving DecidableEq, Repr

/-- The signals QRCORE drives (R300). -/
structure PortOut where
  cmdReady : Bool
  rspValid : Bool
  rspResult : Word
  rspErr : BitVec 3
  deriving DecidableEq, Repr

/-- `rsp_valid`: from the clock a response is presented to the edge after it was taken (R300 (c), (d)). -/
def PortPhase.presenting : PortPhase → Bool
  | .responding => true
  | .taken => true
  | .inReset => false
  | .ready => false
  | .busy _ _ => false

/-- The signals QRCORE drives between two edges. While `rsp_valid = 0` the response signals are free values (R365 (b)). -/
def PortState.outputs (p : PortState) : PortOut where
  cmdReady := decide (p.phase = .ready)
  rspValid := p.phase.presenting
  rspResult := if p.phase.presenting then p.core.result else Config.idleResult p.clock
  rspErr := if p.phase.presenting then (p.core.rsp.map fun r => r.err.code).getD 0 else Config.idleErr p.clock

/-- `LAT(cmd)`, at least 1 (R367). -/
def latency (c : Command) : Nat := Config.extraLatency c.cmd c.arg0 c.arg1 + 1

/-- The edge's sample breaks R365 (a): a command was presented, and it is no longer presented unchanged. -/
def PortState.breaks (p : PortState) (i : PortIn) : Bool :=
  match p.offered with
  | some c => !(i.cmdValid && i.cmd == c)
  | none => false

/-- What the host presents in a sample. -/
def PortIn.offer (i : PortIn) : Option Command := if i.cmdValid then some i.cmd else none

/-- The free choice of R365 (c) as a command. -/
def brokenChoice (clock : Nat) : Option Command :=
  (Config.brokenCommand clock).map fun w => ⟨w.1, w.2.1, w.2.2⟩

/-- One rising edge of `clk`. Two points of R365 are the model's choices. Reset ends the duty of R365 (a): at an edge with
`rst_n = 0` the presented command and any breach are forgotten (DESIGN CHOICE, log entry 19). Where the free choice after a
breach is 'nothing', the command presented at that edge is not accepted and counts as presented, so it is accepted at the next
edge if the host holds it, and dropping it is a new breach (DESIGN CHOICE, log entry 20). What an edge does with the clocks of
R300 and R360 is log entry 13. -/
def portEdge (i : PortIn) (p : PortState) : Host.Outcome PortState Fault Refusal :=
  let q := { p with clock := p.clock + 1, offered := i.offer, broken := p.broken || p.breaks i }
  if i.rstN = false then .next { q with phase := .inReset, offered := none, broken := false }
  else
    match p.phase with
    | .inReset => .next { q with core := p.core.afterReset, phase := .ready }
    | .ready =>
      match (if q.broken then brokenChoice p.clock else i.offer) with
      | some c => .next { q with phase := .busy c (latency c), offered := none, broken := false }
      | none => .next { q with broken := false }
    | .busy c clocks =>
      if 1 < clocks then .next { q with phase := .busy c (clocks - 1) }
      else
        match runCommand c p.core with
        | .next core => .next { q with core := core, phase := .responding }
        | .fault f => .fault f
        | .refused r => .refused r
    | .responding => if i.rspReady then .next { q with phase := .taken } else .next q
    | .taken => .next { q with phase := .ready }

/-- The edges of a list of samples, in order. -/
def portEdges : List PortIn → PortState → Host.Outcome PortState Fault Refusal
  | [], p => .next p
  | i :: is, p =>
    match portEdge i p with
    | .next q => portEdges is q
    | .fault f => .fault f
    | .refused r => .refused r

end Sys2Proof.Machine
end

