-- ==== Sys2Proof/Safety.lean ====
section
/-! DEFINITION. What claims call a good state: the canonical memory form, and the invariants R52 gives every reachable state. -/

namespace Sys2Proof.Machine

/-- MAT is an array of 77 rows of 77 cells (R45). -/
def Grid.shaped (g : Grid) : Prop := g.length = Config.matDim ∧ ∀ row ∈ g, row.length = Config.matDim

/-- The reserved set of version `v`: the union of R239. -/
def reservedSet (v r c : Nat) : Bool :=
  (finderPattern (Rom.size v) r c).isSome || (timingPattern r c).isSome || (alignPattern v r c).isSome ||
  (darkModule (Rom.size v) r c).isSome || formatArea (Rom.size v) r c || (decide (7 ≤ v) && versionArea (Rom.size v) r c)

/-- The cells that stay UNSET until MB_FINAL: the format cells, and the version cells from version 7 on (R52 (f), R248). -/
def lateCells (v r c : Nat) : Bool :=
  formatArea (Rom.size v) r c || (decide (7 ≤ v) && versionArea (Rom.size v) r c)

/-- The memory form, the array's shape, and R52 (a), (b), (c). (R52 (d) holds by the type of MSTAGE.) -/
structure State.Regular (s : State) : Prop where
  wram_wf : s.wram.wf
  mat_shaped : s.mat.shaped
  bb_le : s.bb.length ≤ Config.bbCap
  version_of_stage : s.mstage ≠ .empty → s.version ≠ 0
  err_held : s.err ≠ .errPending

/-- R52 (e): from MB_FUNC on, a cell of the symbol square is reserved exactly when it is in the reserved set. -/
def State.ReservedOk (s : State) : Prop :=
  s.mstage ≠ .empty →
    ∀ r c, r < s.side → c < s.side → (s.mat.cell r c).res = reservedSet s.ver r c

/-- R52 (f) and (g): which cells of the symbol square are UNSET at each stage. -/
def State.ColoursOk (s : State) : Prop :=
  ∀ r c, r < s.side → c < s.side →
    ((s.mstage = .func ∨ s.mstage = .placed ∨ s.mstage = .selected) → lateCells s.ver r c = true →
      (s.mat.cell r c).val = .unset) ∧
    ((s.mstage = .placed ∨ s.mstage = .selected) → lateCells s.ver r c = false → (s.mat.cell r c).val ≠ .unset) ∧
    (s.mstage = .func → reservedSet s.ver r c = true → lateCells s.ver r c = false → (s.mat.cell r c).val ≠ .unset) ∧
    (s.mstage = .final → (s.mat.cell r c).val ≠ .unset)

/-- A state in which every invariant of R52 holds. -/
structure State.Good (s : State) : Prop where
  regular : s.Regular
  reserved : s.ReservedOk
  colours : s.ColoursOk

end Sys2Proof.Machine
end

