-- ==== Sys2Proof/Certificates/Slice0/Obligations.lean ====
section
/-! DEFINITION. The statements about QRCORE for the provers. The names of `Sys2Proof.Claims` write the spec's own tables and pictures out, apart from the model's. -/

open Sys2Proof Sys2Proof.Machine

namespace Sys2Proof.Claims

/-- The state after a command that completes with RESULT `r`: nothing but `s`'s own fields, RESULT and the response (R33, R92). -/
def success (s : State) (r : Word) : State := { s with result := r, rsp := some ⟨r, .ok⟩ }

/-- The state after a command that fails with `e` while no error is pending (R334). -/
def failure (s : State) (e : ErrCode) : State := { s with result := 0, rsp := some ⟨0, e⟩, err := e }

/-- Byte `k` of the list stands at `base + k`. -/
def bytesAt (m : Memory) (base : Nat) (bytes : List Byte) : Prop :=
  ∀ k (h : k < bytes.length), m.lookup (base + k) = some bytes[k]

/-- Every byte of the list is written, from `base` up. -/
def written (s : State) (base : Nat) (bytes : List Byte) : Prop := bytesAt s.wram base bytes

/-- `m'` is `m` after the list is stored: byte `k` stands at `base + k`, and every other address reads as before. -/
def storedAt (m m' : Memory) (base : Nat) (bytes : List Byte) : Prop :=
  bytesAt m' base bytes ∧ ∀ a, a < base ∨ base + bytes.length ≤ a → m'.lookup a = m.lookup a

/-- `a` is one of the `n` addresses from `base` up, and no command has written it. -/
def unwrittenIn (s : State) (base n a : Nat) : Prop := base ≤ a ∧ a < base + n ∧ s.wram.lookup a = none

/-- R71: where one of the `n` bytes from `base` up is unwritten, the command faults on such a byte. -/
def faultsOnUnwritten (i : Instr) (s : State) (base n : Nat) : Prop :=
  (∃ a, unwrittenIn s base n a) → ∃ a, unwrittenIn s base n a ∧ exec i s = .fault (.unwrittenByte a)

/-- The numbers of MSTAGE (R35). -/
def stageNumber : MStage → Nat
  | .empty => 0
  | .func => 1
  | .placed => 2
  | .selected => 3
  | .final => 4

/-- The numbers of the error codes (R330): CapacityError 1, RangeError 2, DomainError 3, SequenceError 4, IllegalCommand 5,
ErrPending 7. -/
def errNumber : ErrCode → Nat
  | .ok => 0
  | .capacity => 1
  | .range => 2
  | .domain => 3
  | .sequence => 4
  | .illegal => 5
  | .errPending => 7

/-- The opcode map (R98) with the reserved mask of each row's format (R94, R101). -/
def opcodeMap : List (BitVec 8 × Word) :=
  [(0x00, 0xFFFFFF), (0x10, 0xFFFFFF), (0x11, 0xFFFFC0), (0x12, 0xFFFF00), (0x13, 0xFFFFFF), (0x14, 0xFFFFFF),
   (0x15, 0xFFFFFF), (0x20, 0xFFFC00), (0x21, 0xFFFFF0), (0x22, 0xFFFFFF), (0x23, 0xFFFFFF), (0x30, 0xFFFF00),
   (0x31, 0xFFFF00), (0x32, 0xFF0000), (0x33, 0xFF0000)] ++
  [(0x40, 0xFFFF00), (0x41, 0xFFFF00), (0x42, 0xFFFFFF), (0x50, 0xFFFFFF), (0x51, 0xFFFFFF), (0x52, 0xFF0000),
   (0x53, 0xFFFFFF), (0x54, 0xFF0000), (0x60, 0xFFFFF8), (0x61, 0xFFFFFF), (0x70, 0xF00000), (0x71, 0xF000FF),
   (0x72, 0xFFFFE0), (0x73, 0xFFFFFF), (0x74, 0xFFFFFF)]

/-- A command word that is not illegal (R99): its opcode is in the map, its reserved bits are 0, and a REG_READ's selector is
one of 0 to 8 and 16 to 23. -/
def legalWord (w : Word) : Prop :=
  (∃ row ∈ opcodeMap, w.extractLsb' 24 8 = row.1 ∧ w &&& row.2 = 0) ∧
  (w.extractLsb' 24 8 = 0x72#8 →
    (w.extractLsb' 0 5).toNat ≤ 8 ∨ (16 ≤ (w.extractLsb' 0 5).toNat ∧ (w.extractLsb' 0 5).toNat ≤ 23))

/-- The commands that read ARG0 (R96). -/
def readsArg0 : Instr → Bool
  | .bbAppend _ _ | .bbGetbit _ | .bbGetbyte _ | .rsGen _ _ | .rsEncode _ _ _ _ => true
  | _ => false

/-- The command that reads ARG1 (R96). -/
def readsArg1 : Instr → Bool
  | .rsEncode _ _ _ _ => true
  | _ => false

/-- The low `n` bits of `x`, most significant first (R77, R121). -/
def bitsOf (n x : Nat) : List Bool := (List.range n).map fun k => x.testBit (n - 1 - k)

/-- CAP[1..15] (R145). -/
def capTable : List Nat := [17, 32, 53, 78, 106, 134, 154, 192, 230, 271, 321, 367, 425, 458, 520]

/-- D(1..15) (R143). -/
def dataTable : List Nat := [19, 34, 55, 80, 108, 136, 156, 194, 232, 274, 324, 370, 428, 461, 523]

/-- TC(1..15) (R232). -/
def totalTable : List Nat := [26, 44, 70, 100, 134, 172, 196, 242, 292, 346, 404, 466, 532, 581, 655]

/-- R(1..15), the remainder cells (R233). -/
def remainderTable : List Nat := [0, 7, 7, 7, 7, 7, 0, 0, 0, 0, 0, 0, 0, 3, 3]

/-- `n(1..15)`, the EC codewords per block (R232). -/
def ecTable : List Nat := [7, 10, 15, 20, 26, 18, 20, 24, 30, 18, 20, 24, 26, 30, 22]

/-- NB(1..15), the blocks (R232). -/
def blockTable : List Nat := [1, 1, 1, 1, 1, 2, 2, 2, 2, 4, 4, 4, 4, 4, 6]

/-- ALIGNPOS[1..15] (R227). -/
def alignTable : List (List Nat) :=
  [[], [6, 18], [6, 22], [6, 26], [6, 30], [6, 34], [6, 22, 38], [6, 24, 42], [6, 26, 46], [6, 28, 50], [6, 30, 54],
   [6, 32, 58], [6, 34, 62], [6, 26, 46, 66], [6, 26, 48, 70]]

/-- Entry `v` in 1..15 of a table. -/
def entry (table : List Nat) (v : Nat) : Nat := table.getD (v - 1) 0

/-- CCB(v) (R142). -/
def countWidth (v : Nat) : Nat := if v ≤ 9 then 8 else 16

/-- `v` is the least version of 1 to 15 whose capacity is at least `len` (R147). -/
def leastVersion (len v : Nat) : Prop :=
  1 ≤ v ∧ v ≤ 15 ∧ len ≤ entry capTable v ∧ ∀ u, 1 ≤ u → u < v → entry capTable u < len

/-- The stream of DE_ENCODE, field by field (R158): mode, count, data, terminator, pad bytes. -/
def stream (v : Nat) (text : List Byte) : List Bool :=
  [false, true, false, false] ++ bitsOf (countWidth v) text.length ++ text.flatMap (fun b => bitsOf 8 b.toNat) ++
  [false, false, false, false] ++
  (List.range (entry dataTable v - 1 - countWidth v / 8 - text.length)).flatMap
    (fun p => bitsOf 8 (if p % 2 = 0 then 0xEC else 0x11))

/-- One step of the EXP recurrence: the 9-bit `a << 1`, with 0x11D added when its bit 8 is 1 (R171). -/
def timesAlpha (a : Byte) : Byte := (a <<< 1) ^^^ (if a.getLsbD 7 then 0x1D#8 else 0#8)

/-- The value of a polynomial at `x`, by Horner's rule over `gfmul` and exclusive or (R194). -/
def horner (p : List Byte) (x : Byte) : Byte := p.foldl (fun acc a => gfmul acc x ^^^ a) 0

/-- The 7 by 7 finder (R223), 1 = dark. -/
def finderPicture : List (List Nat) :=
  [[1, 1, 1, 1, 1, 1, 1], [1, 0, 0, 0, 0, 0, 1], [1, 0, 1, 1, 1, 0, 1], [1, 0, 1, 1, 1, 0, 1], [1, 0, 1, 1, 1, 0, 1],
   [1, 0, 0, 0, 0, 0, 1], [1, 1, 1, 1, 1, 1, 1]]

/-- The 5 by 5 alignment pattern (R226), 1 = dark. -/
def alignPicture : List (List Nat) :=
  [[1, 1, 1, 1, 1], [1, 0, 0, 0, 1], [1, 0, 1, 0, 1], [1, 0, 0, 0, 1], [1, 1, 1, 1, 1]]

/-- A function module of the colour a picture shows at `(r, c)` (R220). -/
def drawn (picture : List (List Nat)) (r c : Nat) : Cell :=
  ⟨if (picture.getD r []).getD c 0 = 1 then .dark else .light, true⟩

/-- The first format copy's cell of bit `i` (R256). -/
def formatCell1 (i : Nat) : Nat × Nat :=
  if i ≤ 5 then (i, 8) else if i = 6 then (7, 8) else if i = 7 then (8, 8) else if i = 8 then (8, 7) else (8, 14 - i)

/-- The second format copy's cell of bit `i` in a symbol of side `n` (R256). -/
def formatCell2 (n i : Nat) : Nat × Nat := if i ≤ 7 then (8, n - 1 - i) else (n - 15 + i, 8)

/-- The cells that hold the format word, and from version 7 on the version word (R236, R237, R256, R258). -/
def wordCell (v r c : Nat) : Prop :=
  (∃ i, i < 15 ∧ ((r, c) = formatCell1 i ∨ (r, c) = formatCell2 (4 * v + 17) i)) ∨
  (7 ≤ v ∧ ∃ i, i < 18 ∧ ((r, c) = (i / 3, 4 * v + 6 + i % 3) ∨ (r, c) = (4 * v + 6 + i % 3, i / 3)))

/-- An alignment pattern of version `v` covers `(r, c)` (R226). -/
def inAlignment (v r c : Nat) : Prop :=
  ∃ p ∈ alignTable.getD (v - 1) [], ∃ q ∈ alignTable.getD (v - 1) [],
    ¬ (p = 6 ∧ q = 6) ∧ ¬ (p = 6 ∧ q = 4 * v + 10) ∧ ¬ (p = 4 * v + 10 ∧ q = 6) ∧
    p ≤ r + 2 ∧ r ≤ p + 2 ∧ q ≤ c + 2 ∧ c ≤ q + 2

/-- The reserved set of version `v` (R239): finders with separators, timing, alignment, the dark module, and the cells of the
format and version words. -/
def reservedBy (v r c : Nat) : Prop :=
  (r ≤ 7 ∧ c ≤ 7) ∨ (r ≤ 7 ∧ 4 * v + 9 ≤ c) ∨ (4 * v + 9 ≤ r ∧ c ≤ 7) ∨ r = 6 ∨ c = 6 ∨ inAlignment v r c ∨
  (r = 4 * v + 9 ∧ c = 8) ∨ wordCell v r c

/-- DARK for a 1 bit, LIGHT for a 0 bit (R256, R258). -/
def bitColour (b : Bool) : CellVal := if b then .dark else .light

/-- The remainder of `data << shift` by a BCH generator of degree `shift`, from bit `shift + k - 1` down to bit `shift`
(R254, R257). -/
def bchRemainder (gen shift : Nat) : Nat → Nat → Nat
  | 0, rem => rem
  | k + 1, rem => bchRemainder gen shift k (if rem.testBit (shift + k) then rem ^^^ (gen <<< k) else rem)

/-- The addresses a command may store to (R72): those its rule names, for the state before it, and for ENCODE those of the
version `v` it selects. -/
def storesTo (i : Instr) (s : State) (v : Nat) (a : Nat) : Prop :=
  match i with
  | .wrWrite addr _ => a = addr.toNat
  | .rsGen n dst => dst.toNat ≤ a ∧ a ≤ dst.toNat + n.toNat
  | .rsEncode n _ _ dst => dst.toNat ≤ a ∧ a < dst.toNat + n.toNat
  | .deEncode => a < Rom.dataCount s.ver
  | .cwBuild =>
    (0x400 ≤ a ∧ a < 0x400 + Rom.blockCount s.ver * Rom.ecCount s.ver) ∨ (0x800 ≤ a ∧ a < 0x800 + Rom.totalCount s.ver)
  | .encode =>
    a < Rom.dataCount v ∨ (0x400 ≤ a ∧ a < 0x400 + Rom.blockCount v * Rom.ecCount v) ∨
    (0x800 ≤ a ∧ a < 0x800 + Rom.totalCount v)
  | _ => False

/-- The total penalty of mask `m` in the state `s` (R276). -/
def totalPenalty (s : State) (m : BitVec 3) : Nat :=
  let rows := rowLines s.side (finalize s.ver m s.mat)
  penaltyN1 s.side rows + penaltyN2 rows + penaltyN3 s.side rows + penaltyN4 s.side rows

/-- A colour array of `n` rows of `n` colours (R270). -/
def squareOf (n : Nat) (rows : List (List Bool)) : Prop := rows.length = n ∧ ∀ row ∈ rows, row.length = n

/-- `F(r, c)` of a colour array (R270). -/
def colourAt (rows : List (List Bool)) (r c : Nat) : Bool := (rows.getD r []).getD c false

/-- PA (R274), 1 = DARK. -/
def finderLikeA : List Bool := [true, false, true, true, true, false, true, false, false, false, false]

/-- PB (R274), 1 = DARK. -/
def finderLikeB : List Bool := [false, false, false, false, true, false, true, true, true, false, true]

/-- The 11 cells of a line from a position on (R274). -/
def elevenCells (cells : Nat → Bool) : List Bool := (List.range 11).map cells

/-- The text that TXT_LEN and the TXT region give (R74). -/
def textIs (s : State) (text : List Byte) : Prop := text.length = s.txtLen.toNat ∧ written s 0xC00 text

/-- The word ENCODE returns: N in [15:8], the mask in [6:4], the version in [3:0] (R310). -/
def encodeWord (s : State) : Word := BitVec.ofNat 32 (256 * (4 * s.version.toNat + 17) + 16 * s.mask.toNat + s.version.toNat)

/-- A sample in which the host presents `c` and reset is not asserted (R300). -/
def presents (i : PortIn) (c : Command) : Prop := i.rstN = true ∧ i.cmdValid = true ∧ i.cmd = c

end Sys2Proof.Claims

open Sys2Proof.Claims

/-! ## Encoding and the step -/

/-- R98, R94: no operand bit of an encoding is dropped. -/
def Obligations.EncodeThenDecodeReturnsTheCommand : Prop :=
  ∀ i : Instr, i.wellFormed = true → decode (encode i) = .ok i

/-- R90, R96, R100: a legal word has one reading, and its command's encoding is the word, with the argument words it reads. -/
def Obligations.DecodedWordHasOneReading : Prop :=
  ∀ (c : Command) (i : Instr), decode c = .ok i →
    i.wellFormed = true ∧
    encode i = ⟨c.cmd, if readsArg0 i then c.arg0 else 0, if readsArg1 i then c.arg1 else 0⟩

/-- R104: the five worked encodings, both ways. -/
def Obligations.WorkedEncodings : Prop :=
  (encode (.gfMul 0x53 0xCA) = ⟨0x320053CA, 0, 0⟩ ∧ decode ⟨0x320053CA, 0, 0⟩ = .ok (.gfMul 0x53 0xCA)) ∧
  (encode (.wrWrite 0xC00 0x41) = ⟨0x700C0041, 0, 0⟩ ∧ decode ⟨0x700C0041, 0, 0⟩ = .ok (.wrWrite 0xC00 0x41)) ∧
  (encode (.bbAppend 4 4) = ⟨0x11000004, 0x00000004, 0⟩ ∧ decode ⟨0x11000004, 0x00000004, 0⟩ = .ok (.bbAppend 4 4)) ∧
  (encode (.regRead 17) = ⟨0x72000011, 0, 0⟩ ∧ decode ⟨0x72000011, 0, 0⟩ = .ok (.regRead 17)) ∧
  (encode (.mbIsdark 20 0) = ⟨0x54001400, 0, 0⟩ ∧ decode ⟨0x54001400, 0, 0⟩ = .ok (.mbIsdark 20 0))

/-- R99: which words are illegal, and that an illegal word performs nothing and answers IllegalCommand. -/
def Obligations.IllegalWordsPerformNothing : Prop :=
  (∀ (c : Command) (s : State), ¬ legalWord c.cmd →
    runCommand c s = .next { s with
      result := 0, rsp := some ⟨0, .illegal⟩, err := if s.err = .ok then .illegal else s.err }) ∧
  (∀ c : Command, legalWord c.cmd → ∃ i, decode c = .ok i)

/-- A step runs the command the host presents, and `withFetchWord` presents one. -/
def Obligations.StepRunsTheDecodedCommand : Prop :=
  (∀ (s : State) (c : Command) (rest : List HostInput) (i : Instr),
    s.inputs = .command c :: rest → decode c = .ok i → step s = exec i { s with inputs := rest }) ∧
  (∀ (s : State) (nbits w : Nat) (i : Instr), decodeTableWord nbits w = some i → step (s.withFetchWord nbits w) = exec i s)

/-- R360, R361: what reset leaves, and that a host reset leaves it. The value the model gives the unreadable cells of MAT is
not stated (log entry 7). -/
def Obligations.ResetLeavesTheStatedValues : Prop :=
  (State.reset.result = 0 ∧ State.reset.statusWord = 0 ∧ State.reset.version = 0 ∧ State.reset.mask = 0 ∧
    State.reset.txtLen = 0 ∧ State.reset.bbLen = 0 ∧ State.reset.pn1 = 0 ∧ State.reset.pn2 = 0 ∧ State.reset.pn3 = 0 ∧
    State.reset.pn4 = 0 ∧ State.reset.err = .ok ∧ State.reset.mstage = .empty) ∧
  (∀ m : BitVec 3, State.reset.penOf m = 0) ∧
  (∀ a, a < 4096 → State.reset.wram.readByte a = .error (.stop (.unwrittenByte a))) ∧
  (∀ (s : State) (rest : List HostInput), s.inputs = .reset :: rest → step s = .next { State.reset with inputs := rest })

/-! ## Errors -/

/-- R335: the gate, and the three commands that pass it. -/
def Obligations.PendingErrorGatesCommands : Prop :=
  ∀ s : State,
    (∀ i : Instr, s.err ≠ .ok → i ≠ .nop → i ≠ .errClear → (∀ sel, i ≠ .regRead sel) →
      exec i s = .next { s with result := 0, rsp := some ⟨0, .errPending⟩ }) ∧
    (∃ r, exec .nop s = .next (success s r)) ∧
    (∃ t r, exec .errClear s = .next (success t r)) ∧
    (∀ sel, legalSelector sel = true → ∃ r, exec (.regRead sel) s = .next (success s r))

/-- R334 and R314: a command that answers an error code commits nothing else. -/
def Obligations.FailingCommandCommitsNothing : Prop :=
  ∀ (c : Command) (s t : State) (r : Word) (e : ErrCode),
    runCommand c s = .next t → t.rsp = some ⟨r, e⟩ → e ≠ .ok →
    (t = { s with
      result := 0
      rsp := some ⟨0, e⟩
      err := if s.err = .ok then e else s.err
      mstage := if decode c = .ok .encode ∧ e ≠ .errPending then .empty else s.mstage }) ∧
    (e = .errPending → s.err ≠ .ok) ∧
    (s.err ≠ .errPending → t.err ≠ .errPending)

/-- R335, R308: no command but ERR_CLEAR lowers or changes a pending error. -/
def Obligations.OnlyErrClearEndsAnError : Prop :=
  ∀ (c : Command) (s t : State), runCommand c s = .next t → s.err ≠ .ok →
    (decode c ≠ .ok .errClear → t.err = s.err) ∧ (decode c = .ok .errClear → t.err = .ok)

/-- R33, R92, R333: every command that does not stop on a fault of the model gives one response, RESULT is its result, and a
failing one's result is 0. A command refuses never. -/
def Obligations.EveryCommandWritesItsResponse : Prop :=
  ∀ (c : Command) (s : State),
    (∀ q, runCommand c s ≠ .refused q) ∧
    (∀ t, runCommand c s = .next t → ∃ e, t.rsp = some ⟨t.result, e⟩ ∧ (e ≠ .ok → t.result = 0))

/-- R301 and R308: NOP and ERR_CLEAR, whatever error is pending; the code ERR_CLEAR returns has the number of R330. -/
def Obligations.NopAndErrClear : Prop :=
  (∀ a0 a1, decode ⟨0x00000000, a0, a1⟩ = .ok .nop) ∧ (∀ a0 a1, decode ⟨0x73000000, a0, a1⟩ = .ok .errClear) ∧
  (∀ (w a0 a1 : Word), w ≠ 0 → w.extractLsb' 24 8 = 0 → ∃ e, decode ⟨w, a0, a1⟩ = .error e) ∧
  ∀ s : State,
    exec .nop s = .next (success s 0) ∧
    exec .errClear s = .next (success { s with err := .ok } (BitVec.ofNat 32 (errNumber s.err)))

/-! ## The bit buffer -/

/-- R122 and R127. -/
def Obligations.BitBufferClearAndLength : Prop :=
  (∀ a0 a1, decode ⟨0x10000000, a0, a1⟩ = .ok .bbClear) ∧ (∀ a0 a1, decode ⟨0x13000000, a0, a1⟩ = .ok .bbLength) ∧
  ∀ s : State, s.err = .ok →
    exec .bbClear s = .next (success { s with bb := [] } 0) ∧
    exec .bbLength s = .next (success s (BitVec.ofNat 32 s.bb.length))

/-- R121, R124 and R126: the appends, with both RangeErrors. -/
def Obligations.BitBufferAppends : Prop :=
  (∀ (nbits : BitVec 6) (value a1 : Word), decode ⟨0x11000000 ||| zext32 nbits, value, a1⟩ = .ok (.bbAppend nbits value)) ∧
  (∀ (byte : Byte) (a0 a1 : Word), decode ⟨0x12000000 ||| zext32 byte, a0, a1⟩ = .ok (.bbAppendByte byte)) ∧
  ∀ s : State, s.err = .ok →
    (∀ (nbits : BitVec 6) (value : Word), nbits.toNat ≤ 32 → s.bb.length + nbits.toNat ≤ 8192 →
      exec (.bbAppend nbits value) s = .next (success { s with bb := s.bb ++ bitsOf nbits.toNat value.toNat } 0)) ∧
    (∀ (nbits : BitVec 6) (value : Word), 32 < nbits.toNat ∨ 8192 < s.bb.length + nbits.toNat →
      exec (.bbAppend nbits value) s = .next (failure s .range)) ∧
    (∀ byte : Byte, s.bb.length + 8 ≤ 8192 →
      exec (.bbAppendByte byte) s = .next (success { s with bb := s.bb ++ bitsOf 8 byte.toNat } 0)) ∧
    (∀ byte : Byte, 8192 < s.bb.length + 8 → exec (.bbAppendByte byte) s = .next (failure s .range))

/-- R128 and R130: the reads, with their RangeErrors. -/
def Obligations.BitBufferReads : Prop :=
  (∀ index a1, decode ⟨0x14000000, index, a1⟩ = .ok (.bbGetbit index)) ∧
  (∀ k a1, decode ⟨0x15000000, k, a1⟩ = .ok (.bbGetbyte k)) ∧
  ∀ s : State, s.err = .ok →
    (∀ (index : Word) (h : index.toNat < s.bb.length),
      exec (.bbGetbit index) s = .next (success s (if s.bb[index.toNat] then 1 else 0))) ∧
    (∀ index : Word, s.bb.length ≤ index.toNat → exec (.bbGetbit index) s = .next (failure s .range)) ∧
    (∀ k : Word, 8 * k.toNat + 8 ≤ s.bb.length → ∃ b : Byte,
      (∀ j, j < 8 → b.getLsbD (7 - j) = s.bb.getD (8 * k.toNat + j) false) ∧
      exec (.bbGetbyte k) s = .next (success s (zext32 b))) ∧
    (∀ k : Word, s.bb.length < 8 * k.toNat + 8 → exec (.bbGetbyte k) s = .next (failure s .range))

/-- R78: appending a byte at a byte boundary and reading it back gives the same byte. -/
def Obligations.AppendedByteReadsBack : Prop :=
  ∀ (s : State) (byte : Byte) (k : Word),
    s.err = .ok → s.bb.length % 8 = 0 → s.bb.length + 8 ≤ 8192 → k.toNat = s.bb.length / 8 →
    ∃ t, exec (.bbAppendByte byte) s = .next t ∧ exec (.bbGetbyte k) t = .next (success t (zext32 byte))

/-- R131: no command but BB_CLEAR and those that hold DE_ENCODE's implicit clear removes or changes a bit of the buffer. -/
def Obligations.BitBufferOnlyGrows : Prop :=
  ∀ (i : Instr) (s t : State), exec i s = .next t → i ≠ .bbClear → i ≠ .deEncode → i ≠ .encode →
    ∃ more, t.bb = s.bb ++ more

/-! ## The data formatter -/

/-- R144 and R146. -/
def Obligations.LengthAndVersionSet : Prop :=
  (∀ (len : BitVec 10) (a0 a1 : Word), decode ⟨0x20000000 ||| zext32 len, a0, a1⟩ = .ok (.lenSet len)) ∧
  (∀ (ver : BitVec 4) (a0 a1 : Word), decode ⟨0x21000000 ||| zext32 ver, a0, a1⟩ = .ok (.verSet ver)) ∧
  ∀ s : State, s.err = .ok →
    (∀ len, exec (.lenSet len) s = .next (success { s with txtLen := len } 0)) ∧
    (∀ ver, exec (.verSet ver) s = .next (success { s with version := ver, mstage := .empty } 0))

/-- R147 and R148. -/
def Obligations.DeSelectTakesTheLeastVersion : Prop :=
  (∀ a0 a1, decode ⟨0x22000000, a0, a1⟩ = .ok .deSelect) ∧
  ∀ s : State, s.err = .ok →
    (s.txtLen.toNat ≤ 520 → ∃ v, leastVersion s.txtLen.toNat v ∧
      exec .deSelect s = .next (success { s with version := BitVec.ofNat 4 v, mstage := .empty } (BitVec.ofNat 32 v))) ∧
    (520 < s.txtLen.toNat → exec .deSelect s = .next (failure s .capacity))

/-- R142, R143, R145, R227, R232: the tables the machine uses are the spec's, and they agree with one another. -/
def Obligations.VersionTablesAgree : Prop :=
  ∀ v, 1 ≤ v → v ≤ 15 →
    Rom.cap v = entry capTable v ∧ Rom.dataCount v = entry dataTable v ∧ Rom.totalCount v = entry totalTable v ∧
    Rom.ecCount v = entry ecTable v ∧ Rom.blockCount v = entry blockTable v ∧ Rom.alignPos v = alignTable.getD (v - 1) [] ∧
    Rom.countBits v = countWidth v ∧ Rom.cap v = (8 * Rom.dataCount v - 4 - countWidth v) / 8 ∧
    (8 * Rom.dataCount v - 4 - countWidth v) % 8 = 4 ∧ (v < 15 → Rom.cap v < Rom.cap (v + 1))

/-- R150, R156, R158: DE_ENCODE leaves the stream in the buffer and its bytes in the DATA region, or answers its errors; a text
byte that no command has written is a fault of the model (R71). -/
def Obligations.DeEncodeWritesTheStream : Prop :=
  (∀ a0 a1, decode ⟨0x23000000, a0, a1⟩ = .ok .deEncode) ∧
  ∀ s : State, s.err = .ok →
    (∀ text : List Byte, s.version ≠ 0 → s.txtLen.toNat ≤ entry capTable s.version.toNat → textIs s text →
      (stream s.version.toNat text).length = 8 * entry dataTable s.version.toNat ∧
      ∃ bytes : List Byte, bytes.length = entry dataTable s.version.toNat ∧
        (∀ k j, k < bytes.length → j < 8 →
          (bytes.getD k 0).getLsbD (7 - j) = (stream s.version.toNat text).getD (8 * k + j) false) ∧
        exec .deEncode s = .next (success
          { s with bb := stream s.version.toNat text, wram := s.wram.store 0x000 bytes } (BitVec.ofNat 32 bytes.length)) ∧
        storedAt s.wram (s.wram.store 0x000 bytes) 0x000 bytes) ∧
    (s.version ≠ 0 → s.txtLen.toNat ≤ entry capTable s.version.toNat →
      faultsOnUnwritten .deEncode s 0xC00 s.txtLen.toNat) ∧
    (s.version = 0 → exec .deEncode s = .next (failure s .sequence)) ∧
    (s.version ≠ 0 → entry capTable s.version.toNat < s.txtLen.toNat → exec .deEncode s = .next (failure s .capacity))

/-- R72: every byte of WRAM outside the bytes a command stores to reads as before; a command that stores nothing leaves all. -/
def Obligations.OtherWramBytesAreUnchanged : Prop :=
  ∀ (i : Instr) (s t : State) (a : Nat), exec i s = .next t → ¬ storesTo i s t.version.toNat a →
    t.wram.lookup a = s.wram.lookup a

/-! ## GF(256) -/

/-- R171 and R172: the recurrence of EXP, its values all distinct and not 0, and LOG its inverse. -/
def Obligations.GaloisTablesAreInverse : Prop :=
  Rom.exp 0 = 1 ∧ (∀ i, i ≤ 253 → Rom.exp (i + 1) = timesAlpha (Rom.exp i)) ∧ Rom.exp 255 = 1 ∧
  (∀ i, i < 255 → Rom.exp i ≠ 0 ∧ Rom.log (Rom.exp i) = i) ∧
  (∀ a : Byte, a ≠ 0 → Rom.log a < 255 ∧ Rom.exp (Rom.log a) = a)

/-- R175 to R179: the four GF commands. -/
def Obligations.GaloisCommands : Prop :=
  (∀ (i : Byte) (a0 a1 : Word), decode ⟨0x30000000 ||| zext32 i, a0, a1⟩ = .ok (.gfExp i)) ∧
  (∀ (a : Byte) (a0 a1 : Word), decode ⟨0x31000000 ||| zext32 a, a0, a1⟩ = .ok (.gfLog a)) ∧
  (∀ (a b : Byte) (a0 a1 : Word), decode ⟨0x32000000 ||| zext32 a <<< 8 ||| zext32 b, a0, a1⟩ = .ok (.gfMul a b)) ∧
  (∀ (a b : Byte) (a0 a1 : Word), decode ⟨0x33000000 ||| zext32 a <<< 8 ||| zext32 b, a0, a1⟩ = .ok (.gfDiv a b)) ∧
  ∀ s : State, s.err = .ok →
    (∀ i : Byte, exec (.gfExp i) s = .next (success s (zext32 (Rom.exp (i.toNat % 255))))) ∧
    (∀ a : Byte, a ≠ 0 → exec (.gfLog a) s = .next (success s (BitVec.ofNat 32 (Rom.log a)))) ∧
    exec (.gfLog 0) s = .next (failure s .domain) ∧
    (∀ a b : Byte, exec (.gfMul a b) s = .next (success s
      (if a = 0 ∨ b = 0 then 0 else zext32 (Rom.exp ((Rom.log a + Rom.log b) % 255))))) ∧
    (∀ a b : Byte, b ≠ 0 → exec (.gfDiv a b) s = .next (success s
      (if a = 0 then 0 else zext32 (Rom.exp ((Rom.log a + 255 - Rom.log b) % 255))))) ∧
    (∀ a : Byte, exec (.gfDiv a 0) s = .next (failure s .domain))

/-- R180: the field laws, and that division undoes multiplication (R179). -/
def Obligations.GaloisFieldLaws : Prop :=
  ∀ a b c : Byte,
    gfmul a b = gfmul b a ∧ gfmul a (gfmul b c) = gfmul (gfmul a b) c ∧
    gfmul a (b ^^^ c) = gfmul a b ^^^ gfmul a c ∧ gfmul a 1 = a ∧ gfmul a 0 = 0 ∧ gfmul 2 a = timesAlpha a ∧
    (a ≠ 0 → gfmul a (gfdiv 1 a) = 1) ∧ (b ≠ 0 → gfmul (gfdiv a b) b = a)

/-! ## Reed-Solomon -/

/-- R193. -/
def Obligations.RsGenWritesTheGenerator : Prop :=
  (∀ (n : Byte) (dst a1 : Word), decode ⟨0x40000000 ||| zext32 n, dst, a1⟩ = .ok (.rsGen n dst)) ∧
  ∀ (s : State) (n : Byte) (dst : Word), s.err = .ok →
    (1 ≤ n.toNat → n.toNat ≤ 30 → dst.toNat + n.toNat + 1 ≤ 4096 →
      (rsGenPoly n.toNat).length = n.toNat + 1 ∧
      exec (.rsGen n dst) s = .next (success
        { s with wram := s.wram.store dst.toNat (rsGenPoly n.toNat) } (BitVec.ofNat 32 (n.toNat + 1))) ∧
      storedAt s.wram (s.wram.store dst.toNat (rsGenPoly n.toNat)) dst.toNat (rsGenPoly n.toNat)) ∧
    (n.toNat < 1 ∨ 30 < n.toNat ∨ 4096 < dst.toNat + n.toNat + 1 → exec (.rsGen n dst) s = .next (failure s .range))

/-- R195, R83: overlapping ranges are allowed; an input byte that no command has written is a fault of the model (R71). -/
def Obligations.RsEncodeWritesTheRemainder : Prop :=
  (∀ (n : Byte) (src len : BitVec 16) (dst : Word),
    decode ⟨0x41000000 ||| zext32 n, zext32 len <<< 16 ||| zext32 src, dst⟩ = .ok (.rsEncode n src len dst)) ∧
  ∀ (s : State) (n : Byte) (src len : BitVec 16) (dst : Word), s.err = .ok →
    (∀ d : List Byte, 1 ≤ n.toNat → n.toNat ≤ 30 → 1 ≤ len.toNat → src.toNat + len.toNat ≤ 4096 →
      dst.toNat + n.toNat ≤ 4096 → d.length = len.toNat → written s src.toNat d →
      (rsRemainder d n.toNat).length = n.toNat ∧
      exec (.rsEncode n src len dst) s = .next (success
        { s with wram := s.wram.store dst.toNat (rsRemainder d n.toNat) } (BitVec.ofNat 32 n.toNat)) ∧
      storedAt s.wram (s.wram.store dst.toNat (rsRemainder d n.toNat)) dst.toNat (rsRemainder d n.toNat)) ∧
    (1 ≤ n.toNat → n.toNat ≤ 30 → 1 ≤ len.toNat → src.toNat + len.toNat ≤ 4096 → dst.toNat + n.toNat ≤ 4096 →
      faultsOnUnwritten (.rsEncode n src len dst) s src.toNat len.toNat) ∧
    (n.toNat < 1 ∨ 30 < n.toNat ∨ len.toNat < 1 ∨ 4096 < src.toNat + len.toNat ∨ 4096 < dst.toNat + n.toNat →
      exec (.rsEncode n src len dst) s = .next (failure s .range))

/-- R191: the generator polynomials of the EC counts the version tables use, as values and as exponents. -/
def Obligations.GeneratorPolynomialTable : Prop :=
  rsGenPoly 7 = [0x01, 0x7F, 0x7A, 0x9A, 0xA4, 0x0B, 0x44, 0x75] ∧
  rsGenPoly 10 = [0x01, 0xD8, 0xC2, 0x9F, 0x6F, 0xC7, 0x5E, 0x5F, 0x71, 0x9D, 0xC1] ∧
  rsGenPoly 15 = [0x01, 0x1D, 0xC4, 0x6F, 0xA3, 0x70, 0x4A, 0x0A, 0x69, 0x69, 0x8B, 0x84, 0x97, 0x20, 0x86, 0x1A] ∧
  rsGenPoly 18 = [0x01, 0xEF, 0xFB, 0xB7, 0x71, 0x95, 0xAF, 0xC7, 0xD7, 0xF0, 0xDC, 0x49, 0x52, 0xAD, 0x4B, 0x20, 0x43, 0xD9,
    0x92] ∧
  rsGenPoly 20 = [0x01, 0x98, 0xB9, 0xF0, 0x05, 0x6F, 0x63, 0x06, 0xDC, 0x70, 0x96, 0x45, 0x24, 0xBB, 0x16, 0xE4, 0xC6, 0x79,
    0x79, 0xA5, 0xAE] ∧
  rsGenPoly 22 = [0x01, 0x59, 0xB3, 0x83, 0xB0, 0xB6, 0xF4, 0x13, 0xBD, 0x45, 0x28, 0x1C, 0x89, 0x1D, 0x7B, 0x43, 0xFD, 0x56,
    0xDA, 0xE6, 0x1A, 0x91, 0xF5] ∧
  rsGenPoly 24 = [0x01, 0x7A, 0x76, 0xA9, 0x46, 0xB2, 0xED, 0xD8, 0x66, 0x73, 0x96, 0xE5, 0x49, 0x82, 0x48, 0x3D, 0x2B, 0xCE,
    0x01, 0xED, 0xF7, 0x7F, 0xD9, 0x90, 0x75] ∧
  rsGenPoly 26 = [0x01, 0xF6, 0x33, 0xB7, 0x04, 0x88, 0x62, 0xC7, 0x98, 0x4D, 0x38, 0xCE, 0x18, 0x91, 0x28, 0xD1, 0x75, 0xE9,
    0x2A, 0x87, 0x44, 0x46, 0x90, 0x92, 0x4D, 0x2B, 0x5E] ∧
  rsGenPoly 30 = [0x01, 0xD4, 0xF6, 0x4D, 0x49, 0xC3, 0xC0, 0x4B, 0x62, 0x05, 0x46, 0x67, 0xB1, 0x16, 0xD9, 0x8A, 0x33, 0xB5,
    0xF6, 0x48, 0x19, 0x12, 0x2E, 0xE4, 0x4A, 0xD8, 0xC3, 0x0B, 0x6A, 0x82, 0x96] ∧
  (rsGenPoly 7).map Rom.log = [0, 87, 229, 146, 149, 238, 102, 21] ∧
  (rsGenPoly 10).map Rom.log = [0, 251, 67, 46, 61, 118, 70, 64, 94, 32, 45] ∧
  (rsGenPoly 15).map Rom.log = [0, 8, 183, 61, 91, 202, 37, 51, 58, 58, 237, 140, 124, 5, 99, 105] ∧
  (rsGenPoly 18).map Rom.log = [0, 215, 234, 158, 94, 184, 97, 118, 170, 79, 187, 152, 148, 252, 179, 5, 98, 96, 153] ∧
  (rsGenPoly 20).map Rom.log = [0, 17, 60, 79, 50, 61, 163, 26, 187, 202, 180, 221, 225, 83, 239, 156, 164, 212, 212,
    188, 190] ∧
  (rsGenPoly 22).map Rom.log = [0, 210, 171, 247, 242, 93, 230, 14, 109, 221, 53, 200, 74, 8, 172, 98, 80, 219, 134,
    160, 105, 165, 231] ∧
  (rsGenPoly 24).map Rom.log = [0, 229, 121, 135, 48, 211, 117, 251, 126, 159, 180, 169, 152, 192, 226, 228, 218,
    111, 0, 117, 232, 87, 96, 227, 21] ∧
  (rsGenPoly 26).map Rom.log = [0, 173, 125, 158, 2, 103, 182, 118, 17, 145, 201, 111, 28, 165, 53, 161, 21, 245,
    142, 13, 102, 48, 227, 153, 145, 218, 70] ∧
  (rsGenPoly 30).map Rom.log = [0, 41, 173, 145, 152, 216, 31, 179, 182, 50, 48, 110, 86, 239, 96, 222, 125, 42, 173,
    226, 193, 224, 130, 156, 37, 251, 216, 238, 40, 192, 180]

/-- R190: `gen(n)` is monic of degree `n` and vanishes at `EXP[0 .. n-1]`. -/
def Obligations.GeneratorVanishesAtItsRoots : Prop :=
  ∀ n i, n ≤ 30 → i < n →
    (rsGenPoly n).length = n + 1 ∧ (rsGenPoly n).head? = some 1 ∧ horner (rsGenPoly n) (Rom.exp i) = 0

/-- R194: a data block with its EC codewords vanishes at `EXP[0 .. n-1]`. -/
def Obligations.CodewordVanishesAtTheRoots : Prop :=
  ∀ (d : List Byte) (n i : Nat), n ≤ 30 → i < n → horner (d ++ rsRemainder d n) (Rom.exp i) = 0

/-- R204, R206: CW_BUILD writes the EC region and the sequence, or answers SequenceError; a DATA byte that no command has
written is a fault of the model (R71). -/
def Obligations.CwBuildWritesEcAndSequence : Prop :=
  (∀ a0 a1, decode ⟨0x42000000, a0, a1⟩ = .ok .cwBuild) ∧
  ∀ s : State, s.err = .ok →
    (∀ data : List Byte, s.version ≠ 0 → data.length = entry dataTable s.version.toNat → written s 0x000 data →
      (codewordSequence s.ver data).length = entry totalTable s.version.toNat ∧
      (∀ b j, b < Rom.blockCount s.ver → j < Rom.ecCount s.ver →
        (ecBlocks s.ver data).flatten[b * Rom.ecCount s.ver + j]? =
          ((dataBlocks s.ver data)[b]?).bind fun block => (rsRemainder block (Rom.ecCount s.ver))[j]?) ∧
      exec .cwBuild s = .next (success
        { s with wram :=
          (s.wram.store 0x400 (ecBlocks s.ver data).flatten).store 0x800 (codewordSequence s.ver data) }
        (BitVec.ofNat 32 (entry totalTable s.version.toNat))) ∧
      (let m := (s.wram.store 0x400 (ecBlocks s.ver data).flatten).store 0x800 (codewordSequence s.ver data)
      bytesAt m 0x400 (ecBlocks s.ver data).flatten ∧ bytesAt m 0x800 (codewordSequence s.ver data) ∧
      ∀ a, a < 0x400 ∨ (0x400 + Rom.blockCount s.ver * Rom.ecCount s.ver ≤ a ∧ a < 0x800) ∨
        0x800 + Rom.totalCount s.ver ≤ a → m.lookup a = s.wram.lookup a)) ∧
    (s.version ≠ 0 → faultsOnUnwritten .cwBuild s 0x000 (entry dataTable s.version.toNat)) ∧
    (s.version = 0 → exec .cwBuild s = .next (failure s .sequence))

/-- R200, R205, R207: the blocks are the data cut in order, and where each data and EC codeword stands in the sequence. `k` is
the length of the first group's blocks, `short` how many there are. -/
def Obligations.BlocksAreInterleavedRoundRobin : Prop :=
  ∀ (v : Nat) (data : List Byte), 1 ≤ v → v ≤ 15 → data.length = Rom.dataCount v →
    let blocks := dataBlocks v data
    let ec := ecBlocks v data
    let seq := codewordSequence v data
    let nb := Rom.blockCount v
    let k := (Rom.blockLengths v).headD 0
    let short := (Rom.blockLengths v).count k
    blocks.flatten = data ∧ blocks.length = nb ∧ seq.length = Rom.totalCount v ∧
    (∀ b, b < nb → (blocks.map List.length)[b]? = some (if b < short then k else k + 1)) ∧
    (∀ b i, b < nb → i < k → seq[nb * i + b]? = (blocks[b]?).bind fun x => x[i]?) ∧
    (∀ b, short ≤ b → b < nb → seq[nb * k + (b - short)]? = (blocks[b]?).bind fun x => x[k]?) ∧
    (∀ b j, b < nb → j < Rom.ecCount v → seq[Rom.dataCount v + nb * j + b]? = (ec[b]?).bind fun x => x[j]?)

/-! ## The matrix builder -/

/-- R222. -/
def Obligations.MbFuncDrawsTheSymbol : Prop :=
  (∀ a0 a1, decode ⟨0x50000000, a0, a1⟩ = .ok .mbFunc) ∧
  ∀ s : State, s.err = .ok →
    (s.version ≠ 0 → exec .mbFunc s = .next (success
      { s with mat := functionPatterns s.version.toNat s.mat, mstage := .func }
      (BitVec.ofNat 32 (4 * s.version.toNat + 17)))) ∧
    (s.version = 0 → exec .mbFunc s = .next (failure s .sequence))

/-- R223, R224, R225, R228: finders, separators, the visible timing patterns and the dark module. -/
def Obligations.FindersTimingAndDarkModule : Prop :=
  ∀ (v : Nat) (g : Grid), 1 ≤ v → v ≤ 15 → g.shaped →
    let n := 4 * v + 17
    let f := functionPatterns v g
    (∀ dr dc, dr ≤ 6 → dc ≤ 6 →
      f.cell dr dc = drawn finderPicture dr dc ∧ f.cell dr (n - 7 + dc) = drawn finderPicture dr dc ∧
      f.cell (n - 7 + dr) dc = drawn finderPicture dr dc) ∧
    (∀ i, i ≤ 7 →
      f.cell 7 i = ⟨.light, true⟩ ∧ f.cell i 7 = ⟨.light, true⟩ ∧ f.cell 7 (n - 8 + i) = ⟨.light, true⟩ ∧
      f.cell i (n - 8) = ⟨.light, true⟩ ∧ f.cell (n - 8) i = ⟨.light, true⟩ ∧ f.cell (n - 8 + i) 7 = ⟨.light, true⟩) ∧
    (∀ i, 8 ≤ i → i + 9 ≤ n →
      f.cell 6 i = ⟨bitColour (i % 2 == 0), true⟩ ∧ f.cell i 6 = ⟨bitColour (i % 2 == 0), true⟩) ∧
    f.cell (n - 8) 8 = ⟨.dark, true⟩

/-- R226, R227: every ordered pair of coordinates but the three at the finders has its alignment pattern. -/
def Obligations.AlignmentPatternsAreDrawn : Prop :=
  ∀ (v : Nat) (g : Grid) (a b : Nat), 1 ≤ v → v ≤ 15 → g.shaped →
    let p := Rom.alignPos v
    let k := p.length
    a < k → b < k → ¬ (a = 0 ∧ b = 0) → ¬ (a = 0 ∧ b = k - 1) → ¬ (a = k - 1 ∧ b = 0) →
    ∀ dr dc, dr ≤ 4 → dc ≤ 4 →
      (functionPatterns v g).cell (p.getD a 0 - 2 + dr) (p.getD b 0 - 2 + dc) = drawn alignPicture dr dc

/-- R222, R236, R237, R239: the reserved set, the areas left UNSET, and every other cell blank. -/
def Obligations.ReservedSetIsDrawn : Prop :=
  ∀ (v : Nat) (g : Grid) (r c : Nat), 1 ≤ v → v ≤ 15 → g.shaped → r < 4 * v + 17 → c < 4 * v + 17 →
    (reservedSet v r c = true ↔ reservedBy v r c) ∧ (lateCells v r c = true ↔ wordCell v r c) ∧
    ((functionPatterns v g).cell r c).res = reservedSet v r c ∧
    (wordCell v r c → (functionPatterns v g).cell r c = ⟨.unset, true⟩) ∧
    (¬ reservedBy v r c → (functionPatterns v g).cell r c = ⟨.unset, false⟩) ∧
    (reservedBy v r c → ¬ wordCell v r c → ((functionPatterns v g).cell r c).val ≠ .unset)

/-- R233: the non-reserved cells are the codeword bits and the remainder bits. -/
def Obligations.FreeCellsHoldTheCodewords : Prop :=
  ∀ v, 1 ≤ v → v ≤ 15 →
    ((zigzag (4 * v + 17)).filter fun p => reservedSet v p.1 p.2 = false).length =
      8 * entry totalTable v + entry remainderTable v

/-- R242: the cells of each column pair `t` in order, the even pairs upward; every cell outside column 6 comes exactly once. -/
def Obligations.ZigzagVisitsEachCellOnce : Prop :=
  ∀ v, 1 ≤ v → v ≤ 15 →
    let n := 4 * v + 17
    (zigzag n).Nodup ∧ (∀ r c, (r, c) ∈ zigzag n ↔ r < n ∧ c < n ∧ c ≠ 6) ∧
    (∀ t j, t < 2 * v + 8 → j < n →
      let right := if t < 2 * v + 5 then n - 1 - 2 * t else n - 2 - 2 * t
      let row := if t % 2 = 0 then n - 1 - j else j
      (zigzag n)[2 * (n * t + j)]? = some (row, right) ∧ (zigzag n)[2 * (n * t + j) + 1]? = some (row, right - 1))

/-- R240, R244, R246: the bits go in ZigZag order into the non-reserved cells, most significant first, and the rest are LIGHT;
a SEQ byte that no command has written is a fault of the model (R71). -/
def Obligations.MbPlacePlacesTheBits : Prop :=
  (∀ a0 a1, decode ⟨0x51000000, a0, a1⟩ = .ok .mbPlace) ∧
  ∀ s : State, s.err = .ok →
    (∀ seq : List Byte, s.mstage = .func → s.mat.shaped → seq.length = Rom.totalCount s.ver → written s 0x800 seq →
      let free := (zigzag s.side).filter fun p => (s.mat.cell p.1 p.2).res = false
      ∃ g : Grid,
        exec .mbPlace s = .next (success { s with mat := g, mstage := .placed }
          (BitVec.ofNat 32 (min free.length (8 * seq.length)))) ∧
        (∀ j r c, free[j]? = some (r, c) →
          g.cell r c = ⟨bitColour (decide (j < 8 * seq.length) && (seq.getD (j / 8) 0).getLsbD (7 - j % 8)), false⟩) ∧
        (∀ r c, (r, c) ∉ free → g.cell r c = s.mat.cell r c)) ∧
    (s.mstage = .func → faultsOnUnwritten .mbPlace s 0x800 (Rom.totalCount s.ver)) ∧
    (s.mstage ≠ .func → exec .mbPlace s = .next (failure s .sequence))

/-- R250 and R260: the two cell queries, SequenceError before RangeError. -/
def Obligations.CellQueries : Prop :=
  (∀ (row col : Byte) (a0 a1 : Word),
    decode ⟨0x52000000 ||| zext32 row <<< 8 ||| zext32 col, a0, a1⟩ = .ok (.mbCell row col)) ∧
  (∀ (row col : Byte) (a0 a1 : Word),
    decode ⟨0x54000000 ||| zext32 row <<< 8 ||| zext32 col, a0, a1⟩ = .ok (.mbIsdark row col)) ∧
  ∀ (s : State) (row col : Byte), s.err = .ok →
    let n := 4 * s.version.toNat + 17
    let x := s.mat.cell row.toNat col.toNat
    (s.mstage ≠ .empty → row.toNat < n → col.toNat < n → exec (.mbCell row col) s = .next (success s
      (BitVec.ofNat 32 ((if x.res then 4 else 0) + (if x.val = .dark then 2 else if x.val = .light then 1 else 0))))) ∧
    (s.mstage = .empty → exec (.mbCell row col) s = .next (failure s .sequence)) ∧
    (s.mstage ≠ .empty → n ≤ row.toNat ∨ n ≤ col.toNat → exec (.mbCell row col) s = .next (failure s .range)) ∧
    (s.mstage = .final → row.toNat < n → col.toNat < n →
      exec (.mbIsdark row col) s = .next (success s (if x.val = .dark then 1 else 0))) ∧
    (s.mstage ≠ .final → exec (.mbIsdark row col) s = .next (failure s .sequence)) ∧
    (s.mstage = .final → n ≤ row.toNat ∨ n ≤ col.toNat → exec (.mbIsdark row col) s = .next (failure s .range))

/-- R252. -/
def Obligations.MbFinalFixesTheMask : Prop :=
  (∀ a0 a1, decode ⟨0x53000000, a0, a1⟩ = .ok .mbFinal) ∧
  ∀ s : State, s.err = .ok →
    (s.mstage = .selected → exec .mbFinal s = .next (success
      { s with mat := finalize s.version.toNat s.mask s.mat, mstage := .final } (zext32 s.mask))) ∧
    (s.mstage ≠ .selected → exec .mbFinal s = .next (failure s .sequence))

/-- R253, R256, R258: the format bits, the version bits, and every other cell masked where it is not reserved. -/
def Obligations.FinalizeSetsEveryCell : Prop :=
  ∀ (v : Nat) (m : BitVec 3) (g : Grid), 1 ≤ v → v ≤ 15 → g.shaped →
    let n := 4 * v + 17
    let f := finalize v m g
    (∀ i, i < 15 →
      (f.cell (formatCell1 i).1 (formatCell1 i).2).val = bitColour ((Rom.fmt m).getLsbD i) ∧
      (f.cell (formatCell2 n i).1 (formatCell2 n i).2).val = bitColour ((Rom.fmt m).getLsbD i)) ∧
    (7 ≤ v → ∀ i, i < 18 →
      (f.cell (i / 3) (n - 11 + i % 3)).val = bitColour ((Rom.vinfo v).getLsbD i) ∧
      (f.cell (n - 11 + i % 3) (i / 3)).val = bitColour ((Rom.vinfo v).getLsbD i)) ∧
    (∀ r c, r < n → c < n →
      (f.cell r c).res = (g.cell r c).res ∧
      (¬ wordCell v r c →
        (f.cell r c).val =
          if (g.cell r c).res = false ∧ maskBit m r c = true then
            (if (g.cell r c).val = .dark then .light else .dark)
          else (g.cell r c).val))

/-- R254, R255, R257: the format and version words are the BCH words. -/
def Obligations.FormatAndVersionWordsAreBch : Prop :=
  (∀ m : BitVec 3, (Rom.fmt m).toNat =
    ((8 + m.toNat) <<< 10 ||| (bchRemainder 0x537 10 5 ((8 + m.toNat) <<< 10)) % 1024) ^^^ 0x5412) ∧
  [Rom.fmt 0, Rom.fmt 1, Rom.fmt 2, Rom.fmt 3, Rom.fmt 4, Rom.fmt 5, Rom.fmt 6, Rom.fmt 7] =
    [0x77C4, 0x72F3, 0x7DAA, 0x789D, 0x662F, 0x6318, 0x6C41, 0x6976] ∧
  (∀ v, 7 ≤ v → v ≤ 15 → (Rom.vinfo v).toNat = (v <<< 12) ||| (bchRemainder 0x1F25 12 6 (v <<< 12)) % 4096) ∧
  [Rom.vinfo 7, Rom.vinfo 8, Rom.vinfo 9, Rom.vinfo 10, Rom.vinfo 11, Rom.vinfo 12, Rom.vinfo 13, Rom.vinfo 14, Rom.vinfo 15] =
    [0x07C94, 0x085BC, 0x09A99, 0x0A4D3, 0x0BBF6, 0x0C762, 0x0D847, 0x0E60D, 0x0F928]

/-! ## The mask evaluator -/

/-- R278, R276: the four penalties of the finalised candidate; the matrix, MASK and MSTAGE stay. -/
def Obligations.MbPenaltyScoresOneMask : Prop :=
  (∀ (m : BitVec 3) (a0 a1 : Word), decode ⟨0x60000000 ||| zext32 m, a0, a1⟩ = .ok (.mbPenalty m)) ∧
  ∀ (s : State) (m : BitVec 3), s.err = .ok →
    (s.mstage = .placed ∨ s.mstage = .selected →
      let rows := rowLines s.side (finalize s.ver m s.mat)
      ∃ pen : Vector Word 8,
        (∀ j : BitVec 3, pen[j.toNat]'j.isLt = if j = m then BitVec.ofNat 32 (totalPenalty s m) else s.penOf j) ∧
        exec (.mbPenalty m) s = .next (success
          { s with
            pn1 := BitVec.ofNat 32 (penaltyN1 s.side rows), pn2 := BitVec.ofNat 32 (penaltyN2 rows),
            pn3 := BitVec.ofNat 32 (penaltyN3 s.side rows), pn4 := BitVec.ofNat 32 (penaltyN4 s.side rows), pen := pen }
          (BitVec.ofNat 32 (totalPenalty s m)))) ∧
    (s.mstage ≠ .placed → s.mstage ≠ .selected → exec (.mbPenalty m) s = .next (failure s .sequence))

/-- R271: the eight mask formulas. -/
def Obligations.MaskFormulas : Prop :=
  ∀ i j : Nat,
    (maskBit 0 i j = true ↔ (i + j) % 2 = 0) ∧ (maskBit 1 i j = true ↔ i % 2 = 0) ∧ (maskBit 2 i j = true ↔ j % 3 = 0) ∧
    (maskBit 3 i j = true ↔ (i + j) % 3 = 0) ∧ (maskBit 4 i j = true ↔ (i / 2 + j / 3) % 2 = 0) ∧
    (maskBit 5 i j = true ↔ (i * j) % 2 + (i * j) % 3 = 0) ∧
    (maskBit 6 i j = true ↔ ((i * j) % 2 + (i * j) % 3) % 2 = 0) ∧
    (maskBit 7 i j = true ↔ ((i + j) % 2 + (i * j) % 3) % 2 = 0)

/-- R270: the colour array of a symbol of side `n` holds each cell's colour. -/
def Obligations.ColourArrayReadsTheCells : Prop :=
  ∀ (n : Nat) (g : Grid), n ≤ 77 → g.shaped →
    squareOf n (rowLines n g) ∧
    ∀ r c, r < n → c < n → (colourAt (rowLines n g) r c = true ↔ (g.cell r c).val = .dark)

/-- R273, R274, R275: the block, finder-like and balance penalties by cell index. -/
def Obligations.PenaltiesAreTheFormulas : Prop :=
  ∀ (n : Nat) (rows : List (List Bool)), 11 ≤ n → squareOf n rows →
    penaltyN2 rows = 3 * ((List.range (n - 1)).map fun r => (List.range (n - 1)).countP fun c =>
      decide (colourAt rows r c = colourAt rows r (c + 1) ∧ colourAt rows r c = colourAt rows (r + 1) c ∧
        colourAt rows r c = colourAt rows (r + 1) (c + 1))).sum ∧
    penaltyN3 n rows = 40 * ((List.range n).map fun l => ((List.range (n - 10)).map fun k =>
      (if elevenCells (fun j => colourAt rows l (k + j)) = finderLikeA then 1 else 0) +
      (if elevenCells (fun j => colourAt rows l (k + j)) = finderLikeB then 1 else 0) +
      (if elevenCells (fun j => colourAt rows (k + j) l) = finderLikeA then 1 else 0) +
      (if elevenCells (fun j => colourAt rows (k + j) l) = finderLikeB then 1 else 0)).sum).sum ∧
    penaltyN4 n rows =
      10 * ((20 * (rows.map fun row => row.count true).sum - 10 * (n * n) : Int).natAbs / (n * n))

/-- R272: the runs of a line are its maximal runs of equal colour, and N1 adds 3 plus 1 per cell beyond 5 for each. -/
def Obligations.RunsAreMaximal : Prop :=
  (∀ line : List Bool, ∃ runs : List (Bool × Nat),
    line = runs.flatMap (fun p => List.replicate p.2 p.1) ∧ (∀ p ∈ runs, 1 ≤ p.2) ∧
    List.IsChain (fun p q => p.1 ≠ q.1) runs ∧ runLengths line = runs.map Prod.snd) ∧
  (∀ k, runPenalty k = if 5 ≤ k then 3 + (k - 5) else 0) ∧
  (∀ (n : Nat) (rows : List (List Bool)), squareOf n rows →
    penaltyN1 n rows =
      (rows.map fun line => ((runLengths line).map runPenalty).sum).sum +
      ((List.range n).map fun c => ((runLengths ((List.range n).map fun r => colourAt rows r c)).map runPenalty).sum).sum)

/-- R277: the bounds of the four penalties, and that their total fits in 32 bits. -/
def Obligations.PenaltiesFitInAWord : Prop :=
  ∀ (n : Nat) (rows : List (List Bool)), 1 ≤ n → n ≤ 77 → squareOf n rows →
    penaltyN1 n rows ≤ 2 * n * (n - 2) ∧ penaltyN2 rows ≤ 3 * (n - 1) ^ 2 ∧ penaltyN3 n rows ≤ 40 * (2 * n * (n - 10)) ∧
    penaltyN4 n rows ≤ 100 ∧
    penaltyN1 n rows + penaltyN2 rows + penaltyN3 n rows + penaltyN4 n rows < 2 ^ 32

/-- R284: all eight totals, the least mask of least total, mask 7's components, and nothing else. -/
def Obligations.MbSelectTakesTheLeastPenalty : Prop :=
  (∀ a0 a1, decode ⟨0x61000000, a0, a1⟩ = .ok .mbSelect) ∧
  ∀ s : State, s.err = .ok →
    (s.mstage = .placed ∨ s.mstage = .selected →
      let rows := rowLines s.side (finalize s.ver 7 s.mat)
      ∃ (pen : Vector Word 8) (best : BitVec 3),
        (∀ m : BitVec 3, pen[m.toNat]'m.isLt = BitVec.ofNat 32 (totalPenalty s m)) ∧
        (∀ m : BitVec 3, (pen[best.toNat]'best.isLt).toNat ≤ (pen[m.toNat]'m.isLt).toNat) ∧
        (∀ m : BitVec 3, m.toNat < best.toNat → (pen[best.toNat]'best.isLt).toNat < (pen[m.toNat]'m.isLt).toNat) ∧
        exec .mbSelect s = .next (success
          { s with
            pn1 := BitVec.ofNat 32 (penaltyN1 s.side rows), pn2 := BitVec.ofNat 32 (penaltyN2 rows),
            pn3 := BitVec.ofNat 32 (penaltyN3 s.side rows), pn4 := BitVec.ofNat 32 (penaltyN4 s.side rows), pen := pen,
            mask := best, mstage := .selected } (zext32 best))) ∧
    (s.mstage ≠ .placed → s.mstage ≠ .selected → exec .mbSelect s = .next (failure s .sequence))

/-! ## The host interface -/

/-- R302, R304, R71: a write reads back and leaves every other byte; a byte no command has written is a fault of the model. -/
def Obligations.WramWriteAndRead : Prop :=
  (∀ (addr : BitVec 12) (byte : Byte) (a0 a1 : Word),
    decode ⟨0x70000000 ||| zext32 addr <<< 8 ||| zext32 byte, a0, a1⟩ = .ok (.wrWrite addr byte)) ∧
  (∀ (addr : BitVec 12) (a0 a1 : Word), decode ⟨0x71000000 ||| zext32 addr <<< 8, a0, a1⟩ = .ok (.wrRead addr)) ∧
  ∀ (s : State) (addr : BitVec 12), s.err = .ok →
    (∀ byte : Byte, ∃ wram : Memory,
      exec (.wrWrite addr byte) s = .next (success { s with wram := wram } 0) ∧ wram.lookup addr.toNat = some byte ∧
      ∀ a, a ≠ addr.toNat → wram.lookup a = s.wram.lookup a) ∧
    (∀ byte : Byte, s.wram.lookup addr.toNat = some byte → exec (.wrRead addr) s = .next (success s (zext32 byte))) ∧
    (s.wram.lookup addr.toNat = none → exec (.wrRead addr) s = .fault (.unwrittenByte addr.toNat))

/-- R306, R44: every register by its selector, whatever error is pending; a reserved selector is illegal. STATUS holds the
numbers of R35 and R330. -/
def Obligations.RegReadReturnsTheRegister : Prop :=
  (∀ (sel : BitVec 5) (a0 a1 : Word), legalSelector sel = true →
    decode ⟨0x72000000 ||| zext32 sel, a0, a1⟩ = .ok (.regRead sel)) ∧
  (∀ (sel : BitVec 5) (a0 a1 : Word), legalSelector sel = false →
    decode ⟨0x72000000 ||| zext32 sel, a0, a1⟩ = .error .reservedSelector) ∧
  ∀ s : State,
    exec (.regRead 0) s = .next (success s (BitVec.ofNat 32 (16 * stageNumber s.mstage + errNumber s.err))) ∧
    exec (.regRead 1) s = .next (success s (BitVec.ofNat 32 s.version.toNat)) ∧
    exec (.regRead 2) s = .next (success s (BitVec.ofNat 32 s.mask.toNat)) ∧
    exec (.regRead 3) s = .next (success s (BitVec.ofNat 32 s.txtLen.toNat)) ∧
    exec (.regRead 4) s = .next (success s (BitVec.ofNat 32 s.bb.length)) ∧
    exec (.regRead 5) s = .next (success s s.pn1) ∧ exec (.regRead 6) s = .next (success s s.pn2) ∧
    exec (.regRead 7) s = .next (success s s.pn3) ∧ exec (.regRead 8) s = .next (success s s.pn4) ∧
    (∀ m : BitVec 3, exec (.regRead (BitVec.ofNat 5 (16 + m.toNat))) s = .next (success s (s.penOf m)))

/-- R310, R313: ENCODE completes on every text of at most 520 written bytes, and is the seven commands one after the other with a
RESULT of its own; a text byte that no command has written is a fault of the model (R71). -/
def Obligations.EncodeIsTheSevenCommands : Prop :=
  (∀ a0 a1, decode ⟨0x74000000, a0, a1⟩ = .ok .encode) ∧
  (∀ s : State, s.err = .ok → s.txtLen.toNat ≤ 520 → faultsOnUnwritten .encode s 0xC00 s.txtLen.toNat) ∧
  ∀ (s : State) (text : List Byte), s.err = .ok → s.mat.shaped → s.txtLen.toNat ≤ 520 → textIs s text →
    ∃ s1 s2 s3 s4 s5 s6 s7 : State,
      exec .deSelect s = .next s1 ∧ exec .deEncode s1 = .next s2 ∧ exec .cwBuild s2 = .next s3 ∧
      exec .mbFunc s3 = .next s4 ∧ exec .mbPlace s4 = .next s5 ∧ exec .mbSelect s5 = .next s6 ∧
      exec .mbFinal s6 = .next s7 ∧
      exec .encode s = .next (success s7 (encodeWord s7)) ∧
      leastVersion s.txtLen.toNat s7.version.toNat ∧ s7.mstage = .final ∧ s7.err = .ok ∧ s7.txtLen = s.txtLen ∧
      s7.bb = stream s7.version.toNat text

/-- R314: an ENCODE of a text too long fails, and sets MSTAGE to 0. -/
def Obligations.EncodeFailureClearsTheStage : Prop :=
  ∀ s : State, s.err = .ok → 520 < s.txtLen.toNat →
    exec .encode s = .next { failure s .capacity with mstage := .empty }

/-- R286, R262: what ENCODE leaves depends on the text alone, not on what the machine held before: the registers, the buffer,
the codewords of the DATA, EC and SEQ regions, and the cells of the symbol square. -/
def Obligations.EncodeDependsOnTheTextOnly : Prop :=
  ∀ (s s' t t' : State) (text : List Byte),
    s.err = .ok → s'.err = .ok → s.mat.shaped → s'.mat.shaped → textIs s text → textIs s' text → text.length ≤ 520 →
    exec .encode s = .next t → exec .encode s' = .next t' →
    t.result = t'.result ∧ t.version = t'.version ∧ t.mask = t'.mask ∧ t.bb = t'.bb ∧ t.pen = t'.pen ∧
    t.pn1 = t'.pn1 ∧ t.pn2 = t'.pn2 ∧ t.pn3 = t'.pn3 ∧ t.pn4 = t'.pn4 ∧ t.mstage = t'.mstage ∧ t.err = t'.err ∧
    (∀ a, storesTo .encode s t.version.toNat a → t.wram.lookup a = t'.wram.lookup a) ∧
    ∀ r c, r < t.side → c < t.side → t.mat.cell r c = t'.mat.cell r c

/-! ## Invariants -/

/-- Every invariant of R52 holds right after reset. -/
def Obligations.ResetStateIsGood : Prop := State.reset.Good

/-- The memory form, the array's shape and R52 (a), (b), (c) are kept by every step. -/
def Obligations.StepKeepsTheStateRegular : Prop :=
  ∀ s t : State, s.Regular → step s = .next t → t.Regular

/-- R52 (e) is kept by every step. -/
def Obligations.StepKeepsTheReservedSet : Prop :=
  ∀ s t : State, s.Regular → s.ReservedOk → step s = .next t → t.ReservedOk

/-- R52 (f) and (g) are kept by every step. -/
def Obligations.StepKeepsTheColours : Prop :=
  ∀ s t : State, s.Good → step s = .next t → t.ColoursOk

/-! ## The port, clock by clock -/

/-- R300: an accepted command is performed once, its response is up LAT clocks later whatever the host presents meanwhile, stays
until it is taken, and at the edge after that the port is ready. R300 does not say at which clock the state changes: that it
changes at the edge where `rsp_valid` rises, and that `rsp_valid` falls one edge after the response was taken, are the model's
choices (log entry 13). -/
def Obligations.PortAnswersEachCommandOnce : Prop :=
  ∀ (p : PortState) (c : Command) (first : PortIn) (waits holds : List PortIn) (last settle : PortIn) (s : State),
    p.phase = .ready → p.broken = false → (p.offered = none ∨ p.offered = some c) → presents first c →
    waits.length = latency c → (∀ i ∈ waits, i.rstN = true) →
    (∀ i ∈ holds, i.rstN = true ∧ i.rspReady = false) → last.rstN = true → last.rspReady = true → settle.rstN = true →
    runCommand c p.core = .next s →
    1 ≤ latency c ∧
    (∀ k, k < waits.length → ∃ q, portEdges (first :: waits.take k) p = .next q ∧ q.core = p.core ∧
      q.outputs.cmdReady = false ∧ q.outputs.rspValid = false) ∧
    (∃ q, portEdges (first :: waits ++ holds) p = .next q ∧ q.core = s ∧ q.outputs.cmdReady = false ∧
      q.outputs.rspValid = true ∧ q.outputs.rspResult = s.result ∧
      s.rsp.map (fun r => errNumber r.err) = some q.outputs.rspErr.toNat) ∧
    (∃ q, portEdges (first :: waits ++ holds ++ [last]) p = .next q ∧ q.core = s ∧ q.outputs.cmdReady = false) ∧
    (∃ q, portEdges (first :: waits ++ holds ++ [last, settle]) p = .next q ∧ q.core = s ∧ q.outputs.cmdReady = true ∧
      q.outputs.rspValid = false)

/-- R360, R361: whatever the port was doing, in reset it is not ready and presents no response, and after it the state is the
reset state and the port is ready. That the port accepts nothing at the first edge with `rst_n = 1`, and is ready after it
whatever that edge presents, is the model's reading of R360 and R362 (log entry 13); the cells of MAT in the reset state, which
R360 leaves unspecified, are the model's (log entry 7). -/
def Obligations.PortResetAbandonsTheCommand : Prop :=
  ∀ (p : PortState) (low : List PortIn) (high : PortIn), low ≠ [] → (∀ i ∈ low, i.rstN = false) → high.rstN = true →
    (∃ q, portEdges low p = .next q ∧ q.outputs.cmdReady = false ∧ q.outputs.rspValid = false) ∧
    (∃ q, portEdges (low ++ [high]) p = .next q ∧ q.core = { State.reset with inputs := p.core.inputs } ∧
      q.outputs.cmdReady = true ∧ q.outputs.rspValid = false)
end

