-- ==== Sys2Proof/Laws/State.lean ====
section
/-! SUPPORT. What each named update of State does to each field: one lemma a field, so that no proof unfolds an update. -/

namespace Sys2Proof.Machine

section Updates
variable (s : State)

@[simp] theorem State.respond_result (r : Word) (e : ErrCode) : (s.respond r e).result = r := rfl
@[simp] theorem State.respond_err (r : Word) (e : ErrCode) : (s.respond r e).err = s.err := rfl
@[simp] theorem State.respond_mstage (r : Word) (e : ErrCode) : (s.respond r e).mstage = s.mstage := rfl
@[simp] theorem State.respond_version (r : Word) (e : ErrCode) : (s.respond r e).version = s.version := rfl
@[simp] theorem State.respond_mask (r : Word) (e : ErrCode) : (s.respond r e).mask = s.mask := rfl
@[simp] theorem State.respond_txtLen (r : Word) (e : ErrCode) : (s.respond r e).txtLen = s.txtLen := rfl
@[simp] theorem State.respond_pn1 (r : Word) (e : ErrCode) : (s.respond r e).pn1 = s.pn1 := rfl
@[simp] theorem State.respond_pn2 (r : Word) (e : ErrCode) : (s.respond r e).pn2 = s.pn2 := rfl
@[simp] theorem State.respond_pn3 (r : Word) (e : ErrCode) : (s.respond r e).pn3 = s.pn3 := rfl
@[simp] theorem State.respond_pn4 (r : Word) (e : ErrCode) : (s.respond r e).pn4 = s.pn4 := rfl
@[simp] theorem State.respond_pen (r : Word) (e : ErrCode) : (s.respond r e).pen = s.pen := rfl
@[simp] theorem State.respond_bb (r : Word) (e : ErrCode) : (s.respond r e).bb = s.bb := rfl
@[simp] theorem State.respond_wram (r : Word) (e : ErrCode) : (s.respond r e).wram = s.wram := rfl
@[simp] theorem State.respond_mat (r : Word) (e : ErrCode) : (s.respond r e).mat = s.mat := rfl
@[simp] theorem State.respond_rsp (r : Word) (e : ErrCode) : (s.respond r e).rsp = some ⟨r, e⟩ := rfl
@[simp] theorem State.respond_inputs (r : Word) (e : ErrCode) : (s.respond r e).inputs = s.inputs := rfl

@[simp] theorem State.fail_result (e : ErrCode) : (s.fail e).result = 0 := rfl
@[simp] theorem State.fail_err (e : ErrCode) : (s.fail e).err = if s.err = .ok then e else s.err := rfl
@[simp] theorem State.fail_mstage (e : ErrCode) : (s.fail e).mstage = s.mstage := rfl
@[simp] theorem State.fail_version (e : ErrCode) : (s.fail e).version = s.version := rfl
@[simp] theorem State.fail_mask (e : ErrCode) : (s.fail e).mask = s.mask := rfl
@[simp] theorem State.fail_txtLen (e : ErrCode) : (s.fail e).txtLen = s.txtLen := rfl
@[simp] theorem State.fail_pn1 (e : ErrCode) : (s.fail e).pn1 = s.pn1 := rfl
@[simp] theorem State.fail_pn2 (e : ErrCode) : (s.fail e).pn2 = s.pn2 := rfl
@[simp] theorem State.fail_pn3 (e : ErrCode) : (s.fail e).pn3 = s.pn3 := rfl
@[simp] theorem State.fail_pn4 (e : ErrCode) : (s.fail e).pn4 = s.pn4 := rfl
@[simp] theorem State.fail_pen (e : ErrCode) : (s.fail e).pen = s.pen := rfl
@[simp] theorem State.fail_bb (e : ErrCode) : (s.fail e).bb = s.bb := rfl
@[simp] theorem State.fail_wram (e : ErrCode) : (s.fail e).wram = s.wram := rfl
@[simp] theorem State.fail_mat (e : ErrCode) : (s.fail e).mat = s.mat := rfl
@[simp] theorem State.fail_rsp (e : ErrCode) : (s.fail e).rsp = some ⟨0, e⟩ := rfl
@[simp] theorem State.fail_inputs (e : ErrCode) : (s.fail e).inputs = s.inputs := rfl

@[simp] theorem State.failEncode_result (e : ErrCode) : (s.failEncode e).result = 0 := rfl
@[simp] theorem State.failEncode_err (e : ErrCode) : (s.failEncode e).err = if s.err = .ok then e else s.err := rfl
@[simp] theorem State.failEncode_mstage (e : ErrCode) : (s.failEncode e).mstage = .empty := rfl
@[simp] theorem State.failEncode_version (e : ErrCode) : (s.failEncode e).version = s.version := rfl
@[simp] theorem State.failEncode_mask (e : ErrCode) : (s.failEncode e).mask = s.mask := rfl
@[simp] theorem State.failEncode_txtLen (e : ErrCode) : (s.failEncode e).txtLen = s.txtLen := rfl
@[simp] theorem State.failEncode_pn1 (e : ErrCode) : (s.failEncode e).pn1 = s.pn1 := rfl
@[simp] theorem State.failEncode_pn2 (e : ErrCode) : (s.failEncode e).pn2 = s.pn2 := rfl
@[simp] theorem State.failEncode_pn3 (e : ErrCode) : (s.failEncode e).pn3 = s.pn3 := rfl
@[simp] theorem State.failEncode_pn4 (e : ErrCode) : (s.failEncode e).pn4 = s.pn4 := rfl
@[simp] theorem State.failEncode_pen (e : ErrCode) : (s.failEncode e).pen = s.pen := rfl
@[simp] theorem State.failEncode_bb (e : ErrCode) : (s.failEncode e).bb = s.bb := rfl
@[simp] theorem State.failEncode_wram (e : ErrCode) : (s.failEncode e).wram = s.wram := rfl
@[simp] theorem State.failEncode_mat (e : ErrCode) : (s.failEncode e).mat = s.mat := rfl
@[simp] theorem State.failEncode_rsp (e : ErrCode) : (s.failEncode e).rsp = some ⟨0, e⟩ := rfl
@[simp] theorem State.failEncode_inputs (e : ErrCode) : (s.failEncode e).inputs = s.inputs := rfl

@[simp] theorem State.clearErr_result : (s.clearErr).result = s.result := rfl
@[simp] theorem State.clearErr_err : (s.clearErr).err = .ok := rfl
@[simp] theorem State.clearErr_mstage : (s.clearErr).mstage = s.mstage := rfl
@[simp] theorem State.clearErr_version : (s.clearErr).version = s.version := rfl
@[simp] theorem State.clearErr_mask : (s.clearErr).mask = s.mask := rfl
@[simp] theorem State.clearErr_txtLen : (s.clearErr).txtLen = s.txtLen := rfl
@[simp] theorem State.clearErr_pn1 : (s.clearErr).pn1 = s.pn1 := rfl
@[simp] theorem State.clearErr_pn2 : (s.clearErr).pn2 = s.pn2 := rfl
@[simp] theorem State.clearErr_pn3 : (s.clearErr).pn3 = s.pn3 := rfl
@[simp] theorem State.clearErr_pn4 : (s.clearErr).pn4 = s.pn4 := rfl
@[simp] theorem State.clearErr_pen : (s.clearErr).pen = s.pen := rfl
@[simp] theorem State.clearErr_bb : (s.clearErr).bb = s.bb := rfl
@[simp] theorem State.clearErr_wram : (s.clearErr).wram = s.wram := rfl
@[simp] theorem State.clearErr_mat : (s.clearErr).mat = s.mat := rfl
@[simp] theorem State.clearErr_rsp : (s.clearErr).rsp = s.rsp := rfl
@[simp] theorem State.clearErr_inputs : (s.clearErr).inputs = s.inputs := rfl

@[simp] theorem State.refusePending_result : (s.refusePending).result = 0 := rfl
@[simp] theorem State.refusePending_err : (s.refusePending).err = s.err := rfl
@[simp] theorem State.refusePending_mstage : (s.refusePending).mstage = s.mstage := rfl
@[simp] theorem State.refusePending_version : (s.refusePending).version = s.version := rfl
@[simp] theorem State.refusePending_mask : (s.refusePending).mask = s.mask := rfl
@[simp] theorem State.refusePending_txtLen : (s.refusePending).txtLen = s.txtLen := rfl
@[simp] theorem State.refusePending_pn1 : (s.refusePending).pn1 = s.pn1 := rfl
@[simp] theorem State.refusePending_pn2 : (s.refusePending).pn2 = s.pn2 := rfl
@[simp] theorem State.refusePending_pn3 : (s.refusePending).pn3 = s.pn3 := rfl
@[simp] theorem State.refusePending_pn4 : (s.refusePending).pn4 = s.pn4 := rfl
@[simp] theorem State.refusePending_pen : (s.refusePending).pen = s.pen := rfl
@[simp] theorem State.refusePending_bb : (s.refusePending).bb = s.bb := rfl
@[simp] theorem State.refusePending_wram : (s.refusePending).wram = s.wram := rfl
@[simp] theorem State.refusePending_mat : (s.refusePending).mat = s.mat := rfl
@[simp] theorem State.refusePending_rsp : (s.refusePending).rsp = some ⟨0, .errPending⟩ := rfl
@[simp] theorem State.refusePending_inputs : (s.refusePending).inputs = s.inputs := rfl

@[simp] theorem State.setVersion_result (v : BitVec 4) : (s.setVersion v).result = s.result := rfl
@[simp] theorem State.setVersion_err (v : BitVec 4) : (s.setVersion v).err = s.err := rfl
@[simp] theorem State.setVersion_mstage (v : BitVec 4) : (s.setVersion v).mstage = .empty := rfl
@[simp] theorem State.setVersion_version (v : BitVec 4) : (s.setVersion v).version = v := rfl
@[simp] theorem State.setVersion_mask (v : BitVec 4) : (s.setVersion v).mask = s.mask := rfl
@[simp] theorem State.setVersion_txtLen (v : BitVec 4) : (s.setVersion v).txtLen = s.txtLen := rfl
@[simp] theorem State.setVersion_pn1 (v : BitVec 4) : (s.setVersion v).pn1 = s.pn1 := rfl
@[simp] theorem State.setVersion_pn2 (v : BitVec 4) : (s.setVersion v).pn2 = s.pn2 := rfl
@[simp] theorem State.setVersion_pn3 (v : BitVec 4) : (s.setVersion v).pn3 = s.pn3 := rfl
@[simp] theorem State.setVersion_pn4 (v : BitVec 4) : (s.setVersion v).pn4 = s.pn4 := rfl
@[simp] theorem State.setVersion_pen (v : BitVec 4) : (s.setVersion v).pen = s.pen := rfl
@[simp] theorem State.setVersion_bb (v : BitVec 4) : (s.setVersion v).bb = s.bb := rfl
@[simp] theorem State.setVersion_wram (v : BitVec 4) : (s.setVersion v).wram = s.wram := rfl
@[simp] theorem State.setVersion_mat (v : BitVec 4) : (s.setVersion v).mat = s.mat := rfl
@[simp] theorem State.setVersion_rsp (v : BitVec 4) : (s.setVersion v).rsp = s.rsp := rfl
@[simp] theorem State.setVersion_inputs (v : BitVec 4) : (s.setVersion v).inputs = s.inputs := rfl

@[simp] theorem State.score_result (m : BitVec 3) : (s.score m).result = s.result := rfl
@[simp] theorem State.score_err (m : BitVec 3) : (s.score m).err = s.err := rfl
@[simp] theorem State.score_mstage (m : BitVec 3) : (s.score m).mstage = s.mstage := rfl
@[simp] theorem State.score_version (m : BitVec 3) : (s.score m).version = s.version := rfl
@[simp] theorem State.score_mask (m : BitVec 3) : (s.score m).mask = s.mask := rfl
@[simp] theorem State.score_txtLen (m : BitVec 3) : (s.score m).txtLen = s.txtLen := rfl
@[simp] theorem State.score_bb (m : BitVec 3) : (s.score m).bb = s.bb := rfl
@[simp] theorem State.score_wram (m : BitVec 3) : (s.score m).wram = s.wram := rfl
@[simp] theorem State.score_mat (m : BitVec 3) : (s.score m).mat = s.mat := rfl
@[simp] theorem State.score_rsp (m : BitVec 3) : (s.score m).rsp = s.rsp := rfl
@[simp] theorem State.score_inputs (m : BitVec 3) : (s.score m).inputs = s.inputs := rfl

@[simp] theorem State.withFetchWord_result (nbits w : Nat) : (s.withFetchWord nbits w).result = s.result := rfl
@[simp] theorem State.withFetchWord_err (nbits w : Nat) : (s.withFetchWord nbits w).err = s.err := rfl
@[simp] theorem State.withFetchWord_mstage (nbits w : Nat) : (s.withFetchWord nbits w).mstage = s.mstage := rfl
@[simp] theorem State.withFetchWord_version (nbits w : Nat) : (s.withFetchWord nbits w).version = s.version := rfl
@[simp] theorem State.withFetchWord_mask (nbits w : Nat) : (s.withFetchWord nbits w).mask = s.mask := rfl
@[simp] theorem State.withFetchWord_txtLen (nbits w : Nat) : (s.withFetchWord nbits w).txtLen = s.txtLen := rfl
@[simp] theorem State.withFetchWord_pn1 (nbits w : Nat) : (s.withFetchWord nbits w).pn1 = s.pn1 := rfl
@[simp] theorem State.withFetchWord_pn2 (nbits w : Nat) : (s.withFetchWord nbits w).pn2 = s.pn2 := rfl
@[simp] theorem State.withFetchWord_pn3 (nbits w : Nat) : (s.withFetchWord nbits w).pn3 = s.pn3 := rfl
@[simp] theorem State.withFetchWord_pn4 (nbits w : Nat) : (s.withFetchWord nbits w).pn4 = s.pn4 := rfl
@[simp] theorem State.withFetchWord_pen (nbits w : Nat) : (s.withFetchWord nbits w).pen = s.pen := rfl
@[simp] theorem State.withFetchWord_bb (nbits w : Nat) : (s.withFetchWord nbits w).bb = s.bb := rfl
@[simp] theorem State.withFetchWord_wram (nbits w : Nat) : (s.withFetchWord nbits w).wram = s.wram := rfl
@[simp] theorem State.withFetchWord_mat (nbits w : Nat) : (s.withFetchWord nbits w).mat = s.mat := rfl
@[simp] theorem State.withFetchWord_rsp (nbits w : Nat) : (s.withFetchWord nbits w).rsp = s.rsp := rfl
@[simp] theorem State.withFetchWord_inputs (nbits w : Nat) : (s.withFetchWord nbits w).inputs = .command (commandOfTableWord nbits w) :: s.inputs := rfl

@[simp] theorem State.afterReset_result : s.afterReset.result = State.reset.result := rfl
@[simp] theorem State.afterReset_err : s.afterReset.err = State.reset.err := rfl
@[simp] theorem State.afterReset_mstage : s.afterReset.mstage = State.reset.mstage := rfl
@[simp] theorem State.afterReset_version : s.afterReset.version = State.reset.version := rfl
@[simp] theorem State.afterReset_mask : s.afterReset.mask = State.reset.mask := rfl
@[simp] theorem State.afterReset_txtLen : s.afterReset.txtLen = State.reset.txtLen := rfl
@[simp] theorem State.afterReset_pn1 : s.afterReset.pn1 = State.reset.pn1 := rfl
@[simp] theorem State.afterReset_pn2 : s.afterReset.pn2 = State.reset.pn2 := rfl
@[simp] theorem State.afterReset_pn3 : s.afterReset.pn3 = State.reset.pn3 := rfl
@[simp] theorem State.afterReset_pn4 : s.afterReset.pn4 = State.reset.pn4 := rfl
@[simp] theorem State.afterReset_pen : s.afterReset.pen = State.reset.pen := rfl
@[simp] theorem State.afterReset_bb : s.afterReset.bb = State.reset.bb := rfl
@[simp] theorem State.afterReset_wram : s.afterReset.wram = State.reset.wram := rfl
@[simp] theorem State.afterReset_mat : s.afterReset.mat = State.reset.mat := rfl
@[simp] theorem State.afterReset_rsp : s.afterReset.rsp = State.reset.rsp := rfl
@[simp] theorem State.afterReset_inputs : s.afterReset.inputs = s.inputs := rfl

@[simp] theorem State.score_ver (m : BitVec 3) : (s.score m).ver = s.ver := rfl
@[simp] theorem State.score_side (m : BitVec 3) : (s.score m).side = s.side := rfl
@[simp] theorem State.respond_ver (r : Word) (e : ErrCode) : (s.respond r e).ver = s.ver := rfl
@[simp] theorem State.respond_side (r : Word) (e : ErrCode) : (s.respond r e).side = s.side := rfl
@[simp] theorem State.fail_ver (e : ErrCode) : (s.fail e).ver = s.ver := rfl
@[simp] theorem State.fail_side (e : ErrCode) : (s.fail e).side = s.side := rfl

end Updates

end Sys2Proof.Machine
end

