-- ==== Sys2Proof/Laws/Memory.lean ====
section
/-! SUPPORT. The laws of WRAM: reading after writing, and the canonical form kept by every operation. -/

namespace Sys2Proof.Machine

@[simp] theorem Memory.lookup_nil (a : Nat) : Memory.lookup [] a = none := rfl

/-- A read of the address just written gives the byte written. -/
@[simp] theorem Memory.lookup_insert_same (m : Memory) (a : Nat) (v : Byte) : (m.insert a v).lookup a = some v := by
  induction m with
  | nil => simp [Memory.insert, Memory.lookup]
  | cons x rest ih =>
    obtain ⟨x, b⟩ := x
    simp only [Memory.insert]
    split
    · simp [Memory.lookup]
    · split
      · simp [Memory.lookup]
      · have : ¬ x = a := by omega
        simp [Memory.lookup, this, ih]

/-- A write leaves every other address alone. -/
theorem Memory.lookup_insert_other (m : Memory) {a a' : Nat} (v : Byte) (h : a' ≠ a) :
    (m.insert a v).lookup a' = m.lookup a' := by
  have h' : ¬ a = a' := fun e => h e.symm
  induction m with
  | nil => simp [Memory.insert, Memory.lookup, h']
  | cons x rest ih =>
    obtain ⟨x, b⟩ := x
    simp only [Memory.insert]
    split
    · simp [Memory.lookup, h']
    · split
      · rename_i e
        subst e
        simp [Memory.lookup, h']
      · simp [Memory.lookup, ih]

theorem Memory.mem_insert {m : Memory} {a : Nat} {v : Byte} {x : Host.Cell} (h : x ∈ m.insert a v) :
    x = (a, v) ∨ x ∈ m := by
  induction m with
  | nil => simpa [Memory.insert] using h
  | cons y rest ih =>
    obtain ⟨y, b⟩ := y
    simp only [Memory.insert] at h
    split at h
    · simpa using h
    · split at h
      · simp at h
        rcases h with h | h <;> simp [h]
      · simp at h
        rcases h with h | h
        · simp [h]
        · rcases ih h with h | h <;> simp [h]

/-- A write of an address of WRAM keeps the canonical form. -/
theorem Memory.wf_insert {m : Memory} (h : m.wf) {a : Nat} (ha : a < Config.wramSize) (v : Byte) : (m.insert a v).wf := by
  refine ⟨?_, fun x hx => ?_⟩
  · induction m with
    | nil => simp [Memory.insert]
    | cons y rest ih =>
      obtain ⟨y, b⟩ := y
      obtain ⟨hp, hb⟩ := h
      rw [List.pairwise_cons] at hp
      have ih := ih ⟨hp.2, fun x hx => hb x (List.mem_cons_of_mem _ hx)⟩
      simp only [Memory.insert]
      split
      · rename_i hlt
        refine List.pairwise_cons.2 ⟨fun z hz => ?_, List.pairwise_cons.2 hp⟩
        rcases List.mem_cons.1 hz with rfl | hz
        · exact hlt
        · exact lt_trans hlt (hp.1 z hz)
      · split
        · rename_i e
          subst e
          exact List.pairwise_cons.2 ⟨hp.1, hp.2⟩
        · refine List.pairwise_cons.2 ⟨fun z hz => ?_, ih⟩
          rcases Memory.mem_insert hz with rfl | hz
          · simp only; omega
          · exact hp.1 z hz
  · rcases Memory.mem_insert hx with rfl | hx
    · exact ha
    · exact h.2 x hx

/-- Storing a range of WRAM keeps the canonical form. -/
theorem Memory.wf_store {m : Memory} (h : m.wf) {a : Nat} {bs : List Byte} (hb : a + bs.length ≤ Config.wramSize) :
    (m.store a bs).wf := by
  induction bs generalizing m a with
  | nil => simpa [Memory.store] using h
  | cons b bs ih =>
    simp only [List.length_cons] at hb
    exact ih (Memory.wf_insert h (by omega) b) (by omega)

/-- Every successful write keeps the canonical form. -/
theorem Memory.wf_writeBytes {m m' : Memory} (h : m.wf) {a : Nat} {bs : List Byte} (hw : m.writeBytes a bs = .ok m') :
    m'.wf := by
  unfold Memory.writeBytes at hw
  split at hw
  · rename_i hb
    cases hw
    exact Memory.wf_store h hb
  · cases hw

/-- A write within WRAM succeeds, and is the store. -/
theorem Memory.writeBytes_eq {m : Memory} {a : Nat} {bs : List Byte} (h : a + bs.length ≤ Config.wramSize) :
    m.writeBytes a bs = .ok (m.store a bs) := by simp [Memory.writeBytes, h]

/-- Storing leaves every address outside the range alone. -/
theorem Memory.lookup_store_outside {m : Memory} {a : Nat} {bs : List Byte} {a' : Nat}
    (h : a' < a ∨ a + bs.length ≤ a') : (m.store a bs).lookup a' = m.lookup a' := by
  induction bs generalizing m a with
  | nil => rfl
  | cons b bs ih =>
    simp only [List.length_cons] at h
    rw [Memory.store, ih (by omega), Memory.lookup_insert_other _ _ (by omega)]

/-- Storing puts byte `k` of the list at the `k`-th address. -/
theorem Memory.lookup_store_inside {m : Memory} {a : Nat} {bs : List Byte} {k : Nat} (h : k < bs.length) :
    (m.store a bs).lookup (a + k) = some bs[k] := by
  induction bs generalizing m a k with
  | nil => simp at h
  | cons b bs ih =>
    rw [Memory.store]
    cases k with
    | zero => rw [Nat.add_zero, Memory.lookup_store_outside (by omega)]; simp
    | succ k =>
      have := ih (m := m.insert a b) (a := a + 1) (k := k) (by simpa using h)
      rw [show a + (k + 1) = a + 1 + k by omega, this]
      rfl

theorem Memory.readByte_eq {m : Memory} {a : Nat} {b : Byte} (ha : a < Config.wramSize) (h : m.lookup a = some b) :
    m.readByte a = .ok b := by simp [Memory.readByte, ha, h]

/-- What a successful read of a range gives: as many bytes as asked for, each the byte at its address. -/
theorem Memory.readBytes_spec {m : Memory} {n a : Nat} {bs : List Byte} (h : m.readBytes a n = .ok bs) :
    bs.length = n ∧ ∀ k (hk : k < bs.length), m.lookup (a + k) = some bs[k] := by
  induction n generalizing a bs with
  | zero =>
    cases h
    exact ⟨rfl, fun k hk => absurd hk (by simp)⟩
  | succ n ih =>
    cases h1 : m.readByte a with
    | error e => simp [Memory.readBytes, h1, bind, Except.bind] at h
    | ok b =>
      cases h2 : m.readBytes (a + 1) n with
      | error e => simp [Memory.readBytes, h1, h2, bind, Except.bind] at h
      | ok rest =>
        simp [Memory.readBytes, h1, h2, bind, Except.bind, pure, Except.pure] at h
        subst h
        obtain ⟨hl, hr⟩ := ih h2
        refine ⟨by simp [hl], fun k hk => ?_⟩
        cases k with
        | zero =>
          unfold Memory.readByte at h1
          split at h1
          · split at h1
            · rename_i hb
              cases h1
              simpa using hb
            · cases h1
          · cases h1
        | succ k =>
          have := hr k (by simpa using hk)
          rw [show a + (k + 1) = a + 1 + k by omega]
          simpa using this

/-- A read of a range whose bytes are all written succeeds with those bytes. -/
theorem Memory.readBytes_eq {m : Memory} {n a : Nat} {bs : List Byte} (hl : bs.length = n) (hn : a + n ≤ Config.wramSize)
    (h : ∀ k (hk : k < bs.length), m.lookup (a + k) = some bs[k]) : m.readBytes a n = .ok bs := by
  induction n generalizing a bs with
  | zero =>
    have : bs = [] := List.length_eq_zero_iff.1 hl
    subst this
    rfl
  | succ n ih =>
    match bs, hl with
    | b :: rest, hl =>
      have h0 := Memory.readByte_eq (m := m) (a := a) (b := b) (by omega) (h 0 (by simp))
      have ht := ih (a := a + 1) (bs := rest) (by simpa using hl) (by omega) (fun k hk => by
        have := h (k + 1) (by simpa using hk)
        rw [show a + 1 + k = a + (k + 1) by omega]
        simpa using this)
      simp [Memory.readBytes, h0, ht, bind, Except.bind, pure, Except.pure]

/-- A range just stored reads back. -/
theorem Memory.readBytes_store {m : Memory} {a : Nat} {bs : List Byte} (h : a + bs.length ≤ Config.wramSize) :
    (m.store a bs).readBytes a bs.length = .ok bs :=
  Memory.readBytes_eq rfl h (fun _ hk => Memory.lookup_store_inside hk)

/-- Storing elsewhere does not change what a range reads as. -/
theorem Memory.readBytes_store_outside {m : Memory} {a a' n : Nat} {bs cs : List Byte}
    (h : a' + n ≤ a ∨ a + bs.length ≤ a') (hn : a' + n ≤ Config.wramSize) (hr : m.readBytes a' n = .ok cs) :
    (m.store a bs).readBytes a' n = .ok cs := by
  obtain ⟨hl, hc⟩ := Memory.readBytes_spec hr
  refine Memory.readBytes_eq hl hn (fun k hk => ?_)
  rw [Memory.lookup_store_outside (by omega)]
  exact hc k hk

/-- A read of a range that lies in WRAM and holds an unwritten byte stops on an unwritten byte of the range. -/
theorem Memory.readBytes_unwritten {m : Memory} {n a : Nat} (hn : a + n ≤ Config.wramSize)
    (h : ∃ x, a ≤ x ∧ x < a + n ∧ m.lookup x = none) :
    ∃ x, a ≤ x ∧ x < a + n ∧ m.lookup x = none ∧ m.readBytes a n = stop (.unwrittenByte x) := by
  induction n generalizing a with
  | zero => obtain ⟨x, h1, h2, -⟩ := h; omega
  | succ n ih =>
    have ha : a < Config.wramSize := by omega
    cases hl : m.lookup a with
    | none => exact ⟨a, le_rfl, by omega, hl, by simp [Memory.readBytes, Memory.readByte, ha, hl, stop]; rfl⟩
    | some b =>
      obtain ⟨x, h1, h2, h3⟩ := h
      have hx : x ≠ a := by rintro rfl; simp [hl] at h3
      obtain ⟨y, k1, k2, k3, k4⟩ := ih (a := a + 1) (by omega) ⟨x, by omega, by omega, h3⟩
      exact ⟨y, by omega, by omega, k3, by rw [Memory.readBytes, Memory.readByte_eq ha hl, k4]; rfl⟩

end Sys2Proof.Machine
end

