-- ==== Sys2Proof/Laws/Ops.lean ====
section
/-! SUPPORT. What performing a command body can do, what the gate does, and the laws of the bit buffer's operations. -/

namespace Sys2Proof.Machine

/-! ### Performing a body -/

theorem perform_done {body : Body} {s t : State} {r : Word} (h : body s = .ok (t, r)) :
    perform body s = .next (t.respond r .ok) := by simp [perform, h]

theorem perform_raise {body : Body} {s : State} {e : ErrCode} (h : body s = raise e) :
    perform body s = .next (s.fail e) := by simp [perform, h, raise]

theorem perform_stop {body : Body} {s : State} {f : Fault} (h : body s = stop f) :
    perform body s = .fault f := by simp [perform, h, stop]

/-- Everything performing a body can do when it answers a next state: commit it, or take its error. -/
theorem perform_next {body : Body} {s t : State} (h : perform body s = .next t) :
    (∃ s' r, body s = .ok (s', r) ∧ t = s'.respond r .ok) ∨ (∃ e, body s = raise e ∧ t = s.fail e) := by
  unfold perform at h
  split at h
  · rename_i s' r hb
    cases h
    exact .inl ⟨s', r, hb, rfl⟩
  · rename_i e hb
    cases h
    exact .inr ⟨e, hb, rfl⟩
  · cases h

/-- Performing a body never refuses. -/
theorem perform_ne_refused {body : Body} {s : State} {r : Refusal} : perform body s ≠ .refused r := by
  unfold perform
  split <;> simp

theorem gated_pending {body : Body} {s : State} (h : s.err ≠ .ok) : gated body s = .next s.refusePending := by
  simp [gated, h]

theorem gated_open {body : Body} {s : State} (h : s.err = .ok) : gated body s = perform body s := by
  simp [gated, h]

theorem gated_done {body : Body} {s t : State} {r : Word} (h : s.err = .ok) (hb : body s = .ok (t, r)) :
    gated body s = .next (t.respond r .ok) := by rw [gated_open h, perform_done hb]

theorem gated_raise {body : Body} {s : State} {e : ErrCode} (h : s.err = .ok) (hb : body s = raise e) :
    gated body s = .next (s.fail e) := by rw [gated_open h, perform_raise hb]

theorem gated_stop {body : Body} {s : State} {f : Fault} (h : s.err = .ok) (hb : body s = stop f) :
    gated body s = .fault f := by rw [gated_open h, perform_stop hb]

/-- Everything a gated command can do when it answers a next state: be refused, be committed, or take its error. -/
theorem gated_next {body : Body} {s t : State} (h : gated body s = .next t) :
    (s.err ≠ .ok ∧ t = s.refusePending) ∨
    (s.err = .ok ∧ ∃ s' r, body s = .ok (s', r) ∧ t = s'.respond r .ok) ∨
    (s.err = .ok ∧ ∃ e, body s = raise e ∧ t = s.fail e) := by
  by_cases he : s.err = .ok
  · rw [gated_open he] at h
    rcases perform_next h with h | h
    · exact .inr (.inl ⟨he, h⟩)
    · exact .inr (.inr ⟨he, h⟩)
  · rw [gated_pending he] at h
    cases h
    exact .inl ⟨he, rfl⟩

/-- A bind that succeeds: both parts succeed. -/
theorem Exec.bind_ok {α β : Type} {x : Exec α} {f : α → Exec β} {b : β} (h : (x >>= f) = .ok b) :
    ∃ a, x = .ok a ∧ f a = .ok b := by
  cases x with
  | error e => cases h
  | ok a => exact ⟨a, rfl, h⟩

/-! ### Bits -/

@[simp] theorem length_msbBits (n value : Nat) : (msbBits n value).length = n := by
  induction n with
  | zero => rfl
  | succ n ih => simp [msbBits, ih]

/-- Bit `k` of the `n` bits, counted from the most significant, is bit `n - 1 - k` of the value. -/
theorem getElem_msbBits {n value k : Nat} (h : k < (msbBits n value).length) :
    (msbBits n value)[k] = value.testBit (n - 1 - k) := by
  induction n generalizing k with
  | zero => simp [msbBits] at h
  | succ n ih =>
    cases k with
    | zero => simp [msbBits]
    | succ k =>
      simp only [msbBits, List.getElem_cons_succ]
      rw [ih]
      congr 1
      omega

theorem ofMsbBits_snoc (bits : List Bool) (b : Bool) : ofMsbBits (bits ++ [b]) = 2 * ofMsbBits bits + b.toNat := by
  simp [ofMsbBits]

theorem ofMsbBits_foldl (bits : List Bool) (acc : Nat) :
    bits.foldl (fun acc b => 2 * acc + b.toNat) acc = acc * 2 ^ bits.length + ofMsbBits bits := by
  induction bits generalizing acc with
  | nil => simp [ofMsbBits]
  | cons b bs ih =>
    simp only [ofMsbBits, List.foldl_cons, List.length_cons]
    rw [ih, ih (2 * 0 + b.toNat)]
    ring

/-- Reading back the low bits of a value gives it modulo the power of two (R78). -/
theorem ofMsbBits_msbBits (n value : Nat) : ofMsbBits (msbBits n value) = value % 2 ^ n := by
  induction n with
  | zero => simp [msbBits, ofMsbBits, Nat.mod_one]
  | succ n ih =>
    have h : ofMsbBits (msbBits (n + 1) value) = (value.testBit n).toNat * 2 ^ n + ofMsbBits (msbBits n value) := by
      have := ofMsbBits_foldl (msbBits n value) (2 * 0 + (value.testBit n).toNat)
      simpa [msbBits, ofMsbBits] using this
    rw [h, ih, Nat.mod_pow_succ, Nat.toNat_testBit]
    ring

/-- An append that passes both checks (R121). -/
theorem appendBits_ok {bb : List Bool} {value n : Nat} (hn : n ≤ 32) (hc : bb.length + n ≤ Config.bbCap) :
    appendBits bb value n = .ok (bb ++ msbBits n value) := by
  simp [appendBits, Nat.not_lt.2 hn, Nat.not_lt.2 hc]

/-- Everything an append can do (R121). -/
theorem appendBits_cases (bb : List Bool) (value n : Nat) :
    (n ≤ 32 ∧ bb.length + n ≤ Config.bbCap ∧ appendBits bb value n = .ok (bb ++ msbBits n value)) ∨
    ((32 < n ∨ Config.bbCap < bb.length + n) ∧ appendBits bb value n = raise .range) := by
  by_cases h1 : 32 < n
  · exact .inr ⟨.inl h1, by simp [appendBits, h1]⟩
  · by_cases h2 : Config.bbCap < bb.length + n
    · exact .inr ⟨.inr h2, by simp [appendBits, h1, h2]⟩
    · exact .inl ⟨by omega, by omega, appendBits_ok (by omega) (by omega)⟩

/-- Appending bytes that fit (R152). -/
theorem appendBytes_ok {bb : List Bool} {bs : List Byte} (h : bb.length + 8 * bs.length ≤ Config.bbCap) :
    appendBytes bb bs = .ok (bb ++ bs.flatMap fun b => msbBits 8 b.toNat) := by
  induction bs generalizing bb with
  | nil => simp [appendBytes]
  | cons b bs ih =>
    simp only [List.length_cons] at h
    simp only [appendBytes]
    rw [appendBits_ok (by omega) (by omega)]
    simp only [bind, Except.bind]
    rw [ih (by simp; omega)]
    simp

@[simp] theorem length_bytesOfBits (n : Nat) (bb : List Bool) : (bytesOfBits n bb).length = n := by
  induction n generalizing bb with
  | zero => rfl
  | succ n ih => simp [bytesOfBits, ih]

/-- Byte `k` of the first `n` bytes is byte `k` of the buffer (R156). -/
theorem getElem_bytesOfBits {n : Nat} {bb : List Bool} {k : Nat} (hk : k < (bytesOfBits n bb).length)
    (hb : 8 * n ≤ bb.length) : byteOfBits bb k = some (bytesOfBits n bb)[k] := by
  induction n generalizing bb k with
  | zero => simp [bytesOfBits] at hk
  | succ n ih =>
    simp only [length_bytesOfBits] at hk
    cases k with
    | zero => simp [byteOfBits, bytesOfBits]; omega
    | succ k =>
      have := ih (bb := bb.drop 8) (k := k) (by simpa using by omega) (by simp; omega)
      simp only [byteOfBits, List.length_drop, List.drop_drop] at this
      simp only [byteOfBits, bytesOfBits, List.getElem_cons_succ]
      rw [← this]
      have h1 : 8 * (k + 1) + 8 ≤ bb.length := by omega
      have h2 : 8 * k + 8 ≤ bb.length - 8 := by omega
      simp only [h1, h2, if_true]
      rw [show 8 + 8 * k = 8 * (k + 1) by omega]

end Sys2Proof.Machine
end

