-- ==== Sys2Proof/Laws/Grid.lean ====
section
/-! SUPPORT. The laws of the matrix: reading a cell after each operation, and the 77 by 77 shape kept by every one. -/

namespace Sys2Proof.Machine

@[simp] theorem length_mapFirst {α : Type} (f : Nat → α → α) (n i : Nat) (xs : List α) :
    (mapFirst f n i xs).length = xs.length := by
  induction xs generalizing n i with
  | nil => cases n <;> rfl
  | cons x xs ih => cases n <;> simp [mapFirst, ih]

/-- Entry `k` after mapping the first `n`. -/
theorem getD_mapFirst {α : Type} (f : Nat → α → α) (n i : Nat) (xs : List α) (k : Nat) (d : α) :
    (mapFirst f n i xs).getD k d = if k < n ∧ k < xs.length then f (i + k) (xs.getD k d) else xs.getD k d := by
  induction xs generalizing n i k with
  | nil => cases n <;> simp [mapFirst]
  | cons x xs ih =>
    cases n with
    | zero => simp [mapFirst]
    | succ n =>
      cases k with
      | zero => simp [mapFirst]
      | succ k =>
        simp only [mapFirst, List.getD_cons_succ, ih, List.length_cons, Nat.add_lt_add_iff_right]
        rw [show i + 1 + k = i + (k + 1) by omega]

theorem mem_mapFirst {α : Type} {f : Nat → α → α} {n i : Nat} {xs : List α} {y : α} (h : y ∈ mapFirst f n i xs) :
    y ∈ xs ∨ ∃ j x, x ∈ xs ∧ y = f j x := by
  induction xs generalizing n i with
  | nil => cases n <;> simp [mapFirst] at h
  | cons x xs ih =>
    cases n with
    | zero => exact .inl (by simpa [mapFirst] using h)
    | succ n =>
      simp only [mapFirst, List.mem_cons] at h
      rcases h with rfl | h
      · exact .inr ⟨i, x, by simp, rfl⟩
      · rcases ih h with h | ⟨j, z, hz, rfl⟩
        · exact .inl (by simp [h])
        · exact .inr ⟨j, z, by simp [hz], rfl⟩

theorem Grid.shaped_mapSquare {g : Grid} (h : g.shaped) (f : Nat → Nat → Cell → Cell) (n : Nat) : (g.mapSquare f n).shaped := by
  refine ⟨by simp [Grid.mapSquare, h.1], fun row hr => ?_⟩
  rcases mem_mapFirst hr with hr | ⟨j, x, hx, rfl⟩
  · exact h.2 row hr
  · simp [h.2 x hx]

theorem Grid.length_row {g : Grid} (h : g.shaped) {r : Nat} (hr : r < Config.matDim) :
    (g.getD r []).length = Config.matDim := by
  have : r < g.length := by rw [h.1]; exact hr
  rw [List.getD_eq_getElem _ _ this]
  exact h.2 _ (List.getElem_mem this)

/-- A cell of the square after mapping the square. -/
theorem Grid.cell_mapSquare {g : Grid} (h : g.shaped) (f : Nat → Nat → Cell → Cell) {n r c : Nat} (hn : n ≤ Config.matDim)
    (hr : r < n) (hc : c < n) : (g.mapSquare f n).cell r c = f r c (g.cell r c) := by
  have hl := Grid.length_row h (lt_of_lt_of_le hr hn)
  have h1 : r < g.length := by rw [h.1]; omega
  simp only [Grid.cell, Grid.mapSquare]
  rw [getD_mapFirst, if_pos ⟨hr, h1⟩, getD_mapFirst, if_pos ⟨hc, by omega⟩]
  simp

/-- A cell outside the square is left alone. -/
theorem Grid.cell_mapSquare_outside (g : Grid) (f : Nat → Nat → Cell → Cell) {n r c : Nat} (h : n ≤ r ∨ n ≤ c) :
    (g.mapSquare f n).cell r c = g.cell r c := by
  simp only [Grid.cell, Grid.mapSquare]
  rw [getD_mapFirst]
  split
  · rw [getD_mapFirst, if_neg (by omega)]
  · rfl

theorem Grid.shaped_putCell {g : Grid} (h : g.shaped) (r c : Nat) (x : Cell) : (g.putCell r c x).shaped := by
  by_cases hr : r < Config.matDim
  · refine ⟨by simp [Grid.putCell, h.1], fun row hrow => ?_⟩
    rcases List.mem_or_eq_of_mem_set hrow with hm | rfl
    · exact h.2 row hm
    · rw [List.length_set]; exact Grid.length_row h hr
  · have : g.putCell r c x = g := by
      rw [Grid.putCell, List.set_eq_of_length_le (by rw [h.1]; omega)]
    rw [this]; exact h

theorem Grid.shaped_putVal {g : Grid} (h : g.shaped) (r c : Nat) (d : Bool) : (g.putVal r c d).shaped :=
  Grid.shaped_putCell h _ _ _

/-- The cell just set. -/
theorem Grid.cell_putCell_same {g : Grid} (h : g.shaped) {r c : Nat} (hr : r < Config.matDim) (hc : c < Config.matDim)
    (x : Cell) : (g.putCell r c x).cell r c = x := by
  have hl := Grid.length_row h hr
  have h1 : r < g.length := by rw [h.1]; exact hr
  have h2 : c < (g.getD r []).length := by omega
  simp only [Grid.cell, Grid.putCell]
  have h3 : (g.set r ((g.getD r []).set c x)).getD r [] = (g.getD r []).set c x := by
    rw [List.getD_eq_getElem _ _ (by simpa using h1)]; simp
  rw [h3, List.getD_eq_getElem _ _ (by simpa using h2)]
  simp

/-- Every other cell is left alone. -/
theorem Grid.cell_putCell_other (g : Grid) {r c r' c' : Nat} (h : r' ≠ r ∨ c' ≠ c) (x : Cell) :
    (g.putCell r c x).cell r' c' = g.cell r' c' := by
  simp only [Grid.cell, Grid.putCell]
  by_cases hr : r = r'
  · subst hr
    have hc : c ≠ c' := by rcases h with h | h <;> [exact absurd rfl h; exact fun e => h e.symm]
    by_cases hl : r < g.length
    · rw [List.getD_eq_getElem (g.set r _) _ (by simpa using hl)]
      simp [List.getD_eq_getElem?_getD, List.getElem?_set_ne hc]
    · rw [List.set_eq_of_length_le (by omega)]
  · have : (g.set r ((g.getD r []).set c x)).getD r' [] = g.getD r' [] := by
      simp [List.getD_eq_getElem?_getD, List.getElem?_set_ne hr]
    rw [this]

/-- `putVal` sets the value of its cell and keeps its reserved flag. -/
theorem Grid.cell_putVal_same {g : Grid} (h : g.shaped) {r c : Nat} (hr : r < Config.matDim) (hc : c < Config.matDim)
    (d : Bool) : (g.putVal r c d).cell r c = ⟨if d then .dark else .light, (g.cell r c).res⟩ :=
  Grid.cell_putCell_same h hr hc _

theorem Grid.cell_putVal_other (g : Grid) {r c r' c' : Nat} (h : r' ≠ r ∨ c' ≠ c) (d : Bool) :
    (g.putVal r c d).cell r' c' = g.cell r' c' := Grid.cell_putCell_other g h _

theorem Grid.shaped_reset : State.reset.mat.shaped := by
  refine ⟨by simp [State.reset], fun row hr => ?_⟩
  simp only [State.reset] at hr
  rw [List.eq_of_mem_replicate hr]
  simp

/-- The symbol square lies in the array. -/
theorem State.side_le (s : State) : s.side ≤ Config.matDim := by
  have := s.version.isLt
  simp only [State.side, State.ver, Rom.size, Config.matDim]
  omega

end Sys2Proof.Machine
end

