-- ==== Sys2Proof/Laws/PerInstr.lean ====
section
/-! SUPPORT. Laws made per command: the encoded word of a command carries the fixed bits its row of opcode_table.json gives. -/

namespace Sys2Proof.Laws.OpcodeRow

/-- The row's `mask` and `match`, as opcode_table.json writes them. -/
def row : Instr → Word × Word
  | .nop => (0xFFFFFFFF, 0x00000000)
  | .bbClear => (0xFFFFFFFF, 0x10000000)
  | .bbAppend _ _ => (0xFFFFFFC0, 0x11000000)
  | .bbAppendByte _ => (0xFFFFFF00, 0x12000000)
  | .bbLength => (0xFFFFFFFF, 0x13000000)
  | .bbGetbit _ => (0xFFFFFFFF, 0x14000000)
  | .bbGetbyte _ => (0xFFFFFFFF, 0x15000000)
  | .lenSet _ => (0xFFFFFC00, 0x20000000)
  | .verSet _ => (0xFFFFFFF0, 0x21000000)
  | .deSelect => (0xFFFFFFFF, 0x22000000)
  | .deEncode => (0xFFFFFFFF, 0x23000000)
  | .gfExp _ => (0xFFFFFF00, 0x30000000)
  | .gfLog _ => (0xFFFFFF00, 0x31000000)
  | .gfMul _ _ => (0xFFFF0000, 0x32000000)
  | .gfDiv _ _ => (0xFFFF0000, 0x33000000)
  | .rsGen _ _ => (0xFFFFFF00, 0x40000000)
  | .rsEncode _ _ _ _ => (0xFFFFFF00, 0x41000000)
  | .cwBuild => (0xFFFFFFFF, 0x42000000)
  | .mbFunc => (0xFFFFFFFF, 0x50000000)
  | .mbPlace => (0xFFFFFFFF, 0x51000000)
  | .mbCell _ _ => (0xFFFF0000, 0x52000000)
  | .mbFinal => (0xFFFFFFFF, 0x53000000)
  | .mbIsdark _ _ => (0xFFFF0000, 0x54000000)
  | .mbPenalty _ => (0xFFFFFFF8, 0x60000000)
  | .mbSelect => (0xFFFFFFFF, 0x61000000)
  | .wrWrite _ _ => (0xFFF00000, 0x70000000)
  | .wrRead _ => (0xFFF000FF, 0x71000000)
  | .regRead _ => (0xFFFFFFE0, 0x72000000)
  | .errClear => (0xFFFFFFFF, 0x73000000)
  | .encode => (0xFFFFFFFF, 0x74000000)

/-- The encoded word has the row's fixed bits, the reserved bits 0 among them. -/
def Statement (i : Instr) : Prop := (encode i).cmd &&& (row i).1 = (row i).2

theorem nop : Statement .nop := by unfold Statement; decide
theorem bbClear : Statement .bbClear := by unfold Statement; decide
theorem bbAppend (a : BitVec 6) (b : Word) : Statement (.bbAppend a b) := by
  refine BitVec.eq_of_getLsbD_eq fun i hi => ?_
  interval_cases i <;> simp [encode, commandWord, field, row]
theorem bbAppendByte (a : Byte) : Statement (.bbAppendByte a) := by
  refine BitVec.eq_of_getLsbD_eq fun i hi => ?_
  interval_cases i <;> simp [encode, commandWord, field, row]
theorem bbLength : Statement .bbLength := by unfold Statement; decide
theorem bbGetbit (a : Word) : Statement (.bbGetbit a) := by
  show commandWord 0x14 0 &&& 0xFFFFFFFF#32 = 0x14000000#32
  decide
theorem bbGetbyte (a : Word) : Statement (.bbGetbyte a) := by
  show commandWord 0x15 0 &&& 0xFFFFFFFF#32 = 0x15000000#32
  decide
theorem lenSet (a : BitVec 10) : Statement (.lenSet a) := by
  refine BitVec.eq_of_getLsbD_eq fun i hi => ?_
  interval_cases i <;> simp [encode, commandWord, field, row]
theorem verSet (a : BitVec 4) : Statement (.verSet a) := by
  refine BitVec.eq_of_getLsbD_eq fun i hi => ?_
  interval_cases i <;> simp [encode, commandWord, field, row]
theorem deSelect : Statement .deSelect := by unfold Statement; decide
theorem deEncode : Statement .deEncode := by unfold Statement; decide
theorem gfExp (a : Byte) : Statement (.gfExp a) := by
  refine BitVec.eq_of_getLsbD_eq fun i hi => ?_
  interval_cases i <;> simp [encode, commandWord, field, row]
theorem gfLog (a : Byte) : Statement (.gfLog a) := by
  refine BitVec.eq_of_getLsbD_eq fun i hi => ?_
  interval_cases i <;> simp [encode, commandWord, field, row]
theorem gfMul (a b : Byte) : Statement (.gfMul a b) := by
  refine BitVec.eq_of_getLsbD_eq fun i hi => ?_
  interval_cases i <;> simp [encode, commandWord, field, row]
theorem gfDiv (a b : Byte) : Statement (.gfDiv a b) := by
  refine BitVec.eq_of_getLsbD_eq fun i hi => ?_
  interval_cases i <;> simp [encode, commandWord, field, row]
theorem rsGen (a : Byte) (b : Word) : Statement (.rsGen a b) := by
  refine BitVec.eq_of_getLsbD_eq fun i hi => ?_
  interval_cases i <;> simp [encode, commandWord, field, row]
theorem rsEncode (a : Byte) (b c : BitVec 16) (d : Word) : Statement (.rsEncode a b c d) := by
  refine BitVec.eq_of_getLsbD_eq fun i hi => ?_
  interval_cases i <;> simp [encode, commandWord, field, row]
theorem cwBuild : Statement .cwBuild := by unfold Statement; decide
theorem mbFunc : Statement .mbFunc := by unfold Statement; decide
theorem mbPlace : Statement .mbPlace := by unfold Statement; decide
theorem mbCell (a b : Byte) : Statement (.mbCell a b) := by
  refine BitVec.eq_of_getLsbD_eq fun i hi => ?_
  interval_cases i <;> simp [encode, commandWord, field, row]
theorem mbFinal : Statement .mbFinal := by unfold Statement; decide
theorem mbIsdark (a b : Byte) : Statement (.mbIsdark a b) := by
  refine BitVec.eq_of_getLsbD_eq fun i hi => ?_
  interval_cases i <;> simp [encode, commandWord, field, row]
theorem mbPenalty (a : BitVec 3) : Statement (.mbPenalty a) := by
  refine BitVec.eq_of_getLsbD_eq fun i hi => ?_
  interval_cases i <;> simp [encode, commandWord, field, row]
theorem mbSelect : Statement .mbSelect := by unfold Statement; decide
theorem wrWrite (a : BitVec 12) (b : Byte) : Statement (.wrWrite a b) := by
  refine BitVec.eq_of_getLsbD_eq fun i hi => ?_
  interval_cases i <;> simp [encode, commandWord, field, row]
theorem wrRead (a : BitVec 12) : Statement (.wrRead a) := by
  refine BitVec.eq_of_getLsbD_eq fun i hi => ?_
  interval_cases i <;> simp [encode, commandWord, field, row]
theorem regRead (a : BitVec 5) : Statement (.regRead a) := by
  refine BitVec.eq_of_getLsbD_eq fun i hi => ?_
  interval_cases i <;> simp [encode, commandWord, field, row]
theorem errClear : Statement .errClear := by unfold Statement; decide
theorem encode : Statement .encode := by unfold Statement; decide

end Sys2Proof.Laws.OpcodeRow
end

