-- ==== Sys2Proof/Laws/ReedSolomon.lean ====
section
/-! SUPPORT. The lengths of what the Reed-Solomon functions give, and of the interleaved sequence. -/

namespace Sys2Proof.Machine

@[simp] theorem length_mulRoot (g : List Byte) (c : Byte) : (mulRoot g c).length = g.length + 1 := by
  simp [mulRoot]

/-- `gen(n)` has `n + 1` coefficients (R190). -/
@[simp] theorem length_rsGenPoly (n : Nat) : (rsGenPoly n).length = n + 1 := by
  induction n with
  | zero => rfl
  | succ n ih => simp [rsGenPoly, ih]

@[simp] theorem length_subtractMultiple (c : Byte) (gs xs : List Byte) :
    (subtractMultiple c gs xs).length = xs.length := by
  induction gs generalizing xs with
  | nil => simp [subtractMultiple]
  | cons g gs ih => cases xs <;> simp [subtractMultiple, ih]

@[simp] theorem length_longDivide (gtail : List Byte) (k : Nat) (rem : List Byte) :
    (longDivide gtail k rem).length = rem.length - k := by
  induction k generalizing rem with
  | zero => simp [longDivide]
  | succ k ih =>
    cases rem with
    | nil => simp [longDivide]
    | cons c rest =>
      simp only [longDivide]
      split <;> simp [ih]

/-- The remainder has `n` coefficients (R192). -/
@[simp] theorem length_rsRemainder (d : List Byte) (n : Nat) : (rsRemainder d n).length = n := by
  simp [rsRemainder]

@[simp] theorem length_splitBlocks {α : Type} (ks : List Nat) (xs : List α) : (splitBlocks ks xs).length = ks.length := by
  induction ks generalizing xs with
  | nil => rfl
  | cons k ks ih => simp [splitBlocks, ih]

/-- The blocks have the lengths asked for, when the sequence is long enough. -/
theorem map_length_splitBlocks {α : Type} {ks : List Nat} {xs : List α} (h : ks.sum ≤ xs.length) :
    (splitBlocks ks xs).map List.length = ks := by
  induction ks generalizing xs with
  | nil => rfl
  | cons k ks ih =>
    simp only [List.sum_cons] at h
    simp [splitBlocks, ih (xs := xs.drop k) (by simp; omega)]
    omega

theorem length_roundHeads {α : Type} (blocks : List (List α)) :
    (roundHeads blocks).length + ((blocks.map List.tail).map List.length).sum = (blocks.map List.length).sum := by
  induction blocks with
  | nil => rfl
  | cons b bs ih =>
    cases b with
    | nil => simpa [roundHeads, List.filterMap_cons] using ih
    | cons x xs => simp [roundHeads] at ih ⊢; omega

/-- Enough rounds take every codeword of every block exactly once. -/
theorem length_roundRobin {α : Type} {k : Nat} {blocks : List (List α)} (h : ∀ b ∈ blocks, b.length ≤ k) :
    (roundRobin k blocks).length = (blocks.map List.length).sum := by
  induction k generalizing blocks with
  | zero =>
    symm
    simp only [roundRobin, List.length_nil, List.sum_eq_zero_iff, List.mem_map]
    rintro x ⟨b, hb, rfl⟩
    exact Nat.le_zero.1 (h b hb)
  | succ k ih =>
    have h' : ∀ b ∈ blocks.map List.tail, b.length ≤ k := by
      simp only [List.mem_map]
      rintro b ⟨a, ha, rfl⟩
      have := h a ha
      simp; omega
    have := length_roundHeads blocks
    simp only [roundRobin, List.length_append, ih h']
    omega

theorem le_foldl_max (l : List Nat) (a : Nat) : a ≤ l.foldl max a ∧ ∀ x ∈ l, x ≤ l.foldl max a := by
  induction l generalizing a with
  | nil => simp
  | cons y ys ih =>
    obtain ⟨h1, h2⟩ := ih (max a y)
    simp only [List.foldl_cons, List.mem_cons]
    refine ⟨by omega, ?_⟩
    rintro x (rfl | hx)
    · omega
    · exact h2 x hx

/-- The interleaved sequence holds every data and every EC codeword (R205). -/
theorem length_interleave (data ec : List (List Byte)) :
    (interleave data ec).length = (data.map List.length).sum + (ec.map List.length).sum := by
  have h : ∀ bs : List (List Byte), ∀ b ∈ bs, b.length ≤ (bs.map List.length).foldl max 0 := fun bs b hb =>
    (le_foldl_max _ 0).2 _ (List.mem_map_of_mem hb)
  simp [interleave, length_roundRobin (h data), length_roundRobin (h ec)]

/-- The EC region of a version holds `NB * n` bytes (R204). -/
theorem length_ecBlocks_flatten (v : Nat) (data : List Byte) :
    (ecBlocks v data).flatten.length = Rom.blockCount v * Rom.ecCount v := by
  simp [ecBlocks, dataBlocks, List.length_flatten, Rom.blockCount, Function.comp_def]

/-- The sequence of a version holds `TC(v)` codewords (R205). -/
theorem length_codewordSequence {v : Nat} {data : List Byte} (h : data.length = Rom.dataCount v) :
    (codewordSequence v data).length = Rom.totalCount v := by
  have h1 := map_length_splitBlocks (ks := Rom.blockLengths v) (xs := data) (by rw [h]; rfl)
  simp [codewordSequence, length_interleave, dataBlocks, ecBlocks, h1, Rom.totalCount, Rom.dataCount, Rom.blockCount,
    Function.comp_def]

/-- Every version's counts fit their regions (R73). -/
theorem Rom.counts_fit : ∀ v ≤ 15, Rom.dataCount v ≤ 523 ∧ Rom.blockCount v * Rom.ecCount v ≤ 132 ∧ Rom.totalCount v ≤ 655 := by
  decide

end Sys2Proof.Machine
end

