-- ==== Sys2Proof/Tests/Slice0.lean ====
section
/-! SUPPORT. Tests of one step each, with the values of 95_test_vectors.md and of the rules' own examples, and a witness for the hypotheses of each statement. -/

namespace Sys2Proof.Tests

open Sys2Proof.Machine Sys2Proof.Claims

/-! ### WellFormed -/

theorem test_selector_9_is_ill_formed : (Instr.regRead 9).wellFormed = false := by decide
theorem test_selector_15_is_ill_formed : (Instr.regRead 15).wellFormed = false := by decide
theorem test_selector_24_is_ill_formed : (Instr.regRead 24).wellFormed = false := by decide
theorem test_selectors_at_the_edges_are_well_formed :
    (Instr.regRead 8).wellFormed = true ∧ (Instr.regRead 16).wellFormed = true ∧ (Instr.regRead 23).wellFormed = true := by
  decide

/-! ### Decoding: words written out from R94 and R98, and those of 95_test_vectors.md section 2 -/

theorem test_decode_bit_buffer :
    decode ⟨0x10000000, 0, 0⟩ = .ok .bbClear ∧ decode ⟨0x11000020, 0x80000001, 5⟩ = .ok (.bbAppend 32 0x80000001) ∧
    decode ⟨0x11000021, 1, 0⟩ = .ok (.bbAppend 33 1) ∧ decode ⟨0x120000EC, 0, 0⟩ = .ok (.bbAppendByte 0xEC) ∧
    decode ⟨0x13000000, 0, 0⟩ = .ok .bbLength ∧ decode ⟨0x14000000, 11, 0⟩ = .ok (.bbGetbit 11) ∧
    decode ⟨0x15000000, 2, 0⟩ = .ok (.bbGetbyte 2) := by decide

theorem test_decode_data_formatter :
    decode ⟨0x2000020A, 0, 0⟩ = .ok (.lenSet 522) ∧ decode ⟨0x21000007, 0, 0⟩ = .ok (.verSet 7) ∧
    decode ⟨0x22000000, 0, 0⟩ = .ok .deSelect ∧ decode ⟨0x23000000, 0, 0⟩ = .ok .deEncode := by decide

theorem test_decode_galois :
    decode ⟨0x300000FF, 0, 0⟩ = .ok (.gfExp 255) ∧ decode ⟨0x3100001D, 0, 0⟩ = .ok (.gfLog 0x1D) ∧
    decode ⟨0x320053CA, 0, 0⟩ = .ok (.gfMul 0x53 0xCA) ∧ decode ⟨0x33008F53, 0, 0⟩ = .ok (.gfDiv 0x8F 0x53) := by decide

theorem test_decode_reed_solomon :
    decode ⟨0x40000007, 0xE10, 9⟩ = .ok (.rsGen 7 0xE10) ∧
    decode ⟨0x41000007, 0x00130C01, 0x400⟩ = .ok (.rsEncode 7 0xC01 19 0x400) ∧
    decode ⟨0x42000000, 0, 0⟩ = .ok .cwBuild := by decide

theorem test_decode_matrix :
    decode ⟨0x50000000, 0, 0⟩ = .ok .mbFunc ∧ decode ⟨0x51000000, 0, 0⟩ = .ok .mbPlace ∧
    decode ⟨0x52000800, 0, 0⟩ = .ok (.mbCell 8 0) ∧ decode ⟨0x53000000, 0, 0⟩ = .ok .mbFinal ∧
    decode ⟨0x54001400, 0, 0⟩ = .ok (.mbIsdark 20 0) := by decide

theorem test_decode_mask :
    decode ⟨0x60000007, 0, 0⟩ = .ok (.mbPenalty 7) ∧ decode ⟨0x61000000, 0, 0⟩ = .ok .mbSelect := by decide

theorem test_decode_host :
    decode ⟨0x00000000, 1, 2⟩ = .ok .nop ∧ decode ⟨0x700C0041, 0, 0⟩ = .ok (.wrWrite 0xC00 0x41) ∧
    decode ⟨0x71040900, 0, 0⟩ = .ok (.wrRead 0x409) ∧ decode ⟨0x72000011, 0, 0⟩ = .ok (.regRead 17) ∧
    decode ⟨0x73000000, 0, 0⟩ = .ok .errClear ∧ decode ⟨0x74000000, 0, 0⟩ = .ok .encode := by decide

theorem test_unassigned_opcodes_are_illegal :
    decode ⟨0x01000000, 0, 0⟩ = .error .unassignedOpcode ∧ decode ⟨0xFF000000, 0, 0⟩ = .error .unassignedOpcode ∧
    decode ⟨0x75000000, 0, 0⟩ = .error .unassignedOpcode := by decide

theorem test_reserved_bits_are_illegal :
    decode ⟨0x00000001, 0, 0⟩ = .error .reservedBits ∧ decode ⟨0x10000001, 0, 0⟩ = .error .reservedBits ∧
    decode ⟨0x11000040, 0, 0⟩ = .error .reservedBits ∧ decode ⟨0x21000010, 0, 0⟩ = .error .reservedBits ∧
    decode ⟨0x20000400, 0, 0⟩ = .error .reservedBits ∧ decode ⟨0x32010000, 0, 0⟩ = .error .reservedBits ∧
    decode ⟨0x70FFF000, 0, 0⟩ = .error .reservedBits ∧ decode ⟨0x71040901, 0, 0⟩ = .error .reservedBits ∧
    decode ⟨0x72000020, 0, 0⟩ = .error .reservedBits ∧ decode ⟨0x60000008, 0, 0⟩ = .error .reservedBits := by decide

theorem test_reserved_selectors_are_illegal :
    decode ⟨0x72000009, 0, 0⟩ = .error .reservedSelector ∧ decode ⟨0x72000018, 0, 0⟩ = .error .reservedSelector ∧
    decode ⟨0x72000008, 0, 0⟩ = .ok (.regRead 8) := by decide

/-! ### Helpers -/

/-- The next state, if there is one. -/
def next? : Answer → Option State
  | .next s => some s
  | _ => none

/-- RESULT and the error code a command answers with. -/
def answer (o : Answer) : Option (Nat × Nat) :=
  ((next? o).bind State.rsp).map fun r => (r.result.toNat, r.err.code.toNat)

/-- Some field of the next state. -/
def after {α : Type} (o : Answer) (f : State → α) : Option α := (next? o).map f

/-- The reset state with some WRAM bytes written. -/
def loaded (base : Nat) (bytes : List Byte) : State := { State.reset with wram := Memory.store [] base bytes }

/-- A bit buffer of twelve bits (95_test_vectors.md section 3 row 5). -/
def twelve : State :=
  { State.reset with bb := [false, true, false, false, true, true, true, false, true, true, false, false] }

/-- A state at a stage of version 1. -/
def atStage (stage : MStage) : State := { State.reset with version := 1, mstage := stage }

/-- The codewords of "A" at version 1 (95_test_vectors.md section 4 row 2). -/
def dataA : List Byte :=
  [0x40, 0x14, 0x10, 0xEC, 0x11, 0xEC, 0x11, 0xEC, 0x11, 0xEC, 0x11, 0xEC, 0x11, 0xEC, 0x11, 0xEC, 0x11, 0xEC, 0x11]

theorem next_of_isSome {o : Answer} (h : (next? o).isSome = true) : ∃ t, o = .next t := by
  cases o with
  | next s => exact ⟨s, rfl⟩
  | fault f => cases h
  | refused r => cases h

/-! ### The bit buffer (section 3) -/

theorem test_bb_clear : after (exec .bbClear twelve) State.bbLen = some 0 := by decide
theorem test_bb_append : after (exec (.bbAppend 4 0xFFFFFFF4) State.reset) State.bb = some [false, true, false, false] := by decide
theorem test_bb_append_33 : answer (exec (.bbAppend 33 1) twelve) = some (0, 2) := by decide
theorem test_bb_append_byte :
    after (exec (.bbAppendByte 0xEC) { State.reset with bb := [false, true, false, false] }) State.bb = some twelve.bb := by decide
theorem test_bb_length : answer (exec .bbLength twelve) = some (12, 0) := by decide
theorem test_bb_getbit : answer (exec (.bbGetbit 1) twelve) = some (1, 0) := by decide
theorem test_bb_getbit_far : answer (exec (.bbGetbit 0xFFFFFFFF) twelve) = some (0, 2) := by decide
theorem test_bb_getbyte : answer (exec (.bbGetbyte 0) twelve) = some (0x4E, 0) := by decide
theorem test_bb_getbyte_partial : answer (exec (.bbGetbyte 1) twelve) = some (0, 2) := by decide

/-! ### The data formatter (section 4) -/

theorem test_len_set : after (exec (.lenSet 522) State.reset) State.txtLen = some 522 := by decide
theorem test_ver_set : after (exec (.verSet 7) (atStage .final)) (fun t => (t.version, t.mstage)) = some (7, .empty) := by decide
theorem test_de_select_18 : answer (exec .deSelect { State.reset with txtLen := 18 }) = some (2, 0) := by decide
theorem test_de_select_521 : answer (exec .deSelect { State.reset with txtLen := 521 }) = some (0, 1) := by decide
theorem test_de_encode_A :
    after (exec .deEncode { loaded 0xC00 [0x41] with txtLen := 1, version := 1 })
      (fun t => (t.wram, t.bbLen, t.result)) = some (Memory.store [(0xC00, 0x41)] 0x000 dataA, 152, 19) := by decide +kernel
theorem test_de_encode_over_version : answer (exec .deEncode { State.reset with txtLen := 18, version := 1 }) = some (0, 1) := by decide

/-! ### GF(256) (section 5) -/

theorem test_gf_exp : answer (exec (.gfExp 8) State.reset) = some (0x1D, 0) := by decide
theorem test_gf_exp_255 : answer (exec (.gfExp 255) State.reset) = some (0x01, 0) := by decide
theorem test_gf_log : answer (exec (.gfLog 0xFF) State.reset) = some (175, 0) := by decide
theorem test_gf_log_0 : answer (exec (.gfLog 0) State.reset) = some (0, 3) := by decide
theorem test_gf_mul : answer (exec (.gfMul 0x53 0xCA) State.reset) = some (0x8F, 0) := by decide
theorem test_gf_mul_square : answer (exec (.gfMul 0xFF 0xFF) State.reset) = some (0xE2, 0) := by decide
theorem test_gf_div : answer (exec (.gfDiv 0x8F 0x53) State.reset) = some (0xCA, 0) := by decide
theorem test_gf_div_0_0 : answer (exec (.gfDiv 0 0) State.reset) = some (0, 3) := by decide

/-! ### Reed-Solomon (section 6) -/

theorem test_rs_gen :
    after (exec (.rsGen 7 0xE10) State.reset) (fun t => (t.wram, t.result)) =
      some (Memory.store [] 0xE10 [0x01, 0x7F, 0x7A, 0x9A, 0xA4, 0x0B, 0x44, 0x75], 8) := by decide +kernel
/-- R71: RS_ENCODE of a range whose second byte is unwritten faults on it. -/
theorem test_rs_encode_unwritten : exec (.rsEncode 3 0 2 0x400) (loaded 0 [0x41]) = .fault (.unwrittenByte 1) := by rfl
theorem test_rs_gen_past_the_end : answer (exec (.rsGen 30 0xFE2) State.reset) = some (0, 2) := by decide
theorem test_rs_encode_overlap :
    after (exec (.rsEncode 3 0 2 0x001) (loaded 0 [0x41, 0x42])) State.wram =
      some [(0, 0x41), (1, 0x46), (2, 0xF1), (3, 0xB4)] := by decide +kernel
theorem test_rs_encode_range : answer (exec (.rsEncode 7 0xFFF 2 0x400) State.reset) = some (0, 2) := by decide
theorem test_cw_build_A :
    after (exec .cwBuild { loaded 0 dataA with version := 1 })
      (fun t => (t.wram.readBytes 0x400 7, t.wram.readBytes 0x812 8, t.result)) =
      some (.ok [0x52, 0x4B, 0xB5, 0x3B, 0xAF, 0x8D, 0xF1], .ok [0x11, 0x52, 0x4B, 0xB5, 0x3B, 0xAF, 0x8D, 0xF1], 26) := by
  decide +kernel
theorem test_cw_build_no_version : answer (exec .cwBuild State.reset) = some (0, 4) := by decide

/-! ### The matrix builder (section 7) -/

theorem test_mb_func : after (exec .mbFunc { State.reset with version := 1 }) (fun t => (t.result, t.mstage)) = some (21, .func) := by
  decide
theorem test_mb_func_no_version : answer (exec .mbFunc State.reset) = some (0, 4) := by decide
theorem test_patterns_of_version_1 :
    (timingPattern 6 8, finderPattern 21 0 0, finderPattern 21 7 7, finderPattern 21 9 9, darkModule 21 13 8) =
      (some true, some true, some false, none, some true) := by decide
theorem test_patterns_of_version_7 :
    ((alignCentres 7).length, (alignCentres 14).length, alignPattern 7 22 22, alignPattern 7 23 22, versionArea 45 0 34,
      versionArea 45 0 37) = (6, 13, some true, some false, true, false) := by decide
theorem test_mb_place_second : answer (exec .mbPlace (atStage .placed)) = some (0, 4) := by decide
theorem test_place_bits :
    (placeBits ((zigzag 21).take 3) (codewordBits [0x40]) State.reset.mat 0).2 = 3 ∧
    ((placeBits ((zigzag 21).take 3) (codewordBits [0x40]) State.reset.mat 0).1.cell 20 20).val = .light ∧
    ((placeBits ((zigzag 21).take 3) (codewordBits [0x40]) State.reset.mat 0).1.cell 20 19).val = .dark := by decide +kernel
theorem test_mb_cell : answer (exec (.mbCell 20 20) (atStage .func)) = some (0, 0) := by decide
theorem test_mb_cell_order : answer (exec (.mbCell 99 99) State.reset) = some (0, 4) := by decide
theorem test_cell_code : (Cell.code ⟨.dark, true⟩, Cell.code ⟨.unset, true⟩, Cell.code ⟨.light, false⟩) = (0b110, 0b100, 0b001) := by
  decide
theorem test_mb_final_too_early : answer (exec .mbFinal (atStage .placed)) = some (0, 4) := by decide
theorem test_mask_cell :
    (maskCell 0 20 20 ⟨.light, false⟩, maskCell 0 20 19 ⟨.dark, false⟩, maskCell 0 0 0 ⟨.dark, true⟩) =
      (⟨.dark, false⟩, ⟨.dark, false⟩, ⟨.dark, true⟩) := by decide
theorem test_mb_isdark_outside : answer (exec (.mbIsdark 21 0) (atStage .final)) = some (0, 2) := by decide
theorem test_mb_isdark_too_early : answer (exec (.mbIsdark 20 0) (atStage .selected)) = some (0, 4) := by decide

/-! ### The mask evaluator (section 8) -/

theorem test_mb_penalty_too_early : answer (exec (.mbPenalty 0) (atStage .func)) = some (0, 4) := by decide
theorem test_mb_select_too_late : answer (exec .mbSelect (atStage .final)) = some (0, 4) := by decide
theorem test_run_penalties : [4, 5, 21].map runPenalty = [0, 3, 19] := by decide
theorem test_runs : runLengths [true, true, false, true, true, true] = [2, 1, 3] := by decide
theorem test_blocks : penaltyN2 (List.replicate 3 (List.replicate 3 true)) = 12 := by decide
theorem test_finder_like :
    finderLike [false, false, false, false, true, false, true, true, true, false, true, false, false, false, false] = 2 := by decide
theorem test_balance :
    [176, 177, 198, 199, 220, 221, 243, 244, 265, 266].map (fun d => balancePenalty d 441) =
      [20, 10, 10, 0, 0, 0, 10, 10, 20, 20] := by decide
theorem test_tie : ({ State.reset with pen := #v[5, 3, 3, 9, 9, 9, 9, 9] } : State).bestMask = 1 := by decide

/-! ### The host interface (section 10) -/

theorem test_nop_with_error : answer (exec .nop { State.reset with err := .domain }) = some (0, 0) := by decide
theorem test_wr_write : after (exec (.wrWrite 0xC00 0x41) State.reset) State.wram = some [(0xC00, 0x41)] := by decide
theorem test_wr_read : answer (exec (.wrRead 0xC00) (loaded 0xC00 [0x41])) = some (0x41, 0) := by decide
theorem test_wr_read_unwritten : next? (exec (.wrRead 0) State.reset) = none := by decide
theorem test_status : answer (exec (.regRead 0) { State.reset with err := .domain, mstage := .final }) = some (0x43, 0) := by decide
theorem test_reg_read_pen : answer (exec (.regRead 17) { State.reset with pen := #v[1, 2, 3, 4, 5, 6, 7, 8] }) = some (2, 0) := by
  decide
theorem test_err_clear :
    after (exec .errClear { State.reset with err := .domain }) (fun t => (t.result, t.err)) = some (3, .ok) := by decide
theorem test_illegal_keeps_the_first_code :
    after (runCommand ⟨0xFF000000, 0, 0⟩ { State.reset with err := .domain }) (fun t => (t.rsp, t.err)) =
      some (some ⟨0, .illegal⟩, .domain) := by decide
theorem test_gate : answer (exec (.gfMul 0x53 0xCA) { State.reset with err := .domain }) = some (0, 7) := by decide
theorem test_encode_too_long :
    after (exec .encode { atStage .final with txtLen := 521 }) (fun t => (t.rsp, t.mstage, t.version)) =
      some (some ⟨0, .capacity⟩, .empty, 1) := by decide
theorem test_encode_word : encodeResult { State.reset with version := 15, mask := 4 } = 0x00004D4F := by decide
theorem test_encode_empty_text_completes : (next? (exec .encode State.reset)).isSome = true := by decide +kernel
theorem test_step_runs_withFetchWord :
    answer (step (State.reset.withFetchWord 32 0x320053CA)) = some (0x8F, 0) := by decide

/-! ### The memory form -/

theorem test_insert_keeps_the_order :
    ((Memory.insert [(1, 0), (5, 0)] 3 9).insert 1 7) = [(1, 7), (3, 9), (5, 0)] := by decide

/-! ### Witnesses: for each statement with hypotheses, a concrete state and operands that meet them -/

/-- A matrix of version 1 with every late cell UNSET and every other cell DARK, reserved as R239 says. -/
def drawnMat : Grid :=
  State.reset.mat.mapSquare (fun r c _ => ⟨if lateCells 1 r c then .unset else .dark, reservedSet 1 r c⟩) 21

/-- A final matrix of version 1: every cell DARK, reserved as R239 says. -/
def finalMat : Grid := State.reset.mat.mapSquare (fun r c _ => ⟨.dark, reservedSet 1 r c⟩) 21

/-- A state at a stage with such a matrix, and NOP next at the port. -/
def drawnState (stage : MStage) : State :=
  { atStage stage with mat := if stage = .final then finalMat else drawnMat, inputs := [.command ⟨0, 0, 0⟩] }

theorem shaped_drawnState (stage : MStage) : (drawnState stage).mat.shaped := by
  unfold drawnState
  split <;> exact Grid.shaped_mapSquare Grid.shaped_reset _ _

theorem cell_drawnMat {r c : Nat} (hr : r < 21) (hc : c < 21) :
    drawnMat.cell r c = ⟨if lateCells 1 r c then .unset else .dark, reservedSet 1 r c⟩ :=
  Grid.cell_mapSquare Grid.shaped_reset _ (by decide) hr hc

theorem cell_finalMat {r c : Nat} (hr : r < 21) (hc : c < 21) : finalMat.cell r c = ⟨.dark, reservedSet 1 r c⟩ :=
  Grid.cell_mapSquare Grid.shaped_reset _ (by decide) hr hc

theorem regular_drawnState (stage : MStage) : (drawnState stage).Regular where
  wram_wf := by show Memory.wf []; decide
  mat_shaped := shaped_drawnState stage
  bb_le := Nat.zero_le _
  version_of_stage := fun _ => by show (1 : BitVec 4) ≠ 0; decide
  err_held := by show ErrCode.ok ≠ .errPending; decide

theorem good_drawnState (stage : MStage) : (drawnState stage).Good where
  regular := regular_drawnState stage
  reserved := by
    intro _ r c hr hc
    have hr' : r < 21 := hr
    have hc' : c < 21 := hc
    show ((if stage = .final then finalMat else drawnMat).cell r c).res = reservedSet 1 r c
    split
    · rw [cell_finalMat hr' hc']
    · rw [cell_drawnMat hr' hc']
  colours := by
    intro r c hr hc
    have hd := cell_drawnMat (r := r) (c := c) hr hc
    have hf := cell_finalMat (r := r) (c := c) hr hc
    have hv : (drawnState stage).ver = 1 := rfl
    rw [hv]
    cases stage <;> simp [drawnState, atStage, hd, hf]

/-- The states of the three statements about steps: at every stage a good state that has a next step. -/
theorem witness_steps_keep_the_invariants :
    (∀ stage, (drawnState stage).Good) ∧ ∀ stage, ∃ t, step (drawnState stage) = .next t :=
  ⟨good_drawnState, fun stage => next_of_isSome (by cases stage <;> decide)⟩

theorem written_of_wram {s : State} {base : Nat} {bytes : List Byte} (h : s.wram = Memory.store [] base bytes) :
    written s base bytes := fun k hk => by rw [h]; exact Memory.lookup_store_inside hk

theorem witness_EncodeThenDecode :
    (Instr.regRead 0).wellFormed = true ∧ (Instr.regRead 23).wellFormed = true ∧ (Instr.bbAppend 63 0xFFFFFFFF).wellFormed = true := by
  decide

theorem witness_DecodedWord :
    decode ⟨0x41000007, 0x00130000, 0x400⟩ = .ok (.rsEncode 7 0 19 0x400) ∧ decode ⟨0, 7, 8⟩ = .ok .nop := by decide

theorem witness_IllegalWords :
    ¬ legalWord 0x75000000 ∧ ¬ legalWord 0x00000001 ∧ ¬ legalWord 0x72000009 ∧ ¬ legalWord 0x72000018 ∧
    legalWord 0x72000008 ∧ legalWord 0x72000017 ∧ legalWord 0x74000000 := by
  refine ⟨?_, ?_, ?_, ?_, ?_, ?_, ?_⟩ <;> (unfold legalWord; decide)

/-- The reset state with one command at the port. -/
def presented (c : Command) : State := { State.reset with inputs := [.command c] }

theorem witness_StepRuns :
    (presented ⟨0x320053CA, 0, 0⟩).inputs = .command ⟨0x320053CA, 0, 0⟩ :: [] ∧
    decode ⟨0x320053CA, 0, 0⟩ = .ok (.gfMul 0x53 0xCA) ∧
    decodeTableWord 96 0x000004000013000041000007 = some (.rsEncode 7 0 19 0x400) := by decide

theorem witness_Reset :
    (0 < 4096 ∧ 4095 < 4096) ∧ ({ State.reset with err := .range, inputs := [.reset] } : State).inputs = .reset :: [] := by decide

theorem witness_PendingError :
    ({ State.reset with err := .capacity } : State).err ≠ .ok ∧ (Instr.encode ≠ .nop ∧ Instr.encode ≠ .errClear) ∧
    (∀ sel, Instr.encode ≠ .regRead sel) ∧ legalSelector 0 = true ∧ legalSelector 8 = true ∧ legalSelector 16 = true ∧
    legalSelector 23 = true := by decide

theorem witness_FailingCommand :
    after (runCommand ⟨0x33000500, 0, 0⟩ State.reset) State.rsp = some (some ⟨0, .domain⟩) ∧
    after (runCommand ⟨0x74000000, 0, 0⟩ { State.reset with txtLen := 521 }) State.rsp = some (some ⟨0, .capacity⟩) ∧
    after (runCommand ⟨0x74000000, 0, 0⟩ { State.reset with err := .range }) State.rsp = some (some ⟨0, .errPending⟩) ∧
    after (runCommand ⟨0x75000000, 0, 0⟩ State.reset) State.rsp = some (some ⟨0, .illegal⟩) := by decide

theorem witness_OnlyErrClear :
    (next? (runCommand ⟨0x73000000, 0, 0⟩ { State.reset with err := .range })).isSome = true ∧
    (next? (runCommand ⟨0x20000001, 0, 0⟩ { State.reset with err := .range })).isSome = true ∧
    ({ State.reset with err := .range } : State).err ≠ .ok := by decide

theorem witness_EveryCommand : ∃ t, runCommand ⟨0x33000500, 0, 0⟩ State.reset = .next t := next_of_isSome (by decide)

theorem witness_NopAndErrClear : (0x00000001 : Word) ≠ 0 ∧ (0x00000001 : Word).extractLsb' 24 8 = 0 := by decide

/-- The premise that no error is pending, alone: the statements of the appends, reads, sets, GF(256), the registers. -/
theorem witness_no_error_pending : State.reset.err = .ok := rfl

/-- A bit buffer of `n` bits. -/
def bits (n : Nat) : State := { State.reset with bb := List.replicate n true }

theorem length_bits (n : Nat) : (bits n).bb.length = n := List.length_replicate ..

theorem witness_BitBufferAppends :
    ((32 : BitVec 6).toNat ≤ 32 ∧ (bits 8160).bb.length + (32 : BitVec 6).toNat ≤ 8192) ∧ 32 < (33 : BitVec 6).toNat ∧
    8192 < (bits 8161).bb.length + (32 : BitVec 6).toNat ∧ (bits 8184).bb.length + 8 ≤ 8192 ∧
    8192 < (bits 8185).bb.length + 8 := by
  simp only [length_bits]; decide

theorem witness_BitBufferReads :
    (11 : Word).toNat < twelve.bb.length ∧ twelve.bb.length ≤ (12 : Word).toNat ∧
    8 * (0 : Word).toNat + 8 ≤ twelve.bb.length ∧ twelve.bb.length < 8 * (1 : Word).toNat + 8 := by decide

theorem witness_AppendedByte :
    (bits 8184).err = .ok ∧ (bits 8184).bb.length % 8 = 0 ∧ (bits 8184).bb.length + 8 ≤ 8192 ∧
    (1023 : Word).toNat = (bits 8184).bb.length / 8 := by
  simp only [length_bits]; decide

theorem witness_BitBufferOnlyGrows :
    (next? (exec (.bbAppendByte 7) twelve)).isSome = true ∧ Instr.bbAppendByte 7 ≠ .bbClear ∧ Instr.bbAppendByte 7 ≠ .deEncode ∧
    Instr.bbAppendByte 7 ≠ .encode := by decide

theorem witness_DeSelect :
    ({ State.reset with txtLen := 520 } : State).txtLen.toNat ≤ 520 ∧ 520 < ({ State.reset with txtLen := 521 } : State).txtLen.toNat := by
  decide

theorem witness_versions : (1 ≤ 1 ∧ 1 ≤ 15) ∧ (1 ≤ 15 ∧ 15 ≤ 15) := by decide

/-- The longest text of version 15, and a state that holds it. -/
def longText : List Byte := List.replicate 520 0x41
def longState : State := { loaded 0xC00 longText with txtLen := 520, version := 15 }

theorem textIs_longState : textIs longState longText :=
  ⟨by simp only [longText, List.length_replicate]; decide, written_of_wram (by simp only [longState, loaded])⟩

theorem witness_DeEncode :
    longState.err = .ok ∧ longState.version ≠ 0 ∧ longState.txtLen.toNat ≤ entry capTable longState.version.toNat ∧
    textIs longState longText ∧ State.reset.version = 0 ∧ ({ longState with version := 14 } : State).version ≠ 0 ∧
    entry capTable ({ longState with version := 14 } : State).version.toNat < longState.txtLen.toNat :=
  ⟨rfl, by decide, by decide, textIs_longState, rfl, by decide, by decide⟩

theorem witness_OtherWramBytes :
    (next? (exec (.rsGen 7 0xE10) State.reset)).isSome = true ∧ ¬ storesTo (.rsGen 7 0xE10) State.reset 0 0xE0F ∧
    ¬ storesTo (.rsGen 7 0xE10) State.reset 0 0xE18 ∧ ¬ storesTo .bbClear State.reset 0 5 := by
  unfold storesTo; decide

theorem witness_Galois : (253 ≤ 253 ∧ 254 < 255) ∧ (0xFF : Byte) ≠ 0 ∧ (1 : Byte) ≠ 0 := by decide

theorem witness_RsGen :
    (1 ≤ (30 : Byte).toNat ∧ (30 : Byte).toNat ≤ 30 ∧ (0xFE1 : Word).toNat + (30 : Byte).toNat + 1 ≤ 4096) ∧
    (0 : Byte).toNat < 1 ∧ 30 < (31 : Byte).toNat ∧ 4096 < (0xFE2 : Word).toNat + (30 : Byte).toNat + 1 := by decide

theorem witness_RsEncode :
    (1 ≤ (3 : Byte).toNat ∧ (3 : Byte).toNat ≤ 30 ∧ 1 ≤ (2 : BitVec 16).toNat ∧ (0xFFE : BitVec 16).toNat + (2 : BitVec 16).toNat ≤ 4096 ∧
      (0xFFD : Word).toNat + (3 : Byte).toNat ≤ 4096 ∧ [0x41#8, 0x42#8].length = (2 : BitVec 16).toNat ∧
      written (loaded 0xFFE [0x41, 0x42]) (0xFFE : BitVec 16).toNat [0x41, 0x42]) ∧
    (0 : BitVec 16).toNat < 1 ∧ 4096 < (0xFFF : BitVec 16).toNat + (2 : BitVec 16).toNat ∧
    4096 < (0xFFE : Word).toNat + (3 : Byte).toNat := by unfold written bytesAt; decide

/-- A state in which nothing is written and whose text of 520 bytes fits its version. -/
def unwrittenState : State := { State.reset with txtLen := 520, version := 15, mstage := .func }

/-- The clauses on unwritten bytes: the last byte of each range that DE_ENCODE and ENCODE, RS_ENCODE, CW_BUILD and MB_PLACE
read, with the other premises of the clause. -/
theorem witness_unwritten :
    unwrittenIn unwrittenState 0xC00 unwrittenState.txtLen.toNat 0xE07 ∧
    unwrittenIn unwrittenState 0xFFE (2 : BitVec 16).toNat 0xFFF ∧
    unwrittenIn unwrittenState 0x000 (entry dataTable unwrittenState.version.toNat) 522 ∧
    unwrittenIn unwrittenState 0x800 (Rom.totalCount unwrittenState.ver) 0xA8E ∧
    unwrittenState.err = .ok ∧ unwrittenState.version ≠ 0 ∧ unwrittenState.mstage = .func ∧ unwrittenState.txtLen.toNat ≤ 520 ∧
    unwrittenState.txtLen.toNat ≤ entry capTable unwrittenState.version.toNat := by unfold unwrittenIn; decide

/-- The clauses on stored bytes: the addresses next to the ranges that RS_GEN and CW_BUILD store to. -/
theorem witness_stored :
    (0xE0F < 0xE10 ∨ 0xE10 + (rsGenPoly 7).length ≤ 0xE0F) ∧ (0xE18 < 0xE10 ∨ 0xE10 + (rsGenPoly 7).length ≤ 0xE18) ∧
    (0x400 + Rom.blockCount 15 * Rom.ecCount 15 ≤ 0x484 ∧ 0x484 < 0x800) ∧ 0x800 + Rom.totalCount 15 ≤ 0xA8F := by
  decide +kernel

theorem witness_roots : 30 ≤ 30 ∧ 29 < 30 ∧ 0 < 1 ∧ 1 ≤ 30 := by decide

/-- The data codewords of version 15, and a state that holds them. -/
def longData : List Byte := List.replicate 523 0x41

theorem witness_CwBuild :
    ({ loaded 0 longData with version := 15 } : State).version ≠ 0 ∧
    longData.length = entry dataTable ({ loaded 0 longData with version := 15 } : State).version.toNat ∧
    written { loaded 0 longData with version := 15 } 0x000 longData ∧ (5 < Rom.blockCount 15 ∧ 21 < Rom.ecCount 15) ∧
    State.reset.version = 0 :=
  ⟨by decide, by simp only [longData, List.length_replicate]; decide, written_of_wram (by simp only [loaded]), by decide, rfl⟩

theorem witness_Blocks :
    longData.length = Rom.dataCount 15 ∧ Rom.blockCount 15 = 6 ∧ (Rom.blockLengths 15).headD 0 = 87 ∧
    (Rom.blockLengths 15).count 87 = 5 ∧ Rom.ecCount 15 = 22 :=
  ⟨by simp only [longData, List.length_replicate]; decide, by decide, by decide, by decide, by decide⟩

theorem witness_MbFunc : (atStage .final).err = .ok ∧ (atStage .final).version ≠ 0 ∧ State.reset.version = 0 := by decide

/-- The statements about the matrix of every version and every earlier matrix. -/
theorem witness_matrix :
    (1 ≤ 15 ∧ 15 ≤ 15) ∧ State.reset.mat.shaped ∧ (76 < 4 * 15 + 17) ∧ (Rom.alignPos 15).length = 4 ∧
    (¬ ((3 = 0) ∧ (3 = 0)) ∧ ¬ ((3 = 0) ∧ (3 = 4 - 1)) ∧ ¬ ((3 = 4 - 1) ∧ (3 = 0))) :=
  ⟨by decide, Grid.shaped_reset, by decide, by decide, by decide⟩

theorem witness_ReservedSet :
    lateCells 7 0 34 = true ∧ reservedSet 7 0 34 = true ∧ lateCells 7 0 0 = false ∧ reservedSet 7 0 0 = true ∧
    reservedSet 7 44 44 = false ∧ lateCells 7 44 44 = false := by decide

theorem witness_Zigzag : 2 * 15 + 7 < 2 * 15 + 8 ∧ 76 < 77 := by decide

/-- A state that MB_PLACE can place. -/
def placeable : State := { loaded 0x800 (List.replicate 26 0x40) with version := 1, mstage := .func }

theorem witness_MbPlace :
    placeable.err = .ok ∧ placeable.mstage = .func ∧ placeable.mat.shaped ∧
    (List.replicate 26 (0x40 : Byte)).length = Rom.totalCount placeable.ver ∧
    written placeable 0x800 (List.replicate 26 0x40) ∧ (atStage .placed).mstage ≠ .func :=
  ⟨rfl, rfl, Grid.shaped_reset, by decide, written_of_wram rfl, by decide⟩

theorem witness_CellQueries :
    (atStage .func).mstage ≠ .empty ∧ State.reset.mstage = .empty ∧ (20 : Byte).toNat < 4 * (atStage .func).version.toNat + 17 ∧
    4 * (atStage .func).version.toNat + 17 ≤ (21 : Byte).toNat ∧ (atStage .final).mstage = .final ∧
    (atStage .selected).mstage ≠ .final := by decide

theorem witness_MbFinal : (atStage .selected).mstage = .selected ∧ (atStage .placed).mstage ≠ .selected := by decide

theorem witness_Finalize : 7 ≤ 7 ∧ 14 < 15 ∧ 17 < 18 ∧ lateCells 7 0 0 = false ∧ 0 < 4 * 7 + 17 := by decide

theorem witness_FormatAndVersionWords : (7 ≤ 7 ∧ 7 ≤ 15) ∧ (7 ≤ 15 ∧ 15 ≤ 15) := by decide

theorem witness_masks :
    (atStage .placed).err = .ok ∧ (atStage .placed).mstage = .placed ∧ (atStage .selected).mstage = .selected ∧
    ((atStage .func).mstage ≠ .placed ∧ (atStage .func).mstage ≠ .selected) := by decide

theorem witness_colours :
    77 ≤ 77 ∧ State.reset.mat.shaped ∧ squareOf 11 (List.replicate 11 finderLikeA) ∧
    squareOf 77 (List.replicate 77 (List.replicate 77 true)) ∧ squareOf 1 [[true]] :=
  ⟨by decide, Grid.shaped_reset, by unfold squareOf; decide,
    ⟨by simp, fun row h => by rw [List.eq_of_mem_replicate h]; simp⟩, by unfold squareOf; decide⟩

theorem witness_Wram :
    (loaded 0xFFF [0x41]).wram.lookup (0xFFF : BitVec 12).toNat = some 0x41 ∧
    (loaded 0xFFF [0x41]).wram.lookup (0xFFE : BitVec 12).toNat = none ∧ 0xFFE ≠ (0xFFF : BitVec 12).toNat := by decide

theorem witness_RegRead : legalSelector 23 = true ∧ legalSelector 9 = false ∧ legalSelector 24 = false := by decide

theorem witness_Encode :
    longState.err = .ok ∧ longState.mat.shaped ∧ longState.txtLen.toNat ≤ 520 ∧ textIs longState longText ∧
    (State.reset.txtLen.toNat ≤ 520 ∧ textIs State.reset []) :=
  ⟨rfl, Grid.shaped_reset, by decide, textIs_longState, by decide, rfl,
    fun _ h => absurd h (Nat.not_lt_zero _)⟩

theorem witness_EncodeFailure :
    ({ State.reset with txtLen := 521 } : State).err = .ok ∧ 520 < ({ State.reset with txtLen := 521 } : State).txtLen.toNat := by decide

theorem witness_EncodeDependsOnTheTextOnly_bytes : storesTo .encode State.reset 1 18 ∧ storesTo .encode State.reset 1 0x406 ∧
    storesTo .encode State.reset 1 0x819 := by unfold storesTo; decide

/-- Two states that hold one text, in both of which ENCODE completes. -/
theorem witness_EncodeDependsOnTheTextOnly :
    textIs State.reset [] ∧ textIs (atStage .final) [] ∧ (∃ t, exec .encode State.reset = .next t) ∧
    ∃ t, exec .encode (atStage .final) = .next t :=
  ⟨⟨rfl, fun _ h => absurd h (Nat.not_lt_zero _)⟩, ⟨rfl, fun _ h => absurd h (Nat.not_lt_zero _)⟩,
    next_of_isSome test_encode_empty_text_completes, next_of_isSome (by decide +kernel)⟩

/-- A port that is ready, a NOP at it, and samples that wait, hold and take. -/
def readyPort : PortState := { core := State.reset, phase := .ready, offered := none, broken := false, clock := 0 }
def sample (rst valid take : Bool) : PortIn := { rstN := rst, cmdValid := valid, cmd := ⟨0, 0, 0⟩, rspReady := take }

theorem witness_Port :
    readyPort.phase = .ready ∧ readyPort.broken = false ∧ readyPort.offered = none ∧ presents (sample true true false) ⟨0, 0, 0⟩ ∧
    (List.replicate (latency ⟨0, 0, 0⟩) (sample true true true)).length = latency ⟨0, 0, 0⟩ ∧
    (∀ i ∈ List.replicate (latency ⟨0, 0, 0⟩) (sample true true true), i.rstN = true) ∧
    (∀ i ∈ [sample true false false], i.rstN = true ∧ i.rspReady = false) ∧ (sample true false true).rspReady = true ∧
    (sample true false true).rstN = true ∧
    after (runCommand ⟨0, 0, 0⟩ readyPort.core) (fun s => (s.rsp, s.result)) = some (some ⟨0, .ok⟩, 0) :=
  ⟨rfl, rfl, rfl, ⟨rfl, rfl, rfl⟩, by simp, fun i h => by rw [List.eq_of_mem_replicate h]; rfl, by decide, rfl, rfl, by decide⟩

theorem witness_PortReset :
    [sample false true true] ≠ [] ∧ (∀ i ∈ [sample false true true], i.rstN = false) ∧ (sample true false false).rstN = true := by
  decide

end Sys2Proof.Tests
end

section
/-! PROOFS. What REG_READ answers: its words, the register each selector names, and the obligation about them (R44, R306). -/

open Sys2Proof.Claims

namespace Sys2Proof.Machine

/-- Responding without an error is the claims' `success`. -/
theorem State.respond_ok (s : State) (r : Word) : s.respond r .ok = success s r := rfl

/-! ### The words of REG_READ -/

/-- The three parts of a REG_READ word that the decoder reads: opcode, reserved bits, selector (R94). -/
theorem regReadWord_parts (sel : BitVec 5) :
    opcodeOf (0x72000000 ||| zext32 sel) = 0x72#8 ∧
    reservedClear 0xFFFFE0#32 (0x72000000 ||| zext32 sel) = true ∧
    (0x72000000 ||| zext32 sel).extractLsb' 0 5 = sel := by
  revert sel
  decide

/-- A REG_READ word decodes by the legality of its selector alone (R97, R99 (c)). -/
theorem decode_regReadWord (sel : BitVec 5) (a0 a1 : Word) :
    decode ⟨0x72000000 ||| zext32 sel, a0, a1⟩ =
      if legalSelector sel then .ok (.regRead sel) else .error .reservedSelector := by
  obtain ⟨hop, hres, hsel⟩ := regReadWord_parts sel
  simp only [decode, hop, formatS5, hres, hsel, if_true]

/-! ### The registers -/

/-- The model's STATUS holds the numbers of R35 and R330. -/
theorem State.statusWord_eq_ofNat (s : State) :
    s.statusWord = BitVec.ofNat 32 (16 * stageNumber s.mstage + errNumber s.err) := by
  have layout : ∀ (m : MStage) (e : ErrCode),
      zext32 m.code <<< 4 ||| zext32 e.code = BitVec.ofNat 32 (16 * stageNumber m + errNumber e) := by
    intro m e
    cases m <;> cases e <;> rfl
  exact layout s.mstage s.err

/-- The selectors 16 to 23 name the eight entries of PEN (R44). -/
theorem State.readReg_pen (s : State) (m : BitVec 3) :
    s.readReg (BitVec.ofNat 5 (16 + m.toNat)) = some (s.penOf m) := by
  have hm := m.isLt
  have hsel : (BitVec.ofNat 5 (16 + m.toNat)).toNat = 16 + m.toNat := by
    rw [BitVec.toNat_ofNat]
    omega
  unfold State.readReg
  split
  case h_10 =>
    rw [hsel, if_pos (by omega), Nat.add_sub_cancel_left, BitVec.ofNat_toNat, BitVec.setWidth_eq]
  all_goals omega

/-- A REG_READ whose selector names a register answers it, past the error gate, and changes nothing else (R306, R335). -/
theorem exec_regRead {sel : BitVec 5} {s : State} {w : Word} (h : s.readReg sel = some w) :
    exec (.regRead sel) s = .next (success s w) := by
  change execRegRead sel s = _
  rw [execRegRead, perform_done (t := s) (r := w) (by simp only [h]), State.respond_ok]

/-- Settles O51: the words decode by their selector, and each selector's register is read by `State.readReg`. -/
theorem regReadReturnsTheRegister : Obligations.RegReadReturnsTheRegister := by
  refine ⟨fun sel a0 a1 h => ?legal, fun sel a0 a1 h => ?reserved, fun s => ?registers⟩
  case legal => rw [decode_regReadWord, if_pos h]
  case reserved => rw [decode_regReadWord, h, if_neg Bool.false_ne_true]
  case registers =>
    have hstatus : s.readReg 0 = some (BitVec.ofNat 32 (16 * stageNumber s.mstage + errNumber s.err)) :=
      congrArg some s.statusWord_eq_ofNat
    have hversion : s.readReg 1 = some (BitVec.ofNat 32 s.version.toNat) := congrArg some (BitVec.ofNat_toNat ..).symm
    have hmask : s.readReg 2 = some (BitVec.ofNat 32 s.mask.toNat) := congrArg some (BitVec.ofNat_toNat ..).symm
    have htxtLen : s.readReg 3 = some (BitVec.ofNat 32 s.txtLen.toNat) := congrArg some (BitVec.ofNat_toNat ..).symm
    have hbbLen : s.readReg 4 = some (BitVec.ofNat 32 s.bb.length) := rfl
    exact ⟨exec_regRead hstatus, exec_regRead hversion, exec_regRead hmask, exec_regRead htxtLen, exec_regRead hbbLen,
      exec_regRead rfl, exec_regRead rfl, exec_regRead rfl, exec_regRead rfl, fun m => exec_regRead (s.readReg_pen m)⟩

end Sys2Proof.Machine
end

section
/-! PROOFS. Which command words the decoder accepts, what an illegal one does, and the worked encodings (R99, R101, R104). -/

open Sys2Proof.Claims

namespace Sys2Proof.Machine

/-! ### The decoder accepts exactly the legal words -/

/-- No opcode has two rows in the map of R98: its rows stand in the order of their opcodes. -/
theorem opcodeMap_row_unique {row row' : BitVec 8 × Word} (h : row ∈ opcodeMap) (h' : row' ∈ opcodeMap)
    (hop : row.1 = row'.1) : row = row' := by
  have ordered : (opcodeMap.map Prod.fst).IsChain (· < ·) := by decide
  have nodup : (opcodeMap.map Prod.fst).Nodup := ordered.pairwise.imp BitVec.ne_of_lt
  exact List.inj_on_of_nodup_map nodup h h' hop

/-- A word whose opcode has a row in the map is legal when its row's reserved bits are 0 and, for REG_READ, its selector is
legal (R99). -/
theorem legalWord_iff_of_row {w : Word} {op : BitVec 8} {mask : Word} (hop : opcodeOf w = op)
    (hrow : (op, mask) ∈ opcodeMap) :
    legalWord w ↔ w &&& mask = 0 ∧ (op = 0x72#8 → legalSelector (w.extractLsb' 0 5) = true) := by
  subst hop
  have hmask : (∃ row ∈ opcodeMap, opcodeOf w = row.1 ∧ w &&& row.2 = 0) ↔ w &&& mask = 0 := by
    constructor
    · rintro ⟨row, hmem, hop, hclear⟩
      rwa [← opcodeMap_row_unique hrow hmem hop] at hclear
    · exact fun hclear => ⟨_, hrow, rfl, hclear⟩
  unfold legalWord
  refine and_congr hmask (imp_congr Iff.rfl ?_)
  simp [legalSelector]

/-- The reserved-bit check of R101. -/
theorem reservedClear_iff (mask w : Word) : reservedClear mask w = true ↔ w &&& mask = 0 := beq_iff_eq

/-- A format without a reserved value accepts the words whose reserved bits are 0 (R94). -/
theorem withFormat_eq_ok_iff (mask w : Word) (i : Instr) :
    (∃ j, withFormat mask w i = .ok j) ↔ w &&& mask = 0 := by
  rw [← reservedClear_iff, withFormat]
  split <;> simp [*]

/-- Format S5 accepts the words whose reserved bits are 0 and whose selector is legal (R97). -/
theorem formatS5_eq_ok_iff (w : Word) (i : BitVec 5 → Instr) :
    (∃ j, formatS5 w i = .ok j) ↔ w &&& 0xFFFFE0 = 0 ∧ legalSelector (w.extractLsb' 0 5) = true := by
  rw [← reservedClear_iff, formatS5]
  split
  · split <;> simp [*]
  · simp [*]

/-- The row of a command other than REG_READ accepts the legal words of its opcode. -/
theorem withFormat_eq_ok_iff_legalWord {w : Word} {op : BitVec 8} {mask : Word} (i : Instr) (hop : opcodeOf w = op)
    (hrow : (op, mask) ∈ opcodeMap) (hne : op ≠ 0x72#8) :
    (∃ j, withFormat mask w i = .ok j) ↔ legalWord w := by
  rw [withFormat_eq_ok_iff, legalWord_iff_of_row hop hrow]
  exact (and_iff_left fun h => absurd h hne).symm

/-- The decoder accepts exactly the words R99 does not call illegal. -/
theorem decode_eq_ok_iff_legalWord (c : Command) : (∃ i, decode c = .ok i) ↔ legalWord c.cmd := by
  unfold decode
  split
  case h_28 hop =>
    rw [formatS5_eq_ok_iff, legalWord_iff_of_row hop (mask := 0xFFFFE0) (by decide)]
    exact and_congr_right fun _ => (imp_iff_right rfl).symm
  case h_31 =>
    have unassigned : ∀ row ∈ opcodeMap, opcodeOf c.cmd ≠ row.1 := by
      intro row hmem
      fin_cases hmem <;> assumption
    constructor
    · rintro ⟨_, h⟩
      cases h
    · rintro ⟨⟨row, hmem, hop, -⟩, -⟩
      exact absurd hop (unassigned row hmem)
  all_goals
    exact withFormat_eq_ok_iff_legalWord _ ‹opcodeOf c.cmd = _› (by decide) (by decide)

/-! ### An illegal word performs nothing -/

/-- A word the decoder refuses takes IllegalCommand, whatever the reason and whatever error is pending (R99, R334). -/
theorem runCommand_of_decode_error {c : Command} {e : DecodeError} (h : decode c = .error e) (s : State) :
    runCommand c s = .next (s.fail .illegal) := by
  rw [runCommand, h]

/-- A word that is not legal takes IllegalCommand. -/
theorem runCommand_of_not_legalWord {c : Command} (h : ¬ legalWord c.cmd) (s : State) :
    runCommand c s = .next (s.fail .illegal) := by
  cases hd : decode c with
  | ok i => exact absurd ((decode_eq_ok_iff_legalWord c).1 ⟨i, hd⟩) h
  | error e => exact runCommand_of_decode_error hd s

/-- Settles O4: the decoder accepts exactly the legal words, and `State.fail` gives the state after any other. -/
theorem illegalWordsPerformNothing : Obligations.IllegalWordsPerformNothing :=
  ⟨fun _ s h => runCommand_of_not_legalWord h s, fun c h => (decode_eq_ok_iff_legalWord c).2 h⟩

/-- Settles O3: ten closed equations, evaluated. -/
theorem workedEncodings : Obligations.WorkedEncodings := by
  unfold Obligations.WorkedEncodings
  decide

end Sys2Proof.Machine
end

section
/-! PROOFS. What the commands' rules share: the outcome of a gated command in the words of the claims, what holds of the states a
rule answers, and the command words that carry one field in their low bits (R94, R121, R334, R335). -/

open Sys2Proof.Claims

namespace Sys2Proof.Machine

/-! ### The outcome of a gated command while no error is pending -/

/-- Taking an error while none is pending is the claims' `failure`. -/
theorem State.fail_of_err_ok {s : State} (h : s.err = .ok) (e : ErrCode) : s.fail e = failure s e := by
  rw [State.fail, h]
  rfl

/-- A gated command whose rule completes. -/
theorem gated_eq_success {body : Body} {s t : State} {r : Word} (h : s.err = .ok) (hb : body s = .ok (t, r)) :
    gated body s = .next (success t r) := by
  rw [gated_done h hb, State.respond_ok]

/-- A gated command whose rule raises an error. -/
theorem gated_eq_failure {body : Body} {s : State} {e : ErrCode} (h : s.err = .ok) (hb : body s = raise e) :
    gated body s = .next (failure s e) := by
  rw [gated_raise h hb, State.fail_of_err_ok h]

/-! ### What a rule yields -/

/-- Every value the computation ends with satisfies `P`; an error or a fault ends with none. -/
def Exec.Yields {α : Type} (x : Exec α) (P : α → Prop) : Prop := ∀ a, x = .ok a → P a

section Yields
variable {α β : Type} {P : α → Prop} {Q : β → Prop}

@[simp] theorem Exec.yields_ok (a : α) : Exec.Yields (.ok a) P ↔ P a :=
  ⟨fun h => h a rfl, fun h _ ha => Except.ok.inj ha ▸ h⟩

@[simp] theorem Exec.yields_pure (a : α) : Exec.Yields (pure a) P ↔ P a := Exec.yields_ok a

@[simp] theorem Exec.yields_raise (e : ErrCode) : Exec.Yields (raise e) P := fun _ h => nomatch h

@[simp] theorem Exec.yields_bind (x : Exec α) (f : α → Exec β) :
    Exec.Yields (x >>= f) Q ↔ Exec.Yields x fun a => Exec.Yields (f a) Q := by
  constructor
  · intro h a ha b hb
    exact h b (by rw [ha]; exact hb)
  · intro h b hb
    obtain ⟨a, ha, hfa⟩ := Exec.bind_ok hb
    exact h a ha b hfa

@[simp] theorem Exec.yields_ite (c : Prop) [Decidable c] (x y : Exec α) :
    Exec.Yields (if c then x else y) P ↔ (c → Exec.Yields x P) ∧ (¬ c → Exec.Yields y P) := by
  split <;> simp [*]

@[simp] theorem Exec.yields_map (f : α → β) (x : Exec α) :
    Exec.Yields (f <$> x) Q ↔ Exec.Yields x fun a => Q (f a) := by
  rw [map_eq_pure_bind, Exec.yields_bind]
  simp

/-- What needs no premise about the value holds of whatever a computation ends with. -/
@[simp] theorem Exec.yields_true (x : Exec α) : Exec.Yields x fun _ => True := fun _ _ => trivial

end Yields

/-! ### Command words with one field in their low bits -/

section LowField
variable {n : Nat} (op : BitVec 8) (x : BitVec n)

/-- The opcode of a command word whose one field has at most 24 bits (R93). -/
theorem opcodeOf_commandWord_zext32 (hn : n ≤ 24) : opcodeOf (commandWord op (zext32 x)) = op := by
  refine BitVec.eq_of_getLsbD_eq fun i hi => ?_
  have hx : x.getLsbD (24 + i) = false := BitVec.getLsbD_of_ge x _ (by omega)
  have h24 : 24 + i < 32 := by omega
  simp [opcodeOf, commandWord, field, hx, hi, h24]

/-- The field of such a command word, read back (R94). -/
theorem extractLsb'_commandWord_zext32 (hn : n ≤ 24) : (commandWord op (zext32 x)).extractLsb' 0 n = x := by
  refine BitVec.eq_of_getLsbD_eq fun i hi => ?_
  have h24 : i < 24 := by omega
  have h32 : i < 32 := by omega
  simp [commandWord, field, hi, h24, h32]

/-- The reserved bits of such a command word are 0: the mask lies between the field and the opcode (R101). -/
theorem reservedClear_commandWord_zext32 {mask : Word} (hmask : ∀ i < 32, mask.getLsbD i = true → n ≤ i ∧ i < 24) :
    reservedClear mask (commandWord op (zext32 x)) = true := by
  rw [reservedClear_iff]
  refine BitVec.eq_of_getLsbD_eq fun i hi => ?_
  by_cases hm : mask.getLsbD i = true
  · obtain ⟨hni, h24⟩ := hmask i hi hm
    have hx : x.getLsbD i = false := BitVec.getLsbD_of_ge x i hni
    simp [commandWord, field, hx, h24]
  · simp [hm]

end LowField

end Sys2Proof.Machine
end

section
/-! PROOFS. The bit buffer: which commands write it, and what the six bit buffer commands answer (40_bit_buffer.md). -/

open Sys2Proof.Claims

namespace Sys2Proof.Machine

/-! ### The buffer only grows -/

/-- The state a rule commits holds the bits of `s` first, in the same order. -/
def KeepsBits (s : State) (x : Exec (State × Word)) : Prop := x.Yields fun p => s.bb <+: p.1.bb

/-- An append adds bits at the end and changes none (R121). -/
theorem appendBits_yields_prefix (bb : List Bool) (value n : Nat) : (appendBits bb value n).Yields fun bb' => bb <+: bb' := by
  rcases appendBits_cases bb value n with ⟨-, -, h⟩ | ⟨-, h⟩
  · simp [h]
  · simp [h]

/-- Scoring the masks touches no bit of the buffer. -/
@[simp] theorem State.scoreAll_bb (s : State) : s.scoreAll.bb = s.bb := by simp [State.scoreAll, allMasks]

/-- An answer that is not committed keeps the whole buffer, so a performed rule keeps its bits when its commits do (R14). -/
theorem bb_prefix_of_perform {body : Body} {s t : State} (h : perform body s = .next t) (hb : KeepsBits s (body s)) :
    s.bb <+: t.bb := by
  rcases perform_next h with ⟨s', r, hok, rfl⟩ | ⟨e, -, rfl⟩
  · exact hb _ hok
  · exact List.prefix_rfl

/-- The same behind the gate (R335). -/
theorem bb_prefix_of_gated {body : Body} {s t : State} (h : gated body s = .next t) (hb : KeepsBits s (body s)) :
    s.bb <+: t.bb := by
  by_cases he : s.err = .ok
  · rw [gated_open he] at h
    exact bb_prefix_of_perform h hb
  · rw [gated_pending he] at h
    cases h
    exact List.prefix_rfl

/-- Every command but BB_CLEAR, DE_ENCODE and ENCODE keeps the bits of the buffer: only the appends write it, at its end (R131). -/
theorem exec_bb_prefix {i : Instr} {s t : State} (h : exec i s = .next t) (hclear : i ≠ .bbClear) (hde : i ≠ .deEncode)
    (henc : i ≠ .encode) : s.bb <+: t.bb := by
  cases i with
  | bbClear => exact absurd rfl hclear
  | deEncode => exact absurd rfl hde
  | encode => exact absurd rfl henc
  | nop => exact bb_prefix_of_perform (body := fun s => .ok (s, 0)) h (by simp [KeepsBits])
  | errClear => exact bb_prefix_of_perform (body := fun s => .ok (s.clearErr, zext32 s.err.code)) h (by simp [KeepsBits])
  | regRead =>
    simp only [exec, execRegRead] at h
    refine bb_prefix_of_perform h ?_
    split <;> simp [KeepsBits]
  | bbAppend nbits value =>
    refine bb_prefix_of_gated h ?_
    simpa [KeepsBits] using appendBits_yields_prefix s.bb value.toNat nbits.toNat
  | bbAppendByte byte =>
    refine bb_prefix_of_gated h ?_
    simpa [KeepsBits] using appendBits_yields_prefix s.bb byte.toNat 8
  | bbGetbit | bbGetbyte =>
    refine bb_prefix_of_gated h ?_
    split <;> simp [KeepsBits]
  | bbLength | lenSet | verSet | gfExp | gfLog | gfMul | gfDiv | mbCell | mbIsdark | mbPenalty | rsGen | rsEncode | wrWrite |
      wrRead =>
    exact bb_prefix_of_gated h (by simp [KeepsBits])
  | deSelect | cwBuild | mbFunc | mbPlace | mbFinal | mbSelect =>
    refine bb_prefix_of_gated h ?_
    simp [KeepsBits, deSelectBody, cwBuildBody, mbFuncBody, mbPlaceBody, mbFinalBody, mbSelectBody]

/-- Settles O16: of the other commands only the appends write the buffer, and they write at its end. -/
theorem bitBufferOnlyGrows : Obligations.BitBufferOnlyGrows := by
  intro i s t h hclear hde henc
  obtain ⟨more, hmore⟩ := exec_bb_prefix h hclear hde henc
  exact ⟨more, hmore.symm⟩

/-! ### BB_CLEAR and BB_LENGTH -/

/-- BB_CLEAR's word decodes whatever the argument words are (R90, R94). -/
theorem decode_bbClearWord (a0 a1 : Word) : decode ⟨0x10000000, a0, a1⟩ = .ok .bbClear := by
  simp [decode, opcodeOf, formatN, withFormat, reservedClear]

/-- BB_LENGTH's word decodes whatever the argument words are (R90, R94). -/
theorem decode_bbLengthWord (a0 a1 : Word) : decode ⟨0x13000000, a0, a1⟩ = .ok .bbLength := by
  simp [decode, opcodeOf, formatN, withFormat, reservedClear]

/-- Settles O12: both rules complete in every state. -/
theorem bitBufferClearAndLength : Obligations.BitBufferClearAndLength :=
  ⟨decode_bbClearWord, decode_bbLengthWord, fun _ hs => ⟨gated_eq_success hs rfl, gated_eq_success hs rfl⟩⟩

/-! ### The appends -/

/-- The model's bits of a value are the claims' (R77). -/
theorem msbBits_eq_bitsOf (n value : Nat) : msbBits n value = bitsOf n value := by
  refine List.ext_getElem (by simp [bitsOf]) fun k hk _ => ?_
  rw [getElem_msbBits hk]
  simp [bitsOf]

/-- A BB_APPEND word decodes for every bit count, 33 to 63 included (R94, R124). -/
theorem decode_bbAppendWord (nbits : BitVec 6) (value a1 : Word) :
    decode ⟨0x11000000 ||| zext32 nbits, value, a1⟩ = .ok (.bbAppend nbits value) := by
  change decode ⟨commandWord 0x11#8 (zext32 nbits), value, a1⟩ = _
  simp only [decode, formatNB, withFormat, opcodeOf_commandWord_zext32 0x11#8 nbits (by decide),
    extractLsb'_commandWord_zext32 0x11#8 nbits (by decide),
    reservedClear_commandWord_zext32 0x11#8 nbits (mask := 0xFFFFC0#32) (by decide), if_true]

/-- A BB_APPEND_BYTE word decodes (R94, R126). -/
theorem decode_bbAppendByteWord (byte : Byte) (a0 a1 : Word) :
    decode ⟨0x12000000 ||| zext32 byte, a0, a1⟩ = .ok (.bbAppendByte byte) := by
  change decode ⟨commandWord 0x12#8 (zext32 byte), a0, a1⟩ = _
  simp only [decode, formatI8, withFormat, opcodeOf_commandWord_zext32 0x12#8 byte (by decide),
    extractLsb'_commandWord_zext32 0x12#8 byte (by decide),
    reservedClear_commandWord_zext32 0x12#8 byte (mask := 0xFFFF00#32) (by decide), if_true]

/-- The rule the two appends share: `n` bits of a value at the end of the buffer, RESULT 0 (R124, R126). -/
def appendBody (value n : Nat) : Body := fun s => do
  let bb ← appendBits s.bb value n
  return ({ s with bb := bb }, 0)

theorem exec_bbAppend (nbits : BitVec 6) (value : Word) (s : State) :
    exec (.bbAppend nbits value) s = gated (appendBody value.toNat nbits.toNat) s := rfl

theorem exec_bbAppendByte (byte : Byte) (s : State) :
    exec (.bbAppendByte byte) s = gated (appendBody byte.toNat 8) s := rfl

/-- An append that fits (R121). -/
theorem gated_appendBody_fits {s : State} (hs : s.err = .ok) (value : Nat) {n : Nat} (hn : n ≤ 32)
    (hroom : s.bb.length + n ≤ 8192) :
    gated (appendBody value n) s = .next (success { s with bb := s.bb ++ bitsOf n value } 0) := by
  refine gated_eq_success hs ?_
  rw [appendBody, appendBits_ok hn hroom, msbBits_eq_bitsOf]
  rfl

/-- An append of too many bits, or of more than there is room for, is a RangeError (R121). -/
theorem gated_appendBody_overflows {s : State} (hs : s.err = .ok) (value : Nat) {n : Nat}
    (h : 32 < n ∨ 8192 < s.bb.length + n) : gated (appendBody value n) s = .next (failure s .range) := by
  refine gated_eq_failure hs ?_
  rcases appendBits_cases s.bb value n with ⟨hn, hroom, -⟩ | ⟨-, hraise⟩
  · exact absurd h (not_or.2 ⟨Nat.not_lt.2 hn, Nat.not_lt.2 hroom⟩)
  · rw [appendBody, hraise]
    rfl

/-- Settles O13: the words by their one field, the four outcomes by the rule the appends share. -/
theorem bitBufferAppends : Obligations.BitBufferAppends := by
  refine ⟨decode_bbAppendWord, decode_bbAppendByteWord, fun s hs => ⟨?_, ?_, ?_, ?_⟩⟩
  · intro nbits value hn hroom
    rw [exec_bbAppend, gated_appendBody_fits hs _ hn hroom]
  · intro nbits value h
    rw [exec_bbAppend, gated_appendBody_overflows hs _ h]
  · intro byte hroom
    rw [exec_bbAppendByte, gated_appendBody_fits hs _ (by decide) hroom]
  · intro byte hfull
    rw [exec_bbAppendByte, gated_appendBody_overflows hs _ (.inr hfull)]

/-! ### The reads -/

/-- Bit `i` of the number is bit `i` of the list, counted from its end (R78). -/
theorem testBit_ofMsbBits_reverse (bits : List Bool) (i : Nat) :
    (ofMsbBits bits.reverse).testBit i = bits.getD i false := by
  induction bits generalizing i with
  | nil => simp [ofMsbBits]
  | cons b bs ih =>
    rw [List.reverse_cons, ofMsbBits_snoc, ← Nat.bit_val]
    cases i with
    | zero => rw [Nat.testBit_bit_zero, List.getD_cons_zero]
    | succ i => rw [Nat.testBit_bit_succ, ih, List.getD_cons_succ]

/-- Place `j` of a list of bits is bit `length - 1 - j` of its number: the first place is the most significant (R78). -/
theorem testBit_ofMsbBits {bits : List Bool} {j : Nat} (h : j < bits.length) :
    (ofMsbBits bits).testBit (bits.length - 1 - j) = bits.getD j false := by
  have hread := testBit_ofMsbBits_reverse bits.reverse (bits.length - 1 - j)
  rw [List.reverse_reverse] at hread
  rw [hread, List.getD_eq_getElem?_getD, List.getElem?_reverse (by omega), List.getD_eq_getElem?_getD,
    show bits.length - 1 - (bits.length - 1 - j) = j by omega]

/-- A byte that is wholly in the buffer holds its eight bits, the first one most significant (R78, R130). -/
theorem byteOfBits_eq_some {bb : List Bool} {k : Nat} (h : 8 * k + 8 ≤ bb.length) :
    ∃ b, byteOfBits bb k = some b ∧ ∀ j < 8, b.getLsbD (7 - j) = bb.getD (8 * k + j) false := by
  refine ⟨_, if_pos h, fun j hj => ?_⟩
  have hlen : ((bb.drop (8 * k)).take 8).length = 8 := by
    rw [List.length_take, List.length_drop]
    omega
  have hbit := testBit_ofMsbBits (hlen.symm ▸ hj)
  rw [hlen] at hbit
  rw [BitVec.getLsbD_ofNat, decide_eq_true (by omega), Bool.true_and, hbit]
  simp [hj]

/-- A byte that is not wholly in the buffer is none (R130). -/
theorem byteOfBits_eq_none {bb : List Bool} {k : Nat} (h : bb.length < 8 * k + 8) : byteOfBits bb k = none :=
  if_neg (Nat.not_le.2 h)

/-- BB_GETBIT's word decodes to its ARG0 (R94, R96). -/
theorem decode_bbGetbitWord (index a1 : Word) : decode ⟨0x14000000, index, a1⟩ = .ok (.bbGetbit index) := by
  simp [decode, opcodeOf, formatN, withFormat, reservedClear]

/-- BB_GETBYTE's word decodes to its ARG0 (R94, R96). -/
theorem decode_bbGetbyteWord (k a1 : Word) : decode ⟨0x15000000, k, a1⟩ = .ok (.bbGetbyte k) := by
  simp [decode, opcodeOf, formatN, withFormat, reservedClear]

/-- Settles O14: BB_GETBIT by the list's own bound, BB_GETBYTE by what `byteOfBits` answers. -/
theorem bitBufferReads : Obligations.BitBufferReads := by
  refine ⟨decode_bbGetbitWord, decode_bbGetbyteWord, fun s hs => ⟨?_, ?_, ?_, ?_⟩⟩
  · intro index h
    exact gated_eq_success hs (by rw [List.getElem?_eq_getElem h])
  · intro index h
    exact gated_eq_failure hs (by rw [List.getElem?_eq_none h])
  · intro k h
    obtain ⟨b, hbyte, hbits⟩ := byteOfBits_eq_some h
    exact ⟨b, hbits, gated_eq_success hs (by rw [hbyte])⟩
  · intro k h
    exact gated_eq_failure hs (by rw [byteOfBits_eq_none h])

end Sys2Proof.Machine
end

section
/-! PROOFS. The data formatter: the version tables, the choice of the version, and the stream DE_ENCODE writes
(41_data_encoder.md). -/

open Sys2Proof.Claims

namespace Sys2Proof.Machine

/-! ### The version tables -/

/-- Settles O19: fifteen rows of closed table entries, compared one by one. -/
theorem versionTablesAgree : Obligations.VersionTablesAgree := by
  intro v h1 h15
  interval_cases v <;> decide

/-- A character-count field has 8 or 16 bits (R142). -/
theorem countWidth_cases (v : Nat) : countWidth v = 8 ∨ countWidth v = 16 := by
  unfold countWidth
  split <;> simp

/-- The length accounting of R157: mode, count, a text that fits, four more bits and the pad bytes fill the version exactly. -/
theorem stream_fills_version {v len : Nat} (h1 : 1 ≤ v) (h15 : v ≤ 15) (hlen : len ≤ entry capTable v) :
    4 + countWidth v + 8 * len + 4 + 8 * (entry dataTable v - 1 - countWidth v / 8 - len) = 8 * entry dataTable v := by
  obtain ⟨hcap, hdata, -, -, -, -, -, hfollows, hmod, -⟩ := versionTablesAgree v h1 h15
  rw [← hcap, hfollows, hdata] at hlen
  rw [hdata] at hmod
  rcases countWidth_cases v with hw | hw <;> rw [hw] at hlen hmod ⊢ <;> omega

/-! ### LEN_SET and VER_SET -/

/-- A LEN_SET word decodes for every length, 521 to 1023 included (R94, R144). -/
theorem decode_lenSetWord (len : BitVec 10) (a0 a1 : Word) :
    decode ⟨0x20000000 ||| zext32 len, a0, a1⟩ = .ok (.lenSet len) := by
  change decode ⟨commandWord 0x20#8 (zext32 len), a0, a1⟩ = _
  simp only [decode, formatL10, withFormat, opcodeOf_commandWord_zext32 0x20#8 len (by decide),
    extractLsb'_commandWord_zext32 0x20#8 len (by decide),
    reservedClear_commandWord_zext32 0x20#8 len (mask := 0xFFFC00#32) (by decide), if_true]

/-- A VER_SET word decodes for every version, 0 included (R94, R146). -/
theorem decode_verSetWord (ver : BitVec 4) (a0 a1 : Word) :
    decode ⟨0x21000000 ||| zext32 ver, a0, a1⟩ = .ok (.verSet ver) := by
  change decode ⟨commandWord 0x21#8 (zext32 ver), a0, a1⟩ = _
  simp only [decode, formatV4, withFormat, opcodeOf_commandWord_zext32 0x21#8 ver (by decide),
    extractLsb'_commandWord_zext32 0x21#8 ver (by decide),
    reservedClear_commandWord_zext32 0x21#8 ver (mask := 0xFFFFF0#32) (by decide), if_true]

/-- Settles O17: both rules complete in every state, for every operand. -/
theorem lengthAndVersionSet : Obligations.LengthAndVersionSet :=
  ⟨decode_lenSetWord, decode_verSetWord,
    fun _ hs => ⟨fun _ => gated_eq_success hs rfl, fun _ => gated_eq_success hs rfl⟩⟩

/-! ### DE_SELECT -/

/-- DE_SELECT's word decodes whatever the argument words are (R90, R94). -/
theorem decode_deSelectWord (a0 a1 : Word) : decode ⟨0x22000000, a0, a1⟩ = .ok .deSelect := by
  simp [decode, opcodeOf, formatN, withFormat, reservedClear]

/-- The search of R147 from version 1 up finds the least version that holds the length; version 15 holds every length it is
made for. -/
theorem selectVersion_eq_ok {len : Nat} (hlen : len ≤ 520) : ∃ v, leastVersion len v ∧ selectVersion len = .ok v := by
  have cap_eq : ∀ u, 1 ≤ u → u ≤ 15 → Rom.cap u = entry capTable u := fun u h1 h15 => (versionTablesAgree u h1 h15).1
  cases hfind : (List.range' 1 15).find? fun v => decide (len ≤ Rom.cap v) with
  | none =>
    have hno := List.find?_eq_none.1 hfind 15 (by simp)
    exact absurd (decide_eq_true hlen) hno
  | some v =>
    obtain ⟨hfits, hmem, hbelow⟩ := List.find?_range'_eq_some.1 hfind
    obtain ⟨h1, h16⟩ := List.mem_range'_1.1 hmem
    have h15 : v ≤ 15 := by omega
    refine ⟨v, ⟨h1, h15, ?_, fun u hu huv => ?_⟩, ?_⟩
    · rw [← cap_eq v h1 h15]
      exact of_decide_eq_true hfits
    · have := hbelow u hu huv
      rw [← cap_eq u hu (by omega)]
      simpa using this
    · have hmax : ¬ Config.lMax < len := Nat.not_lt.2 hlen
      rw [selectVersion, if_neg hmax, hfind]

/-- A length above LMAX has no version (R147). -/
theorem selectVersion_eq_raise {len : Nat} (hlen : 520 < len) : selectVersion len = raise .capacity := if_pos hlen

/-- DE_SELECT's rule once the version is known (R148). -/
theorem deSelectBody_eq_ok {s : State} {v : Nat} (h : selectVersion s.txtLen.toNat = .ok v) :
    deSelectBody s = .ok (s.setVersion (BitVec.ofNat 4 v), BitVec.ofNat 32 v) := by
  rw [deSelectBody, h]
  rfl

/-- DE_SELECT's rule where no version holds the text (R148). -/
theorem deSelectBody_eq_raise {s : State} {e : ErrCode} (h : selectVersion s.txtLen.toNat = raise e) :
    deSelectBody s = raise e := by
  rw [deSelectBody, h]
  rfl

/-- Settles O18: by what the search of R147 answers on either side of LMAX. -/
theorem deSelectTakesTheLeastVersion : Obligations.DeSelectTakesTheLeastVersion := by
  refine ⟨decode_deSelectWord, fun s hs => ⟨fun hlen => ?_, fun hlen => ?_⟩⟩
  · obtain ⟨v, hleast, hselect⟩ := selectVersion_eq_ok hlen
    exact ⟨v, hleast, gated_eq_success hs (deSelectBody_eq_ok hselect)⟩
  · exact gated_eq_failure hs (deSelectBody_eq_raise (selectVersion_eq_raise hlen))

/-! ### The stream of DE_ENCODE -/

@[simp] theorem length_bitsOf (n x : Nat) : (bitsOf n x).length = n := by simp [bitsOf]

/-- Each value gives `n` bits. -/
theorem length_flatMap_bitsOf {α : Type} (n : Nat) (f : α → Nat) (xs : List α) :
    (xs.flatMap fun x => bitsOf n (f x)).length = n * xs.length := by
  simp [List.length_flatMap, Nat.mul_comm]

/-- An append that fits, in the bits of the claims (R121). -/
theorem appendBits_bitsOf {bb : List Bool} {n : Nat} (value : Nat) (hn : n ≤ 32) (hroom : bb.length + n ≤ 8192) :
    appendBits bb value n = .ok (bb ++ bitsOf n value) := by
  rw [← msbBits_eq_bitsOf]
  exact appendBits_ok hn hroom

/-- The bytes of a text that fits, in the bits of the claims (R152). -/
theorem appendBytes_bitsOf {bb : List Bool} {text : List Byte} (hroom : bb.length + 8 * text.length ≤ 8192) :
    appendBytes bb text = .ok (bb ++ text.flatMap fun b => bitsOf 8 b.toNat) := by
  simp only [← msbBits_eq_bitsOf]
  exact appendBytes_ok hroom

/-- The value of pad byte `p` (R155). -/
def padByte (p : Nat) : Nat := if p % 2 = 0 then 0xEC else 0x11

/-- While `n` bytes are missing to the capacity, the pad loop appends `n` pad bytes, from pad byte `p` on (R155). -/
theorem padBytes_eq_ok {capBits fuel p n : Nat} {bb : List Bool} (hfuel : n ≤ fuel) (hroom : bb.length + 8 * n = capBits)
    (hcap : capBits ≤ 8192) :
    padBytes capBits fuel p bb = .ok (bb ++ (List.range n).flatMap fun k => bitsOf 8 (padByte (p + k))) := by
  induction fuel generalizing p n bb with
  | zero =>
    obtain rfl : n = 0 := by omega
    simp [padBytes]
  | succ fuel ih =>
    cases n with
    | zero =>
      have hfull : ¬ bb.length < capBits := by omega
      simp [padBytes, hfull]
    | succ n =>
      have happend := appendBits_bitsOf (bb := bb) (n := 8) (padByte p) (by decide) (by omega)
      have hrest := ih (p := p + 1) (n := n) (bb := bb ++ bitsOf 8 (padByte p)) (by omega) (by simp; omega)
      rw [padBytes, if_pos (by omega)]
      change (appendBits bb (padByte p) 8 >>= padBytes capBits fuel (p + 1)) = _
      rw [happend]
      change padBytes capBits fuel (p + 1) _ = _
      rw [hrest, List.range_succ_eq_map]
      simp [List.flatMap_map, Nat.add_assoc, Nat.add_comm 1]

/-- Mode, count and data, the first three fields of the stream (R151, R152). -/
def streamHead (v : Nat) (text : List Byte) : List Bool :=
  bitsOf 4 0b0100 ++ bitsOf (countWidth v) text.length ++ text.flatMap fun b => bitsOf 8 b.toNat

@[simp] theorem length_streamHead (v : Nat) (text : List Byte) :
    (streamHead v text).length = 4 + countWidth v + 8 * text.length := by
  simp only [streamHead, List.length_append, length_bitsOf, length_flatMap_bitsOf]

/-- The claims' stream is the head, four zero bits and the pad bytes (R158). -/
theorem stream_eq_streamHead (v : Nat) (text : List Byte) :
    stream v text = streamHead v text ++ bitsOf 4 0 ++
      (List.range (entry dataTable v - 1 - countWidth v / 8 - text.length)).flatMap fun p => bitsOf 8 (padByte p) := rfl

section Fits
variable {v : Nat} {text : List Byte} (h1 : 1 ≤ v) (h15 : v ≤ 15) (hlen : text.length ≤ entry capTable v)
include h1 h15 hlen

/-- The stream of a text that fits fills the version's codewords (R156). -/
theorem length_stream : (stream v text).length = 8 * entry dataTable v := by
  have hfills := stream_fills_version h1 h15 hlen
  simp only [stream_eq_streamHead, List.length_append, length_streamHead, length_bitsOf, length_flatMap_bitsOf,
    List.length_range]
  exact hfills

/-- The model's stream of a text that fits is the claims': no append fails, the terminator has four bits, and there are no pad
bits (R157). -/
theorem formatStream_eq_ok : formatStream v text = .ok (stream v text) := by
  have hdata : Rom.dataCount v = entry dataTable v := (versionTablesAgree v h1 h15).2.1
  have hmax : entry dataTable v ≤ 523 := hdata ▸ (Rom.counts_fit v h15).1
  have hfills := stream_fills_version h1 h15 hlen
  have hwidth := countWidth_cases v
  have hhead := length_streamHead v text
  have hterminated : (streamHead v text ++ bitsOf 4 0).length = (streamHead v text).length + 4 := by simp
  have hmode : appendBits [] 0b0100 4 = .ok (bitsOf 4 0b0100) := appendBits_bitsOf _ (by decide) (by decide)
  have hcount : appendBits (bitsOf 4 0b0100) text.length (Rom.countBits v) =
      .ok (bitsOf 4 0b0100 ++ bitsOf (countWidth v) text.length) :=
    appendBits_bitsOf _ (show countWidth v ≤ 32 by omega) (show 4 + countWidth v ≤ 8192 by omega)
  have htext : appendBytes (bitsOf 4 0b0100 ++ bitsOf (countWidth v) text.length) text = .ok (streamHead v text) :=
    appendBytes_bitsOf (by simp only [List.length_append, length_bitsOf]; omega)
  have hterminator : appendBits (streamHead v text) 0 (min 4 (8 * entry dataTable v - (streamHead v text).length)) =
      .ok (streamHead v text ++ bitsOf 4 0) := by
    rw [Nat.min_eq_left (by omega)]
    exact appendBits_bitsOf _ (by decide) (by omega)
  have hnopad : appendBits (streamHead v text ++ bitsOf 4 0) 0 ((8 - (streamHead v text ++ bitsOf 4 0).length % 8) % 8) =
      .ok (streamHead v text ++ bitsOf 4 0) := by
    have haligned : (8 - (streamHead v text ++ bitsOf 4 0).length % 8) % 8 = 0 := by omega
    rw [haligned, appendBits_bitsOf _ (by decide) (by omega)]
    exact congrArg Except.ok (List.append_nil _)
  have hpad : padBytes (8 * entry dataTable v) (entry dataTable v) 0 (streamHead v text ++ bitsOf 4 0) =
      .ok (stream v text) := by
    rw [stream_eq_streamHead,
      padBytes_eq_ok (n := entry dataTable v - 1 - countWidth v / 8 - text.length) (by omega) (by omega) (by omega)]
    simp only [Nat.zero_add]
  simp only [formatStream, hdata, hmode, hcount, htext, hterminator, hnopad, hpad, bind, Except.bind]

end Fits

/-! ### The bytes of a bit buffer -/

/-- Bit `j` of byte `k`, most significant first, is bit `8k + j` of the buffer (R78, R156). -/
theorem getLsbD_bytesOfBits {n k j : Nat} {bb : List Bool} (hn : 8 * n ≤ bb.length) (hk : k < n) (hj : j < 8) :
    ((bytesOfBits n bb).getD k 0).getLsbD (7 - j) = bb.getD (8 * k + j) false := by
  have hk' : k < (bytesOfBits n bb).length := by rwa [length_bytesOfBits]
  obtain ⟨b, hbyte, hbits⟩ := byteOfBits_eq_some (bb := bb) (k := k) (by omega)
  have hb : (bytesOfBits n bb)[k] = b := Option.some.inj ((getElem_bytesOfBits hk' hn).symm.trans hbyte)
  rw [List.getD_eq_getElem _ _ hk', hb, hbits j hj]

/-- A store puts its bytes at their addresses and leaves the others (R71). -/
theorem storedAt_store (m : Memory) (base : Nat) (bytes : List Byte) : storedAt m (m.store base bytes) base bytes :=
  ⟨fun _ hk => Memory.lookup_store_inside hk, fun _ ha => Memory.lookup_store_outside ha⟩

/-! ### DE_ENCODE -/

/-- DE_ENCODE's word decodes whatever the argument words are (R90, R94). -/
theorem decode_deEncodeWord (a0 a1 : Word) : decode ⟨0x23000000, a0, a1⟩ = .ok .deEncode := by
  simp [decode, opcodeOf, formatN, withFormat, reservedClear]

/-- The TXT region has room for every TXT_LEN (R73, R74). -/
theorem txtRegion_fits (s : State) : Config.txtBase + s.txtLen.toNat ≤ Config.wramSize := by
  have := s.txtLen.isLt
  simp only [Config.txtBase, Config.wramSize]
  omega

/-- The text that is written is the text the machine reads (R74). -/
theorem text_eq_ok {s : State} {text : List Byte} (h : textIs s text) : s.text = .ok text :=
  Memory.readBytes_eq h.1 (txtRegion_fits s) h.2

/-- The versions that VERSION can hold (R36). -/
theorem ver_range {s : State} (hv : s.version ≠ 0) : 1 ≤ s.ver ∧ s.ver ≤ 15 := by
  have hlt := s.version.isLt
  have hne : s.version.toNat ≠ 0 := fun h => hv (BitVec.eq_of_toNat_eq h)
  unfold State.ver
  omega

/-- No version is set (R150). -/
theorem deEncodeBody_no_version {s : State} (hv : s.version = 0) : deEncodeBody s = raise .sequence := if_pos hv

section Versioned
variable {s : State} (hv : s.version ≠ 0)
include hv

/-- The model's capacity of a set version is the claims' (R145). -/
theorem cap_ver : Rom.cap s.ver = entry capTable s.version.toNat :=
  (versionTablesAgree s.ver (ver_range hv).1 (ver_range hv).2).1

/-- The text is too long for the version (R150). -/
theorem deEncodeBody_over_capacity (hlen : entry capTable s.version.toNat < s.txtLen.toNat) :
    deEncodeBody s = raise .capacity := by
  rw [← cap_ver hv] at hlen
  rw [deEncodeBody, if_neg hv, if_pos hlen]

variable (hlen : s.txtLen.toNat ≤ entry capTable s.version.toNat)
include hlen

/-- A fault in reading the text is the command's (R71). -/
theorem deEncodeBody_text_stops {f : Fault} (htext : s.text = stop f) : deEncodeBody s = stop f := by
  rw [← cap_ver hv] at hlen
  rw [deEncodeBody, if_neg hv, if_neg (Nat.not_lt.2 hlen), htext]
  rfl

/-- A text that fits: its stream in the buffer, the stream's bytes in the DATA region, their number in RESULT (R150, R156). -/
theorem deEncodeBody_eq_ok {text : List Byte} (htext : textIs s text) :
    deEncodeBody s = .ok
      ({ s with
          bb := stream s.version.toNat text
          wram := s.wram.store 0x000 (bytesOfBits (Rom.dataCount s.ver) (stream s.version.toNat text)) },
        BitVec.ofNat 32 (Rom.dataCount s.ver)) := by
  obtain ⟨h1, h15⟩ := ver_range hv
  have hstream : formatStream s.ver text = .ok (stream s.ver text) := formatStream_eq_ok h1 h15 (htext.1 ▸ hlen)
  have hdata : Rom.dataCount s.ver ≤ 523 := (Rom.counts_fit s.ver h15).1
  have hwrite := Memory.writeBytes_eq (m := s.wram) (a := Config.dataBase)
    (bs := bytesOfBits (Rom.dataCount s.ver) (stream s.ver text))
    (by rw [length_bytesOfBits]; simp only [Config.dataBase, Config.wramSize]; omega)
  rw [← cap_ver hv] at hlen
  rw [deEncodeBody, if_neg hv, if_neg (Nat.not_lt.2 hlen), text_eq_ok htext]
  change (formatStream s.ver text >>= _) = _
  rw [hstream]
  change (s.wram.writeBytes _ _ >>= _) = _
  rw [hwrite]
  rfl

end Versioned

/-- DE_ENCODE faults on an unwritten byte of the text (R71). -/
theorem deEncode_faultsOnUnwritten {s : State} (hs : s.err = .ok) (hv : s.version ≠ 0)
    (hlen : s.txtLen.toNat ≤ entry capTable s.version.toNat) : faultsOnUnwritten .deEncode s 0xC00 s.txtLen.toNat := by
  intro hunwritten
  obtain ⟨a, hlow, hhigh, hnone, hread⟩ := Memory.readBytes_unwritten (txtRegion_fits s) hunwritten
  exact ⟨a, ⟨hlow, hhigh, hnone⟩, gated_stop hs (deEncodeBody_text_stops hv hlen hread)⟩

/-- Settles O20: the stream by the length accounting of R157, its bytes by the reading of the buffer, and the other outcomes by
the checks of the rule in their order. -/
theorem deEncodeWritesTheStream : Obligations.DeEncodeWritesTheStream := by
  refine ⟨decode_deEncodeWord, fun s hs => ⟨?_, fun hv hlen => deEncode_faultsOnUnwritten hs hv hlen,
    fun hv => gated_eq_failure hs (deEncodeBody_no_version hv),
    fun hv hlen => gated_eq_failure hs (deEncodeBody_over_capacity hv hlen)⟩⟩
  intro text hv hlen htext
  obtain ⟨h1, h15⟩ := ver_range hv
  have hlength : (stream s.version.toNat text).length = 8 * entry dataTable s.version.toNat :=
    length_stream h1 h15 (htext.1 ▸ hlen)
  have hdata : Rom.dataCount s.ver = entry dataTable s.version.toNat := (versionTablesAgree s.ver h1 h15).2.1
  have hrun := gated_eq_success hs (deEncodeBody_eq_ok hv hlen htext)
  rw [hdata] at hrun
  refine ⟨hlength, bytesOfBits (entry dataTable s.version.toNat) (stream s.version.toNat text), length_bytesOfBits _ _,
    fun k j hk hj => ?_, ?_, storedAt_store _ _ _⟩
  · rw [length_bytesOfBits] at hk
    exact getLsbD_bytesOfBits hlength.ge hk hj
  · rw [length_bytesOfBits]
    exact hrun

end Sys2Proof.Machine
end

section
/-! PROOFS. GF(256): the tables as powers of α, the field laws, and the four commands (42_galois_field.md). -/

open Sys2Proof.Claims

namespace Sys2Proof.Machine

/-! ### The tables -/

/-- The EXP ROM follows the recurrence of R171. -/
theorem Rom.exp_succ : ∀ i ≤ 253, Rom.exp (i + 1) = timesAlpha (Rom.exp i) := by decide +kernel

/-- LOG undoes EXP, whose values are not 0 (R172). -/
theorem Rom.exp_ne_zero_and_log_exp : ∀ i < 255, Rom.exp i ≠ 0 ∧ Rom.log (Rom.exp i) = i := by decide +kernel

/-- EXP undoes LOG (R172). -/
theorem Rom.log_lt_and_exp_log : ∀ a : Byte, a ≠ 0 → Rom.log a < 255 ∧ Rom.exp (Rom.log a) = a := by decide +kernel

/-! ### Powers of α -/

/-- `α^i`, for every exponent: α has order 255 (R171, R176). -/
def alphaPow (i : Nat) : Byte := Rom.exp (i % 255)

@[simp] theorem alphaPow_ne_zero (i : Nat) : alphaPow i ≠ 0#8 :=
  (Rom.exp_ne_zero_and_log_exp (i % 255) (Nat.mod_lt i (by decide))).1

@[simp] theorem log_alphaPow (i : Nat) : Rom.log (alphaPow i) = i % 255 :=
  (Rom.exp_ne_zero_and_log_exp (i % 255) (Nat.mod_lt i (by decide))).2

theorem alphaPow_zero : alphaPow 0 = 1 := by decide

/-- α is the byte 2 (R171). -/
theorem alphaPow_one : alphaPow 1 = 2 := by decide

/-- A byte other than 0 is the power of α that LOG names. -/
theorem alphaPow_log {a : Byte} (ha : a ≠ 0) : alphaPow (Rom.log a) = a := by
  obtain ⟨hlt, hexp⟩ := Rom.log_lt_and_exp_log a ha
  rw [alphaPow, Nat.mod_eq_of_lt hlt, hexp]

/-- Every byte is 0 or a power of α (R171). -/
theorem eq_zero_or_alphaPow (a : Byte) : a = 0 ∨ ∃ i, a = alphaPow i := by
  by_cases ha : a = 0
  · exact .inl ha
  · exact .inr ⟨Rom.log a, (alphaPow_log ha).symm⟩

/-- Exponents that agree mod 255 name the same power. -/
theorem alphaPow_congr {i j : Nat} (h : i % 255 = j % 255) : alphaPow i = alphaPow j := congrArg Rom.exp h

/-- The recurrence of R171, past the end of the table as well: after `α^254` comes `α^0` again. -/
theorem alphaPow_succ (i : Nat) : alphaPow (i + 1) = timesAlpha (alphaPow i) := by
  have hlt : i % 255 < 255 := Nat.mod_lt i (by decide)
  by_cases hlast : i % 255 = 254
  · have hwrap : (i + 1) % 255 = 0 := by omega
    rw [alphaPow, alphaPow, hwrap, hlast]
    rfl
  · have hnext : (i + 1) % 255 = i % 255 + 1 := by omega
    rw [alphaPow, alphaPow, hnext, Rom.exp_succ _ (by omega)]

/-! ### Multiplication and division by exponents -/

@[simp] theorem gfmul_zero (a : Byte) : gfmul a 0#8 = 0#8 := if_pos (.inr rfl)

@[simp] theorem zero_gfmul (a : Byte) : gfmul 0#8 a = 0#8 := if_pos (.inl rfl)

/-- The product of two powers of α adds the exponents (R175). -/
@[simp] theorem gfmul_alphaPow (i j : Nat) : gfmul (alphaPow i) (alphaPow j) = alphaPow (i + j) := by
  rw [gfmul, if_neg (by simp), log_alphaPow, log_alphaPow, ← Nat.add_mod, alphaPow]

/-- A quotient whose dividend is not 0 subtracts the exponents (R179). -/
theorem gfdiv_eq_alphaPow {a : Byte} (ha : a ≠ 0) (b : Byte) :
    gfdiv a b = alphaPow (Rom.log a + 255 - Rom.log b) := if_neg ha

theorem gfmul_comm (a b : Byte) : gfmul a b = gfmul b a := by
  simp only [gfmul, or_comm (a := a = 0), Nat.add_comm (Rom.log a)]

theorem gfmul_assoc (a b c : Byte) : gfmul a (gfmul b c) = gfmul (gfmul a b) c := by
  obtain rfl | ⟨i, rfl⟩ := eq_zero_or_alphaPow a
  · simp
  obtain rfl | ⟨j, rfl⟩ := eq_zero_or_alphaPow b
  · simp
  obtain rfl | ⟨k, rfl⟩ := eq_zero_or_alphaPow c
  · simp
  simp [Nat.add_assoc]

theorem one_gfmul (a : Byte) : gfmul 1 a = a := by
  obtain rfl | ⟨i, rfl⟩ := eq_zero_or_alphaPow a
  · rfl
  · rw [← alphaPow_zero, gfmul_alphaPow, Nat.zero_add]

/-- Division by a byte other than 0 undoes multiplication by it (R179). -/
theorem gfmul_gfdiv (a : Byte) {b : Byte} (hb : b ≠ 0) : gfmul (gfdiv a b) b = a := by
  by_cases ha : a = 0
  · subst ha
    exact zero_gfmul b
  · have hlt := (Rom.log_lt_and_exp_log b hb).1
    calc gfmul (gfdiv a b) b
        = gfmul (alphaPow (Rom.log a + 255 - Rom.log b)) (alphaPow (Rom.log b)) := by
          rw [gfdiv_eq_alphaPow ha, alphaPow_log hb]
      _ = alphaPow (Rom.log a + 255 - Rom.log b + Rom.log b) := gfmul_alphaPow _ _
      _ = alphaPow (Rom.log a) := alphaPow_congr (by omega)
      _ = a := alphaPow_log ha

/-! ### Multiplication is linear over exclusive or -/

/-- Multiplication by α, the shift and reduction of R171, is linear. -/
theorem timesAlpha_xor (b c : Byte) : timesAlpha (b ^^^ c) = timesAlpha b ^^^ timesAlpha c := by
  have hreduce : (if (b ^^^ c).getLsbD 7 then 0x1D#8 else 0#8) =
      (if b.getLsbD 7 then 0x1D#8 else 0#8) ^^^ (if c.getLsbD 7 then 0x1D#8 else 0#8) := by
    rw [BitVec.getLsbD_xor]
    cases b.getLsbD 7 <;> cases c.getLsbD 7 <;> rfl
  rw [timesAlpha, timesAlpha, timesAlpha, hreduce, BitVec.shiftLeft_xor_distrib]
  ac_rfl

/-- A factor `α^(i+1)` is one multiplication by α more than `α^i` (R171, R175). -/
theorem alphaPow_succ_gfmul (i : Nat) (b : Byte) : gfmul (alphaPow (i + 1)) b = timesAlpha (gfmul (alphaPow i) b) := by
  obtain rfl | ⟨j, rfl⟩ := eq_zero_or_alphaPow b
  · simp [timesAlpha]
  · rw [gfmul_alphaPow, gfmul_alphaPow, Nat.add_right_comm, alphaPow_succ]

/-- A product with a power of α distributes: it is repeated multiplication by α. -/
theorem alphaPow_gfmul_xor (i : Nat) (b c : Byte) :
    gfmul (alphaPow i) (b ^^^ c) = gfmul (alphaPow i) b ^^^ gfmul (alphaPow i) c := by
  induction i with
  | zero => rw [alphaPow_zero, one_gfmul, one_gfmul, one_gfmul]
  | succ i ih => rw [alphaPow_succ_gfmul, alphaPow_succ_gfmul, alphaPow_succ_gfmul, ih, timesAlpha_xor]

theorem gfmul_xor (a b c : Byte) : gfmul a (b ^^^ c) = gfmul a b ^^^ gfmul a c := by
  obtain rfl | ⟨i, rfl⟩ := eq_zero_or_alphaPow a
  · simp
  · exact alphaPow_gfmul_xor i b c

/-- The reduction of R180: multiplication by 2 is one step of the recurrence. -/
theorem two_gfmul (a : Byte) : gfmul 2 a = timesAlpha a := by
  rw [← alphaPow_one, alphaPow_succ_gfmul, alphaPow_zero, one_gfmul]

/-- Settles O24: products and quotients add and subtract exponents, and multiplication by a
factor other than 0 is repeated multiplication by α, which is linear. -/
theorem galoisFieldLaws : Obligations.GaloisFieldLaws := fun a b c =>
  ⟨gfmul_comm a b, gfmul_assoc a b c, gfmul_xor a b c, (gfmul_comm a 1).trans (one_gfmul a), gfmul_zero a, two_gfmul a,
    fun ha => (gfmul_comm a _).trans (gfmul_gfdiv 1 ha), gfmul_gfdiv a⟩

/-! ### The command words -/

/-- Format I8 reads the byte in the low bits of a command word and finds the reserved bits 0 (R94). -/
theorem formatI8_commandWord (op : BitVec 8) (x : Byte) (i : Byte → Instr) :
    formatI8 (commandWord op (zext32 x)) i = .ok (i x) := by
  rw [formatI8, withFormat, reservedClear_commandWord_zext32 op x (by decide), if_pos rfl,
    extractLsb'_commandWord_zext32 op x (by decide)]

/-- A GF_EXP word decodes for every exponent (R94, R176). -/
theorem decode_gfExpWord (i : Byte) (a0 a1 : Word) : decode ⟨0x30000000 ||| zext32 i, a0, a1⟩ = .ok (.gfExp i) := by
  change decode ⟨commandWord 0x30#8 (zext32 i), a0, a1⟩ = _
  simp only [decode, opcodeOf_commandWord_zext32 0x30#8 i (by decide), formatI8_commandWord]

/-- A GF_LOG word decodes, 0 included (R94, R177). -/
theorem decode_gfLogWord (a : Byte) (a0 a1 : Word) : decode ⟨0x31000000 ||| zext32 a, a0, a1⟩ = .ok (.gfLog a) := by
  change decode ⟨commandWord 0x31#8 (zext32 a), a0, a1⟩ = _
  simp only [decode, opcodeOf_commandWord_zext32 0x31#8 a (by decide), formatI8_commandWord]

section TwoBytes
variable (op : BitVec 8) (a b : Byte)

/-- A command word with two byte fields is one with the 16-bit field they make (R94). -/
theorem commandWord_two_bytes :
    commandWord op (zext32 a <<< 8) ||| zext32 b = commandWord op (zext32 (a ++ b)) := by
  have hfields : zext32 (a ++ b) = zext32 a <<< 8 ||| zext32 b := BitVec.setWidth_append_eq_shiftLeft_setWidth_or
  rw [hfields, commandWord, commandWord, BitVec.or_assoc]

/-- The high byte field of such a word, read back (R94). -/
theorem extractLsb'_high_commandWord_append : (commandWord op (zext32 (a ++ b))).extractLsb' 8 8 = a := by
  have hfield := extractLsb'_commandWord_zext32 op (a ++ b) (by decide)
  rw [← BitVec.extractLsb'_extractLsb'_of_le (len' := 16) (by decide), hfield, BitVec.extractLsb'_append_eq_left]

/-- The low byte field of such a word, read back (R94). -/
theorem extractLsb'_low_commandWord_append : (commandWord op (zext32 (a ++ b))).extractLsb' 0 8 = b := by
  have hfield := extractLsb'_commandWord_zext32 op (a ++ b) (by decide)
  rw [← BitVec.extractLsb'_extractLsb'_of_le (len' := 16) (by decide), hfield, BitVec.extractLsb'_append_eq_right]

/-- Format P8 reads the two bytes of such a word and finds its reserved bits 0 (R94). -/
theorem formatP8_commandWord (i : Byte → Byte → Instr) :
    formatP8 (commandWord op (zext32 (a ++ b))) i = .ok (i a b) := by
  rw [formatP8, withFormat, reservedClear_commandWord_zext32 op (a ++ b) (by decide), if_pos rfl,
    extractLsb'_high_commandWord_append, extractLsb'_low_commandWord_append]

end TwoBytes

/-- A GF_MUL word decodes for every pair of operands (R94, R178). -/
theorem decode_gfMulWord (a b : Byte) (a0 a1 : Word) :
    decode ⟨0x32000000 ||| zext32 a <<< 8 ||| zext32 b, a0, a1⟩ = .ok (.gfMul a b) := by
  change decode ⟨commandWord 0x32#8 (zext32 a <<< 8) ||| zext32 b, a0, a1⟩ = _
  simp only [commandWord_two_bytes, decode, opcodeOf_commandWord_zext32 0x32#8 (a ++ b) (by decide),
    formatP8_commandWord]

/-- A GF_DIV word decodes for every pair of operands, the divisor 0 included (R94, R179). -/
theorem decode_gfDivWord (a b : Byte) (a0 a1 : Word) :
    decode ⟨0x33000000 ||| zext32 a <<< 8 ||| zext32 b, a0, a1⟩ = .ok (.gfDiv a b) := by
  change decode ⟨commandWord 0x33#8 (zext32 a <<< 8) ||| zext32 b, a0, a1⟩ = _
  simp only [commandWord_two_bytes, decode, opcodeOf_commandWord_zext32 0x33#8 (a ++ b) (by decide),
    formatP8_commandWord]

/-! ### The commands -/

/-- A product as the ROM's word (R175). -/
theorem zext32_gfmul (a b : Byte) :
    zext32 (gfmul a b) = if a = 0 ∨ b = 0 then 0 else zext32 (Rom.exp ((Rom.log a + Rom.log b) % 255)) :=
  apply_ite zext32 _ _ _

/-- A quotient as the ROM's word (R179). -/
theorem zext32_gfdiv (a b : Byte) :
    zext32 (gfdiv a b) = if a = 0 then 0 else zext32 (Rom.exp ((Rom.log a + 255 - Rom.log b) % 255)) :=
  apply_ite zext32 _ _ _

/-- Settles O23: the words by their fields, and each rule by its test for 0. -/
theorem galoisCommands : Obligations.GaloisCommands := by
  refine ⟨decode_gfExpWord, decode_gfLogWord, decode_gfMulWord, decode_gfDivWord, fun s hs => ⟨?exp, ?log, ?logOfZero, ?mul,
    ?div, ?divByZero⟩⟩
  case exp => exact fun i => gated_eq_success hs rfl
  case log => exact fun a ha => gated_eq_success hs (if_neg ha)
  case logOfZero => exact gated_eq_failure hs rfl
  case mul =>
    intro a b
    rw [← zext32_gfmul]
    exact gated_eq_success hs rfl
  case div =>
    intro a b hb
    rw [← zext32_gfdiv]
    exact gated_eq_success hs (if_neg hb)
  case divByZero => exact fun a => gated_eq_failure hs rfl

end Sys2Proof.Machine
end

section
/-! PROOFS. The generator polynomials: their roots and their table, and the commands RS_GEN and RS_ENCODE (R190 to R195). -/

open Sys2Proof.Claims

namespace Sys2Proof.Machine

/-! ### Horner's rule -/

theorem xor_gfmul (a b c : Byte) : gfmul (a ^^^ b) c = gfmul a c ^^^ gfmul b c := by
  rw [gfmul_comm, gfmul_xor, gfmul_comm c a, gfmul_comm c b]

@[simp] theorem horner_nil (x : Byte) : horner [] x = 0 := rfl

/-- One more coefficient at the low end is one more round of Horner's rule. -/
@[simp] theorem horner_append_singleton (p : List Byte) (a x : Byte) : horner (p ++ [a]) x = gfmul (horner p x) x ^^^ a := by
  simp [horner]

/-- A leading coefficient 0 does not change the value. -/
@[simp] theorem horner_zero_cons (p : List Byte) (x : Byte) : horner (0 :: p) x = horner p x := by
  simp [horner]

/-- Every coefficient times a constant multiplies the value by it. -/
theorem horner_map_gfmul (p : List Byte) (c x : Byte) : horner (p.map fun a => gfmul a c) x = gfmul (horner p x) c := by
  induction p using List.reverseRecOn with
  | nil => simp
  | append_singleton p a ih =>
    have hswap : gfmul (gfmul (horner p x) c) x = gfmul (gfmul (horner p x) x) c := by
      rw [← gfmul_assoc, gfmul_comm c x, gfmul_assoc]
    rw [List.map_append, List.map_singleton, horner_append_singleton, horner_append_singleton, ih, hswap, xor_gfmul]

/-- The sum of two polynomials of the same length evaluates to the sum of their values. -/
theorem horner_zipWith_xor {p q : List Byte} (h : p.length = q.length) (x : Byte) :
    horner (List.zipWith (· ^^^ ·) p q) x = horner p x ^^^ horner q x := by
  induction p using List.reverseRecOn generalizing q with
  | nil =>
    obtain rfl : q = [] := List.length_eq_zero_iff.1 h.symm
    simp
  | append_singleton p a ih =>
    obtain rfl | ⟨q, b, rfl⟩ := List.eq_nil_or_concat' q
    · simp at h
    · have hpq : p.length = q.length := by simpa using h
      rw [List.zipWith_append hpq, List.zipWith_cons_cons, List.zipWith_nil_right]
      simp only [horner_append_singleton, ih hpq, xor_gfmul]
      ac_rfl

/-! ### The roots of the generator polynomials -/

/-- The product with `(x + c)` takes the product of the values (R190). -/
theorem horner_mulRoot (g : List Byte) (c x : Byte) : horner (mulRoot g c) x = gfmul (horner g x) (x ^^^ c) := by
  rw [mulRoot, horner_zipWith_xor (by simp), horner_append_singleton, horner_zero_cons, horner_map_gfmul, gfmul_xor]
  exact congrArg (· ^^^ _) BitVec.xor_zero

/-- `gen(n)` vanishes at `EXP[i]` for every `i` below `n`: `(x + EXP[i])` is one of its factors (R190). -/
theorem horner_rsGenPoly_exp {n i : Nat} (h : i < n) : horner (rsGenPoly n) (Rom.exp i) = 0 := by
  induction n with
  | zero => omega
  | succ n ih =>
    rw [rsGenPoly, horner_mulRoot]
    obtain hlt | rfl : i < n ∨ i = n := by omega
    · rw [ih hlt]
      exact zero_gfmul _
    · rw [BitVec.xor_self]
      exact gfmul_zero _

/-- A product with `(x + c)` keeps the leading coefficient. -/
theorem head?_mulRoot {g : List Byte} {a : Byte} (h : g.head? = some a) (c : Byte) : (mulRoot g c).head? = some a := by
  obtain ⟨g, rfl⟩ := List.head?_eq_some_iff.1 h
  simp [mulRoot]

/-- `gen(n)` is monic (R190). -/
theorem head?_rsGenPoly (n : Nat) : (rsGenPoly n).head? = some 1 := by
  induction n with
  | zero => rfl
  | succ n ih => exact head?_mulRoot ih _

/-- Settles O28: degree, leading coefficient and roots, each by induction over the factors. -/
theorem generatorVanishesAtItsRoots : Obligations.GeneratorVanishesAtItsRoots := fun n _ _ hi =>
  ⟨length_rsGenPoly n, head?_rsGenPoly n, horner_rsGenPoly_exp hi⟩

/-- Settles O27: closed products of at most thirty factors over the ROMs, multiplied out. -/
theorem generatorPolynomialTable : Obligations.GeneratorPolynomialTable := by
  unfold Obligations.GeneratorPolynomialTable
  decide +kernel

/-! ### RS_GEN -/

/-- A computation goes on with the value its first part ends with. -/
theorem Exec.ok_bind {α β : Type} (a : α) (f : α → Exec β) : ((Except.ok a : Exec α) >>= f) = f a := rfl

/-- An RS_GEN word decodes for every `n`, with its destination in ARG0 (R94, R193). -/
theorem decode_rsGenWord (n : Byte) (dst a1 : Word) : decode ⟨0x40000000 ||| zext32 n, dst, a1⟩ = .ok (.rsGen n dst) := by
  change decode ⟨commandWord 0x40#8 (zext32 n), dst, a1⟩ = _
  simp only [decode, opcodeOf_commandWord_zext32 0x40#8 n (by decide), formatI8_commandWord]

/-- RS_GEN with its operands in range (R193). -/
theorem exec_rsGen_eq_success {s : State} {n : Byte} {dst : Word} (hs : s.err = .ok) (h1 : 1 ≤ n.toNat) (h30 : n.toNat ≤ 30)
    (hfits : dst.toNat + n.toNat + 1 ≤ 4096) :
    exec (.rsGen n dst) s = .next (success
      { s with wram := s.wram.store dst.toNat (rsGenPoly n.toNat) } (BitVec.ofNat 32 (n.toNat + 1))) := by
  have hwrite : s.wram.writeBytes dst.toNat (rsGenPoly n.toNat) = .ok (s.wram.store dst.toNat (rsGenPoly n.toNat)) :=
    Memory.writeBytes_eq ((length_rsGenPoly n.toNat).symm ▸ hfits)
  have hn : ¬ (n.toNat < 1 ∨ Config.rsNMax < n.toNat) := not_or.2 ⟨h1.not_gt, h30.not_gt⟩
  have hroom : ¬ Config.wramSize < dst.toNat + n.toNat + 1 := hfits.not_gt
  refine gated_eq_success hs ?_
  rw [if_neg hn, if_neg hroom, hwrite]
  rfl

/-- RS_GEN with an operand out of range (R193). -/
theorem exec_rsGen_eq_failure {s : State} {n : Byte} {dst : Word} (hs : s.err = .ok)
    (h : n.toNat < 1 ∨ 30 < n.toNat ∨ 4096 < dst.toNat + n.toNat + 1) :
    exec (.rsGen n dst) s = .next (failure s .range) := by
  refine gated_eq_failure hs ?_
  by_cases hn : n.toNat < 1 ∨ 30 < n.toNat
  · exact if_pos hn
  · have hroom : 4096 < dst.toNat + n.toNat + 1 := by omega
    exact (if_neg hn).trans (if_pos hroom)

/-- Settles O25: the two outcomes by the checks of R193, the bytes by the laws of WRAM. -/
theorem rsGenWritesTheGenerator : Obligations.RsGenWritesTheGenerator :=
  ⟨decode_rsGenWord, fun _ n _ hs =>
    ⟨fun h1 h30 hfits => ⟨length_rsGenPoly n.toNat, exec_rsGen_eq_success hs h1 h30 hfits, storedAt_store _ _ _⟩,
      exec_rsGen_eq_failure hs⟩⟩

/-! ### RS_ENCODE -/

/-- An RS_ENCODE word decodes, with `src` and `len` the halves of ARG0 and its destination in ARG1 (R94, R195). -/
theorem decode_rsEncodeWord (n : Byte) (src len : BitVec 16) (dst : Word) :
    decode ⟨0x41000000 ||| zext32 n, zext32 len <<< 16 ||| zext32 src, dst⟩ = .ok (.rsEncode n src len dst) := by
  have hhalves : zext32 len <<< 16 ||| zext32 src = len ++ src := by
    rw [← BitVec.setWidth_append_eq_shiftLeft_setWidth_or, BitVec.setWidth_eq]
  change decode ⟨commandWord 0x41#8 (zext32 n), _, dst⟩ = _
  simp only [decode, opcodeOf_commandWord_zext32 0x41#8 n (by decide), formatI8_commandWord, hhalves,
    BitVec.extractLsb'_append_eq_left, BitVec.extractLsb'_append_eq_right]

/-- RS_ENCODE past its range checks: the block is read, then its EC codewords are stored (R195, R83). -/
def rsEncodeStoring (n : Byte) (src len : BitVec 16) (dst : Word) : Body := fun s => do
  let d ← s.wram.readBytes src.toNat len.toNat
  let wram ← s.wram.writeBytes dst.toNat (rsRemainder d n.toNat)
  return ({ s with wram := wram }, BitVec.ofNat 32 n.toNat)

section RsEncode
variable {s : State} {n : Byte} {src len : BitVec 16} {dst : Word} (hs : s.err = .ok)

/-- RS_ENCODE with its operands in range (R195). -/
theorem exec_rsEncode_in_range (h1 : 1 ≤ n.toNat) (h30 : n.toNat ≤ 30) (hlen : 1 ≤ len.toNat)
    (hsrc : src.toNat + len.toNat ≤ 4096) (hdst : dst.toNat + n.toNat ≤ 4096) :
    exec (.rsEncode n src len dst) s = gated (rsEncodeStoring n src len dst) s := by
  have hn : ¬ (n.toNat < 1 ∨ Config.rsNMax < n.toNat) := not_or.2 ⟨h1.not_gt, h30.not_gt⟩
  have hranges : ¬ (Config.wramSize < src.toNat + len.toNat ∨ Config.wramSize < dst.toNat + n.toNat) :=
    not_or.2 ⟨hsrc.not_gt, hdst.not_gt⟩
  change execRsEncode n src len dst s = _
  simp only [execRsEncode, if_neg hn, if_neg hlen.not_gt, if_neg hranges]
  rfl

include hs

/-- RS_ENCODE with an operand out of range (R195). -/
theorem exec_rsEncode_eq_failure (h : n.toNat < 1 ∨ 30 < n.toNat ∨ len.toNat < 1 ∨ 4096 < src.toNat + len.toNat ∨
    4096 < dst.toNat + n.toNat) : exec (.rsEncode n src len dst) s = .next (failure s .range) := by
  refine gated_eq_failure hs ?_
  by_cases hn : n.toNat < 1 ∨ 30 < n.toNat
  · exact if_pos hn
  refine (if_neg hn).trans ?_
  by_cases hlen : len.toNat < 1
  · exact if_pos hlen
  · have hranges : 4096 < src.toNat + len.toNat ∨ 4096 < dst.toNat + n.toNat := by omega
    exact (if_neg hlen).trans (if_pos hranges)

/-- A block that is written and a destination that fits (R195). -/
theorem gated_rsEncodeStoring_written {d : List Byte} (hd : d.length = len.toNat) (hwritten : written s src.toNat d)
    (hsrc : src.toNat + len.toNat ≤ 4096) (hdst : dst.toNat + n.toNat ≤ 4096) :
    gated (rsEncodeStoring n src len dst) s = .next (success
      { s with wram := s.wram.store dst.toNat (rsRemainder d n.toNat) } (BitVec.ofNat 32 n.toNat)) := by
  have hread : s.wram.readBytes src.toNat len.toNat = .ok d := Memory.readBytes_eq hd hsrc hwritten
  have hwrite := Memory.writeBytes_eq (m := s.wram) (a := dst.toNat) (bs := rsRemainder d n.toNat)
    ((length_rsRemainder d n.toNat).symm ▸ hdst)
  refine gated_eq_success hs ?_
  rw [rsEncodeStoring, hread, Exec.ok_bind, hwrite]
  rfl

/-- An unwritten byte of the block is a fault (R71). -/
theorem gated_rsEncodeStoring_unwritten {a : Nat} (hread : s.wram.readBytes src.toNat len.toNat = stop (.unwrittenByte a)) :
    gated (rsEncodeStoring n src len dst) s = .fault (.unwrittenByte a) := by
  refine gated_stop hs ?_
  rw [rsEncodeStoring, hread]
  rfl

end RsEncode

/-- Settles O26: the range checks of R195 first, then the read of the block before the store, so that no overlap matters. -/
theorem rsEncodeWritesTheRemainder : Obligations.RsEncodeWritesTheRemainder := by
  refine ⟨decode_rsEncodeWord, fun s n src len dst hs => ⟨?written, ?unwritten, exec_rsEncode_eq_failure hs⟩⟩
  case written =>
    intro d h1 h30 hlen hsrc hdst hd hwritten
    refine ⟨length_rsRemainder d n.toNat, ?_, storedAt_store _ _ _⟩
    rw [exec_rsEncode_in_range h1 h30 hlen hsrc hdst, gated_rsEncodeStoring_written hs hd hwritten hsrc hdst]
  case unwritten =>
    intro h1 h30 hlen hsrc hdst hunwritten
    obtain ⟨a, hlow, hhigh, hnone, hread⟩ := Memory.readBytes_unwritten hsrc hunwritten
    refine ⟨a, ⟨hlow, hhigh, hnone⟩, ?_⟩
    rw [exec_rsEncode_in_range h1 h30 hlen hsrc hdst, gated_rsEncodeStoring_unwritten hs hread]

end Sys2Proof.Machine
end

section
/-! PROOFS. The blocks of a version, the round-robin that interleaves them, and CW_BUILD (R200 to R207). -/

open Sys2Proof.Claims

namespace Sys2Proof.Machine

/-! ### Rows of one length, joined -/

/-- Entry `j` of row `i` of the joined rows, when every row before it has `n` entries. -/
theorem getElem?_flatten_of_rows {α : Type} {rows : List (List α)} {row : List α} {n i j : Nat}
    (hbefore : ∀ r ∈ rows.take i, r.length = n) (hrow : rows[i]? = some row) (hj : j < row.length) :
    rows.flatten[n * i + j]? = row[j]? := by
  induction i generalizing rows with
  | zero =>
    obtain ⟨rest, rfl⟩ := List.head?_eq_some_iff.1 (List.head?_eq_getElem?.trans hrow)
    rw [List.flatten_cons, Nat.mul_zero, Nat.zero_add, List.getElem?_append_left hj]
  | succ i ih =>
    cases rows with
    | nil => cases hrow
    | cons first rest =>
      rw [List.take_succ_cons, List.forall_mem_cons] at hbefore
      obtain ⟨hfirst, hbefore⟩ := hbefore
      have hskip : n * (i + 1) + j = first.length + (n * i + j) := by rw [hfirst, Nat.mul_succ]; omega
      rw [List.flatten_cons, hskip, List.getElem?_append_right (Nat.le_add_right _ _), Nat.add_sub_cancel_left,
        ih hbefore hrow]

/-! ### The rounds of the round-robin -/

/-- Round `i` of the round-robin: codeword `i` of each block that has one, in block order (R205). -/
def codewordRound (blocks : List (List Byte)) (i : Nat) : List Byte := blocks.filterMap fun x => x[i]?

/-- The round-robin is its rounds, one after another. -/
theorem roundRobin_eq_flatten (rounds : Nat) (blocks : List (List Byte)) :
    roundRobin rounds blocks = ((List.range rounds).map (codewordRound blocks)).flatten := by
  induction rounds generalizing blocks with
  | zero => rfl
  | succ rounds ih =>
    have hheads : roundHeads blocks = codewordRound blocks 0 := by simp [roundHeads, codewordRound, List.head?_eq_getElem?]
    have htails : codewordRound (blocks.map List.tail) = codewordRound blocks ∘ Nat.succ := by
      funext i
      simp [codewordRound, List.filterMap_map]
    rw [roundRobin, ih, List.range_succ_eq_map, List.map_cons, List.flatten_cons, List.map_map, hheads, htails]

/-- A round in which every block has a codeword. -/
theorem codewordRound_of_full {blocks : List (List Byte)} {i : Nat} (h : ∀ x ∈ blocks, i < x.length) :
    codewordRound blocks i = blocks.map fun x => x.getD i 0 := by
  rw [codewordRound, List.filterMap_eq_map_iff_forall_eq_some]
  intro x hx
  simp [h x hx]

/-- Codeword `i` of block `b` stands at place `b` of such a round. -/
theorem getElem?_codewordRound_of_full {blocks : List (List Byte)} {i : Nat} (h : ∀ x ∈ blocks, i < x.length) (b : Nat) :
    (codewordRound blocks i)[b]? = (blocks[b]?).bind fun x => x[i]? := by
  rw [codewordRound_of_full h, List.getElem?_map]
  cases hb : blocks[b]? with
  | none => rfl
  | some x => simp [h x (List.mem_of_getElem? hb)]

/-- Blocks with no codeword `i` take no part in round `i`. -/
theorem codewordRound_drop {blocks : List (List Byte)} {short i : Nat} (h : ∀ x ∈ blocks.take short, x.length ≤ i) :
    codewordRound blocks i = codewordRound (blocks.drop short) i := by
  have hnone : (blocks.take short).filterMap (fun x => x[i]?) = [] :=
    List.filterMap_eq_nil_iff.2 fun x hx => List.getElem?_eq_none (h x hx)
  rw [codewordRound, codewordRound, ← List.nil_append (List.filterMap _ (blocks.drop short)), ← hnone,
    ← List.filterMap_append, List.take_append_drop]

/-! ### All the rounds -/

/-- As many rounds as the longest block has codewords: each half of the interleaved sequence (R205). -/
def allRounds (blocks : List (List Byte)) : List Byte := roundRobin ((blocks.map List.length).foldl max 0) blocks

theorem interleave_eq (data ec : List (List Byte)) : interleave data ec = allRounds data ++ allRounds ec := rfl

/-- No block has more codewords than there are rounds. -/
theorem length_le_rounds {blocks : List (List Byte)} {x : List Byte} (h : x ∈ blocks) :
    x.length ≤ (blocks.map List.length).foldl max 0 := (le_foldl_max _ 0).2 _ (List.mem_map_of_mem h)

theorem length_allRounds (blocks : List (List Byte)) : (allRounds blocks).length = (blocks.map List.length).sum :=
  length_roundRobin fun _ => length_le_rounds

/-- Place `j` of round `i`, when every round before it is full. -/
theorem getElem?_allRounds {blocks : List (List Byte)} {i j : Nat} {a : Byte} (hbefore : ∀ x ∈ blocks, i ≤ x.length)
    (ha : (codewordRound blocks i)[j]? = some a) : (allRounds blocks)[blocks.length * i + j]? = some a := by
  obtain ⟨x, hx, hxa⟩ := List.mem_filterMap.1 (List.mem_of_getElem? ha)
  have hi : i < (blocks.map List.length).foldl max 0 :=
    (List.getElem?_eq_some_iff.1 hxa).1.trans_le (length_le_rounds hx)
  have hfull : ∀ r ∈ ((List.range ((blocks.map List.length).foldl max 0)).map (codewordRound blocks)).take i,
      r.length = blocks.length := by
    rw [← List.map_take, List.take_range, Nat.min_eq_left hi.le, List.forall_mem_map]
    intro i' hi'
    rw [codewordRound_of_full fun x hx => (List.mem_range.1 hi').trans_le (hbefore x hx), List.length_map]
  rw [allRounds, roundRobin_eq_flatten,
    getElem?_flatten_of_rows hfull (by simp [hi]) (List.getElem?_eq_some_iff.1 ha).1, ha]

/-- A codeword that every block has: round `i` holds codeword `i` of each block (R205). -/
theorem getElem?_allRounds_of_full {blocks : List (List Byte)} {b i : Nat} {a : Byte} (h : ∀ x ∈ blocks, i < x.length)
    (ha : ((blocks[b]?).bind fun x => x[i]?) = some a) : (allRounds blocks)[blocks.length * i + b]? = some a :=
  getElem?_allRounds (fun x hx => (h x hx).le) ((getElem?_codewordRound_of_full h b).trans ha)

/-! ### The blocks of a version -/

/-- The blocks, joined, are the sequence they were cut from (R200). -/
theorem flatten_splitBlocks {α : Type} {ks : List Nat} {xs : List α} (h : ks.sum = xs.length) :
    (splitBlocks ks xs).flatten = xs := by
  induction ks generalizing xs with
  | nil => exact (List.length_eq_zero_iff.1 h.symm).symm
  | cons k ks ih =>
    have hrest : ks.sum = (xs.drop k).length := by
      rw [List.sum_cons] at h
      rw [List.length_drop]
      omega
    rw [splitBlocks, List.flatten_cons, ih hrest, List.take_append_drop]

theorem length_dataBlocks (v : Nat) (data : List Byte) : (dataBlocks v data).length = Rom.blockCount v :=
  length_splitBlocks _ _

theorem length_ecBlocks (v : Nat) (data : List Byte) : (ecBlocks v data).length = Rom.blockCount v := by
  rw [ecBlocks, List.length_map, length_dataBlocks]

/-- Every block has `n(v)` EC codewords (R201). -/
theorem length_of_mem_ecBlocks {v : Nat} {data x : List Byte} (h : x ∈ ecBlocks v data) : x.length = Rom.ecCount v := by
  obtain ⟨block, -, rfl⟩ := List.mem_map.1 h
  exact length_rsRemainder block _

theorem getElem?_lengths_ecBlocks {v b : Nat} (data : List Byte) (hb : b < Rom.blockCount v) :
    ((ecBlocks v data).map List.length)[b]? = some (Rom.ecCount v) := by
  have hb' : b < (ecBlocks v data).length := (length_ecBlocks v data).symm ▸ hb
  rw [List.getElem?_map, List.getElem?_eq_getElem hb', Option.map_some, length_of_mem_ecBlocks (List.getElem_mem hb')]

/-- The EC codewords of block `b` are its remainder (R201). -/
theorem getElem?_ecBlocks (v : Nat) (data : List Byte) (b : Nat) :
    (ecBlocks v data)[b]? = ((dataBlocks v data)[b]?).map fun block => rsRemainder block (Rom.ecCount v) :=
  List.getElem?_map

/-- The blocks come in two groups, the second one codeword longer, or in one (R232). -/
theorem Rom.blockLengths_two_groups {v : Nat} (h1 : 1 ≤ v) (h15 : v ≤ 15) :
    let k := (Rom.blockLengths v).headD 0
    let short := (Rom.blockLengths v).count k
    Rom.blockLengths v = List.replicate short k ++ List.replicate (Rom.blockCount v - short) (k + 1) := by
  interval_cases v <;> decide

section TwoGroups
variable {blocks : List (List Byte)} {k short long : Nat}
  (hlen : blocks.map List.length = List.replicate short k ++ List.replicate long (k + 1))
include hlen

theorem length_of_mem_first_group : ∀ x ∈ blocks.take short, x.length = k := by
  have htake : (blocks.take short).map List.length = List.replicate short k := by
    rw [List.map_take, hlen, List.take_left' List.length_replicate]
  exact fun x hx => List.eq_of_mem_replicate (htake ▸ List.mem_map_of_mem hx)

theorem length_of_mem_second_group : ∀ x ∈ blocks.drop short, x.length = k + 1 := by
  have hdrop : (blocks.drop short).map List.length = List.replicate long (k + 1) := by
    rw [List.map_drop, hlen, List.drop_left' List.length_replicate]
  exact fun x hx => List.eq_of_mem_replicate (hdrop ▸ List.mem_map_of_mem hx)

theorem le_length_of_two_groups : ∀ x ∈ blocks, k ≤ x.length := by
  intro x hx
  rw [← List.take_append_drop short blocks, List.mem_append] at hx
  rcases hx with hx | hx
  · exact (length_of_mem_first_group hlen x hx).ge
  · exact (length_of_mem_second_group hlen x hx).ge.trans' (Nat.le_succ k)

/-- The length of block `b`. -/
theorem getElem?_lengths_of_two_groups {b : Nat} (hb : b < blocks.length) :
    (blocks.map List.length)[b]? = some (if b < short then k else k + 1) := by
  have hcount : blocks.length = short + long := by simpa using congrArg List.length hlen
  rw [hlen, List.getElem?_append, List.length_replicate, List.getElem?_replicate, List.getElem?_replicate]
  split
  · rfl
  · exact if_pos (by omega)

/-- A codeword that only the blocks of the second group have: the last round skips the first group (R205). -/
theorem getElem?_allRounds_last {b : Nat} {a : Byte} (hb : short ≤ b)
    (ha : ((blocks[b]?).bind fun x => x[k]?) = some a) : (allRounds blocks)[blocks.length * k + (b - short)]? = some a := by
  have hlast : ∀ x ∈ blocks.drop short, k < x.length :=
    fun x hx => (length_of_mem_second_group hlen x hx).symm ▸ Nat.lt_succ_self k
  refine getElem?_allRounds (le_length_of_two_groups hlen) ?_
  rw [codewordRound_drop fun x hx => (length_of_mem_first_group hlen x hx).le, getElem?_codewordRound_of_full hlast,
    List.getElem?_drop, Nat.add_sub_cancel' hb, ha]

end TwoGroups

/-- A block that is long enough has its codeword `i`. -/
theorem exists_codeword {blocks : List (List Byte)} {b n i : Nat} (hlen : (blocks.map List.length)[b]? = some n) (hi : i < n) :
    ∃ a, ((blocks[b]?).bind fun x => x[i]?) = some a := by
  rw [List.getElem?_map, Option.map_eq_some_iff] at hlen
  obtain ⟨x, hx, rfl⟩ := hlen
  exact ⟨x[i], by simp [hx, hi]⟩

/-- The data codewords stand first in the interleaved sequence (R205). -/
theorem getElem?_interleave_data {data ec : List (List Byte)} {p : Nat} {a : Byte} (h : (allRounds data)[p]? = some a) :
    (interleave data ec)[p]? = some a := by
  rw [interleave_eq, List.getElem?_append_left (List.getElem?_eq_some_iff.1 h).1, h]

/-- The EC codewords stand after them (R205). -/
theorem getElem?_interleave_ec {data : List (List Byte)} (ec : List (List Byte)) {d : Nat}
    (hd : (data.map List.length).sum = d) (p : Nat) : (interleave data ec)[d + p]? = (allRounds ec)[p]? := by
  rw [interleave_eq, ← hd, ← length_allRounds, List.getElem?_append_right (Nat.le_add_right _ _), Nat.add_sub_cancel_left]

/-- Settles O31: the blocks' lengths are the version's, and each round of the round-robin takes one codeword of every block
that has one. -/
theorem blocksAreInterleavedRoundRobin : Obligations.BlocksAreInterleavedRoundRobin := by
  intro v data h1 h15 hdata blocks ec seq nb k short
  have hlengths : blocks.map List.length = Rom.blockLengths v := map_length_splitBlocks hdata.ge
  have hgroups := hlengths.trans (Rom.blockLengths_two_groups h1 h15)
  have hnb : blocks.length = nb := length_dataBlocks v data
  have hsum : (blocks.map List.length).sum = Rom.dataCount v := congrArg List.sum hlengths
  have hlength : ∀ b, b < nb → (blocks.map List.length)[b]? = some (if b < short then k else k + 1) :=
    fun b hb => getElem?_lengths_of_two_groups hgroups (hnb ▸ hb)
  refine ⟨flatten_splitBlocks hdata.symm, hnb, length_codewordSequence hdata, hlength, ?common, ?last, ?ec⟩
  case common =>
    intro b i hb hi
    obtain ⟨a, ha⟩ := exists_codeword (hlength b hb) (i := i) (by split <;> omega)
    rw [ha, ← hnb]
    exact getElem?_interleave_data
      (getElem?_allRounds_of_full (fun x hx => hi.trans_le (le_length_of_two_groups hgroups x hx)) ha)
  case last =>
    intro b hshort hb
    obtain ⟨a, ha⟩ := exists_codeword (hlength b hb) (i := k) (by rw [if_neg hshort.not_gt]; omega)
    rw [ha, ← hnb]
    exact getElem?_interleave_data (getElem?_allRounds_last hgroups hshort ha)
  case ec =>
    intro b j hb hj
    have hfull : ∀ x ∈ ec, j < x.length := fun x hx => (length_of_mem_ecBlocks hx).symm ▸ hj
    have hec : ec.length = nb := length_ecBlocks v data
    obtain ⟨a, ha⟩ := exists_codeword (getElem?_lengths_ecBlocks data hb) hj
    rw [ha, Nat.add_assoc, ← hec]
    exact (getElem?_interleave_ec ec hsum _).trans (getElem?_allRounds_of_full hfull ha)

/-! ### CW_BUILD -/

/-- CW_BUILD's word decodes whatever the argument words are (R90, R94). -/
theorem decode_cwBuildWord (a0 a1 : Word) : decode ⟨0x42000000, a0, a1⟩ = .ok .cwBuild := by
  simp [decode, opcodeOf, formatN, withFormat, reservedClear]

/-- EC codeword `j` of block `b` in the EC region (R204). -/
theorem getElem?_flatten_ecBlocks {v b j : Nat} (data : List Byte) (hb : b < Rom.blockCount v) (hj : j < Rom.ecCount v) :
    (ecBlocks v data).flatten[b * Rom.ecCount v + j]? =
      ((dataBlocks v data)[b]?).bind fun block => (rsRemainder block (Rom.ecCount v))[j]? := by
  obtain ⟨block, hblock⟩ : ∃ block, (dataBlocks v data)[b]? = some block :=
    ⟨_, List.getElem?_eq_getElem ((length_dataBlocks v data).symm ▸ hb)⟩
  have hrow : (ecBlocks v data)[b]? = some (rsRemainder block (Rom.ecCount v)) := by
    rw [getElem?_ecBlocks, hblock, Option.map_some]
  rw [Nat.mul_comm, hblock, getElem?_flatten_of_rows (fun r hr => length_of_mem_ecBlocks (List.mem_of_mem_take hr)) hrow
    ((length_rsRemainder block _).symm ▸ hj), Option.bind_some]

/-- No version is set (R206). -/
theorem cwBuildBody_no_version {s : State} (hv : s.version = 0) : cwBuildBody s = raise .sequence := if_pos hv

/-- WRAM after CW_BUILD: the EC region, then the sequence (R204). -/
def Memory.afterCwBuild (m : Memory) (v : Nat) (data : List Byte) : Memory :=
  (m.store 0x400 (ecBlocks v data).flatten).store 0x800 (codewordSequence v data)

section CwBuild
variable {s : State} (hv : s.version ≠ 0)
include hv

/-- The model's count of data codewords of a set version is the claims' (R143). -/
theorem dataCount_ver : Rom.dataCount s.ver = entry dataTable s.version.toNat := by
  obtain ⟨-, hdata, -⟩ := versionTablesAgree s.ver (ver_range hv).1 (ver_range hv).2
  exact hdata

/-- The model's count of codewords of a set version is the claims' (R232). -/
theorem totalCount_ver : Rom.totalCount s.ver = entry totalTable s.version.toNat := by
  obtain ⟨-, -, htotal, -⟩ := versionTablesAgree s.ver (ver_range hv).1 (ver_range hv).2
  exact htotal

/-- The DATA region lies in WRAM (R73). -/
theorem dataRegion_fits : Config.dataBase + Rom.dataCount s.ver ≤ Config.wramSize := by
  have := (Rom.counts_fit s.ver (ver_range hv).2).1
  simp only [Config.dataBase, Config.wramSize]
  omega

/-- A fault in reading the data codewords is the command's (R71). -/
theorem cwBuildBody_data_stops {f : Fault} (hdata : s.dataRegion = stop f) : cwBuildBody s = stop f := by
  rw [cwBuildBody, if_neg hv, hdata]
  rfl

section Written
variable {data : List Byte} (hlen : data.length = Rom.dataCount s.ver)
include hlen

/-- The data codewords are written: the two stores, and TC in RESULT (R206). -/
theorem cwBuildBody_eq_ok (hdata : written s 0x000 data) :
    cwBuildBody s = .ok ({ s with wram := s.wram.afterCwBuild s.ver data }, BitVec.ofNat 32 (Rom.totalCount s.ver)) := by
  obtain ⟨-, hec, htotal⟩ := Rom.counts_fit s.ver (ver_range hv).2
  have hseq := length_codewordSequence hlen
  have hread : s.dataRegion = .ok data := Memory.readBytes_eq hlen (dataRegion_fits hv) hdata
  have hwriteEc := Memory.writeBytes_eq (m := s.wram) (a := Config.ecBase) (bs := (ecBlocks s.ver data).flatten)
    (by rw [length_ecBlocks_flatten]; simp only [Config.ecBase, Config.wramSize]; omega)
  have hwriteSeq := Memory.writeBytes_eq (m := s.wram.store Config.ecBase (ecBlocks s.ver data).flatten) (a := Config.seqBase)
    (bs := codewordSequence s.ver data) (by rw [hseq]; simp only [Config.seqBase, Config.wramSize]; omega)
  rw [cwBuildBody, if_neg hv, hread, Exec.ok_bind, hwriteEc, Exec.ok_bind, hwriteSeq, Exec.ok_bind, hseq]
  rfl

/-- The two stores do not meet: each region holds its bytes, and every other address reads as before (R72, R204). -/
theorem afterCwBuild_regions (m : Memory) :
    bytesAt (m.afterCwBuild s.ver data) 0x400 (ecBlocks s.ver data).flatten ∧
    bytesAt (m.afterCwBuild s.ver data) 0x800 (codewordSequence s.ver data) ∧
    ∀ a, a < 0x400 ∨ (0x400 + Rom.blockCount s.ver * Rom.ecCount s.ver ≤ a ∧ a < 0x800) ∨
      0x800 + Rom.totalCount s.ver ≤ a → (m.afterCwBuild s.ver data).lookup a = m.lookup a := by
  obtain ⟨-, hec, -⟩ := Rom.counts_fit s.ver (ver_range hv).2
  have hecLength := length_ecBlocks_flatten s.ver data
  have hseq := length_codewordSequence hlen
  refine ⟨fun j hj => ?_, fun j hj => Memory.lookup_store_inside hj, fun a ha => ?_⟩
  · rw [Memory.afterCwBuild, Memory.lookup_store_outside (by omega), Memory.lookup_store_inside hj]
  · rw [Memory.afterCwBuild, Memory.lookup_store_outside (by omega), Memory.lookup_store_outside (by omega)]

end Written

/-- CW_BUILD faults on an unwritten data codeword (R71). -/
theorem cwBuild_faultsOnUnwritten (hs : s.err = .ok) : faultsOnUnwritten .cwBuild s 0x000 (Rom.dataCount s.ver) := by
  intro hunwritten
  obtain ⟨a, hlow, hhigh, hnone, hread⟩ := Memory.readBytes_unwritten (dataRegion_fits hv) hunwritten
  exact ⟨a, ⟨hlow, hhigh, hnone⟩, gated_stop hs (cwBuildBody_data_stops hv hread)⟩

end CwBuild

/-- Settles O30: the outcomes by the checks of R206 in their order, and the bytes by the laws of WRAM. -/
theorem cwBuildWritesEcAndSequence : Obligations.CwBuildWritesEcAndSequence := by
  refine ⟨decode_cwBuildWord, fun s hs => ⟨?written, ?unwritten, fun hv => gated_eq_failure hs (cwBuildBody_no_version hv)⟩⟩
  case written =>
    intro data hv hlen hdata
    rw [← dataCount_ver hv] at hlen
    rw [← totalCount_ver hv]
    exact ⟨length_codewordSequence hlen, fun _ _ => getElem?_flatten_ecBlocks data,
      gated_eq_success hs (cwBuildBody_eq_ok hv hlen hdata), afterCwBuild_regions hv hlen s.wram⟩
  case unwritten =>
    intro hv
    rw [← dataCount_ver hv]
    exact cwBuild_faultsOnUnwritten hv hs

end Sys2Proof.Machine
end

section
/-! PROOFS. MB_FUNC, MB_FINAL and the two cell queries as commands, and the words of the format and version information
(R222, R250 to R260). -/

open Sys2Proof.Claims

namespace Sys2Proof.Machine

/-! ### MB_FUNC and MB_FINAL -/

/-- MB_FUNC's word decodes whatever the argument words are (R90, R94). -/
theorem decode_mbFuncWord (a0 a1 : Word) : decode ⟨0x50000000, a0, a1⟩ = .ok .mbFunc := by
  simp [decode, opcodeOf, formatN, withFormat, reservedClear]

/-- Settles O32: the one check of R222 is VERSION. -/
theorem mbFuncDrawsTheSymbol : Obligations.MbFuncDrawsTheSymbol :=
  ⟨decode_mbFuncWord, fun _ hs =>
    ⟨fun hv => gated_eq_success hs (if_neg hv), fun hv => gated_eq_failure hs (if_pos hv)⟩⟩

/-- MB_FINAL's word decodes whatever the argument words are (R90, R94). -/
theorem decode_mbFinalWord (a0 a1 : Word) : decode ⟨0x53000000, a0, a1⟩ = .ok .mbFinal := by
  simp [decode, opcodeOf, formatN, withFormat, reservedClear]

/-- Settles O40: the one check of R252 is MSTAGE. -/
theorem mbFinalFixesTheMask : Obligations.MbFinalFixesTheMask :=
  ⟨decode_mbFinalWord, fun _ hs =>
    ⟨fun hm => gated_eq_success hs (if_neg (not_not.2 hm)), fun hm => gated_eq_failure hs (if_pos hm)⟩⟩

/-! ### The cell queries -/

/-- Format RC reads the row and the column of a command word with two byte fields (R94). -/
theorem formatRC_commandWord (op : BitVec 8) (row col : Byte) (i : Byte → Byte → Instr) :
    formatRC (commandWord op (zext32 (row ++ col))) i = .ok (i row col) := formatP8_commandWord op row col i

/-- An MB_CELL word decodes for every pair of indices, those outside the square included (R94, R250). -/
theorem decode_mbCellWord (row col : Byte) (a0 a1 : Word) :
    decode ⟨0x52000000 ||| zext32 row <<< 8 ||| zext32 col, a0, a1⟩ = .ok (.mbCell row col) := by
  change decode ⟨commandWord 0x52#8 (zext32 row <<< 8) ||| zext32 col, a0, a1⟩ = _
  simp only [commandWord_two_bytes, decode, opcodeOf_commandWord_zext32 0x52#8 (row ++ col) (by decide),
    formatRC_commandWord]

/-- An MB_ISDARK word decodes for every pair of indices (R94, R260). -/
theorem decode_mbIsdarkWord (row col : Byte) (a0 a1 : Word) :
    decode ⟨0x54000000 ||| zext32 row <<< 8 ||| zext32 col, a0, a1⟩ = .ok (.mbIsdark row col) := by
  change decode ⟨commandWord 0x54#8 (zext32 row <<< 8) ||| zext32 col, a0, a1⟩ = _
  simp only [commandWord_two_bytes, decode, opcodeOf_commandWord_zext32 0x54#8 (row ++ col) (by decide),
    formatRC_commandWord]

/-- What MB_CELL returns of a cell, as a number: 4 for the reserved flag, and 2 for DARK or 1 for LIGHT (R250). -/
theorem Cell.code_eq_ofNat (x : Cell) :
    x.code = BitVec.ofNat 32 ((if x.res then 4 else 0) + (if x.val = .dark then 2 else if x.val = .light then 1 else 0)) := by
  obtain ⟨val, res⟩ := x
  cases val <;> cases res <;> rfl

/-- Settles O39: each query by its checks in their order, first MSTAGE and then the square. -/
theorem cellQueries : Obligations.CellQueries := by
  refine ⟨decode_mbCellWord, decode_mbIsdarkWord, fun s row col hs => ⟨?cell, ?cellStage, ?cellRange, ?dark, ?darkStage,
    ?darkRange⟩⟩
  case cell =>
    intro hm hrow hcol
    rw [← Cell.code_eq_ofNat]
    exact gated_eq_success hs ((if_neg hm).trans (if_neg (not_or.2 ⟨Nat.not_le.2 hrow, Nat.not_le.2 hcol⟩)))
  case cellStage => exact fun hm => gated_eq_failure hs (if_pos hm)
  case cellRange => exact fun hm hout => gated_eq_failure hs ((if_neg hm).trans (if_pos hout))
  case dark =>
    intro hm hrow hcol
    exact gated_eq_success hs ((if_neg (not_not.2 hm)).trans (if_neg (not_or.2 ⟨Nat.not_le.2 hrow, Nat.not_le.2 hcol⟩)))
  case darkStage => exact fun hm => gated_eq_failure hs (if_pos hm)
  case darkRange => exact fun hm hout => gated_eq_failure hs ((if_neg (not_not.2 hm)).trans (if_pos hout))

/-! ### The format and version words -/

/-- Settles O42: the eight masks and the nine versions, each word computed by the division of R254 and R257. -/
theorem formatAndVersionWordsAreBch : Obligations.FormatAndVersionWordsAreBch := by
  refine ⟨by decide, by decide, fun v h7 h15 => ?_, by decide⟩
  interval_cases v <;> decide

end Sys2Proof.Machine
end

section
/-! PROOFS. ZigZag: its column pairs in order, and every cell outside column 6 once (R242). -/

open Sys2Proof.Claims

namespace Sys2Proof.Machine

/-! ### The column pairs -/

/-- The right column of pair `t` of a symbol of version `v`: two columns a pair, and one more from the timing column on (R242). -/
def zigzagRight (v t : Nat) : Nat := if t < 2 * v + 5 then 4 * v + 16 - 2 * t else 4 * v + 15 - 2 * t

/-- A right column other than the timing column is taken as it is (R242). -/
theorem zigzagColumns_succ {fuel right : Nat} (h1 : 1 ≤ right) (h6 : right ≠ 6) :
    zigzagColumns (fuel + 1) right = right :: zigzagColumns fuel (right - 2) := by
  rw [zigzagColumns, if_pos h1, if_neg h6]

/-- From an even column `2k + 6` down: `k` pairs to the right of the timing column, then three to its left (R242). -/
theorem zigzagColumns_even {fuel k : Nat} (h : k + 3 < fuel) :
    zigzagColumns fuel (2 * k + 6) = (List.range k).map (fun t => 2 * k + 6 - 2 * t) ++ [5, 3, 1] := by
  induction k generalizing fuel with
  | zero =>
    obtain ⟨fuel, rfl⟩ : ∃ m, fuel = m + 4 := ⟨fuel - 4, by omega⟩
    rfl
  | succ k ih =>
    obtain ⟨fuel, rfl⟩ : ∃ m, fuel = m + 1 := ⟨fuel - 1, by omega⟩
    rw [zigzagColumns_succ (by omega) (by omega), show 2 * (k + 1) + 6 - 2 = 2 * k + 6 by omega, ih (by omega),
      List.range_succ_eq_map]
    simp only [List.map_cons, List.map_map, List.cons_append]
    congr 2
    refine List.map_congr_left fun t _ => ?_
    simp only [Function.comp_apply]
    omega

/-- The column pairs of a symbol, in order (R242). -/
theorem zigzagColumns_eq (v : Nat) :
    zigzagColumns (4 * v + 17) (4 * v + 17 - 1) = (List.range (2 * v + 8)).map (zigzagRight v) := by
  have hbelow : (List.range (2 * v + 5)).map (fun t => 2 * (2 * v + 5) + 6 - 2 * t) =
      (List.range (2 * v + 5)).map (zigzagRight v) := by
    refine List.map_congr_left fun t ht => ?_
    rw [zigzagRight, if_pos (List.mem_range.1 ht)]
    omega
  have hpast : [5, 3, 1] = (List.range 3).map fun j => zigzagRight v (2 * v + 5 + j) := by
    have hright : ∀ j, zigzagRight v (2 * v + 5 + j) = 5 - 2 * j := fun j => by
      rw [zigzagRight, if_neg (by omega)]
      omega
    simp only [hright]
    rfl
  have hrange : List.range (2 * v + 8) = List.range (2 * v + 5) ++ (List.range 3).map (2 * v + 5 + ·) :=
    @List.range_add (2 * v + 5) 3
  rw [show 4 * v + 17 - 1 = 2 * (2 * v + 5) + 6 by omega, zigzagColumns_even (by omega), hbelow, hpast,
    hrange, List.map_append, List.map_map]
  rfl

/-- Every column but the timing column is one of the two of exactly one pair. -/
theorem exists_zigzagRight {v c : Nat} (hc : c < 4 * v + 17) (h6 : c ≠ 6) :
    ∃ t < 2 * v + 8, c = zigzagRight v t ∨ c = zigzagRight v t - 1 := by
  unfold zigzagRight
  by_cases h : 6 < c
  · exact ⟨(4 * v + 16 - c) / 2, by omega, by rw [if_pos (by omega)]; omega⟩
  · exact ⟨(4 * v + 15 - c) / 2, by omega, by rw [if_neg (by omega)]; omega⟩

/-- The two columns of a pair lie in the square, and neither is the timing column. -/
theorem zigzagRight_bounds {v t : Nat} (ht : t < 2 * v + 8) :
    1 ≤ zigzagRight v t ∧ zigzagRight v t < 4 * v + 17 ∧ zigzagRight v t ≠ 6 ∧ zigzagRight v t - 1 ≠ 6 := by
  unfold zigzagRight
  split <;> omega

/-- A later pair lies wholly to the left of an earlier one. -/
theorem zigzagRight_lt {v t u : Nat} (htu : t < u) (hu : u < 2 * v + 8) : zigzagRight v u + 1 < zigzagRight v t := by
  unfold zigzagRight
  split <;> split <;> omega

/-! ### The cells of a pair -/

/-- The row of place `j` of a pair: from the bottom up in the pairs R242 runs upward, from the top down in the others. -/
def zigzagRow (n right j : Nat) : Nat := if (right + 1) &&& 2 = 0 then n - 1 - j else j

/-- The two cells of place `j` of a pair, the right column first (R242). -/
def zigzagPlace (n right j : Nat) : List (Nat × Nat) := [(zigzagRow n right j, right), (zigzagRow n right j, right - 1)]

theorem zigzagPair_eq (n right : Nat) : zigzagPair n right = (List.range n).flatMap (zigzagPlace n right) := rfl

/-- Pair `t` runs upward when `t` is even (R242). -/
theorem zigzagRow_zigzagRight {v t : Nat} (ht : t < 2 * v + 8) (j : Nat) :
    zigzagRow (4 * v + 17) (zigzagRight v t) j = if t % 2 = 0 then 4 * v + 17 - 1 - j else j := by
  have hbit : ∀ x : Nat, x &&& 2 = 0 ↔ x / 2 % 2 = 0 := fun x => by
    have := Nat.and_two_pow x 1
    rw [Nat.testBit_eq_decide_div_mod_eq] at this
    simp only [pow_one] at this
    rw [this]
    rcases Nat.mod_two_eq_zero_or_one (x / 2) with h | h <;> simp [h]
  have hup : (zigzagRight v t + 1) &&& 2 = 0 ↔ t % 2 = 0 := by
    rw [hbit, zigzagRight]
    split <;> omega
  simp only [zigzagRow, hup]

/-- Two places of a pair with the same row are the same place. -/
theorem zigzagRow_inj {n right i j : Nat} (hi : i < n) (hj : j < n) (h : zigzagRow n right i = zigzagRow n right j) :
    i = j := by
  unfold zigzagRow at h
  split at h <;> omega

/-- A pair holds the cells of its two columns (R242). -/
theorem mem_zigzagPair {n right r c : Nat} : (r, c) ∈ zigzagPair n right ↔ r < n ∧ (c = right ∨ c = right - 1) := by
  simp only [zigzagPair_eq, zigzagPlace, List.mem_flatMap, List.mem_range, List.mem_cons, Prod.mk.injEq,
    List.not_mem_nil, or_false]
  constructor
  · rintro ⟨j, hj, h⟩
    have hrow : zigzagRow n right j < n := by unfold zigzagRow; split <;> omega
    rcases h with ⟨rfl, rfl⟩ | ⟨rfl, rfl⟩ <;> simp [hrow]
  · rintro ⟨hr, hc⟩
    have hself : zigzagRow n right (zigzagRow n right r) = r := by unfold zigzagRow; split <;> omega
    refine ⟨zigzagRow n right r, by unfold zigzagRow; split <;> omega, ?_⟩
    rw [hself]
    exact hc.imp (⟨rfl, ·⟩) (⟨rfl, ·⟩)

/-- A pair visits none of its cells twice. -/
theorem nodup_zigzagPair {n right : Nat} (h : 1 ≤ right) : (zigzagPair n right).Nodup := by
  rw [zigzagPair_eq, List.nodup_flatMap]
  refine ⟨fun j _ => ?_, List.nodup_range.imp_of_mem fun {i j} hi hj hij => ?_⟩
  · have : right ≠ right - 1 := by omega
    simp [zigzagPlace, this]
  · have hrow : zigzagRow n right i ≠ zigzagRow n right j := fun h =>
      hij (zigzagRow_inj (List.mem_range.1 hi) (List.mem_range.1 hj) h)
    simp [Function.onFun, zigzagPlace, hrow.symm]

@[simp] theorem length_zigzagPair (n right : Nat) : (zigzagPair n right).length = 2 * n := by
  simp [zigzagPair_eq, zigzagPlace, List.length_flatMap, Nat.mul_comm]

/-- Where the two cells of place `j` stand in the pair (R242). -/
theorem getElem?_zigzagPair {n right j : Nat} (hj : j < n) :
    (zigzagPair n right)[2 * j]? = some (zigzagRow n right j, right) ∧
    (zigzagPair n right)[2 * j + 1]? = some (zigzagRow n right j, right - 1) := by
  have hcell : ∀ k < 2, (zigzagPair n right)[2 * j + k]? = (zigzagPlace n right j)[k]? := fun k hk => by
    rw [zigzagPair_eq, List.flatMap_def]
    refine getElem?_flatten_of_rows (fun row hrow => ?_) (by simp [hj]) hk
    obtain ⟨i, -, rfl⟩ := List.mem_map.1 (List.mem_of_mem_take hrow)
    rfl
  exact ⟨hcell 0 (by decide), hcell 1 (by decide)⟩

/-! ### The whole order -/

/-- ZigZag is its pairs, one after another (R242). -/
theorem zigzag_eq (v : Nat) :
    zigzag (4 * v + 17) = ((List.range (2 * v + 8)).map fun t => zigzagPair (4 * v + 17) (zigzagRight v t)).flatten := by
  rw [zigzag, zigzagColumns_eq, List.flatMap_def, List.map_map]
  rfl

/-- ZigZag holds the cells of the square outside column 6 (R242). -/
theorem mem_zigzag {v r c : Nat} : (r, c) ∈ zigzag (4 * v + 17) ↔ r < 4 * v + 17 ∧ c < 4 * v + 17 ∧ c ≠ 6 := by
  simp only [zigzag_eq, List.mem_flatten, List.mem_map, List.mem_range, exists_exists_and_eq_and, mem_zigzagPair]
  constructor
  · rintro ⟨t, ht, hr, hc⟩
    obtain ⟨h1, hlt, h6, h6'⟩ := zigzagRight_bounds ht
    exact ⟨hr, by omega, by omega⟩
  · rintro ⟨hr, hc, h6⟩
    obtain ⟨t, ht, hcol⟩ := exists_zigzagRight hc h6
    exact ⟨t, ht, hr, hcol⟩

/-- ZigZag visits no cell twice: each pair does not, and two pairs have no column in common (R242). -/
theorem nodup_zigzag (v : Nat) : (zigzag (4 * v + 17)).Nodup := by
  rw [zigzag_eq, List.nodup_flatten]
  constructor
  · rintro l hl
    obtain ⟨t, ht, rfl⟩ := List.mem_map.1 hl
    exact nodup_zigzagPair (zigzagRight_bounds (List.mem_range.1 ht)).1
  · rw [List.pairwise_map]
    refine List.pairwise_lt_range.imp_of_mem fun {t u} _ hu htu => ?_
    rintro ⟨r, c⟩ hmem hmem'
    have hlt := zigzagRight_lt htu (List.mem_range.1 hu)
    rw [mem_zigzagPair] at hmem hmem'
    omega

/-- Cell `k` of pair `t` in the whole order. -/
theorem getElem?_zigzag {v t k : Nat} (ht : t < 2 * v + 8) (hk : k < 2 * (4 * v + 17)) :
    (zigzag (4 * v + 17))[2 * (4 * v + 17) * t + k]? = (zigzagPair (4 * v + 17) (zigzagRight v t))[k]? := by
  rw [zigzag_eq]
  refine getElem?_flatten_of_rows (fun row hrow => ?_) (by simp [ht]) (by simpa using hk)
  obtain ⟨u, -, rfl⟩ := List.mem_map.1 (List.mem_of_mem_take hrow)
  exact length_zigzagPair _ _

/-- Settles O37: the order is the column pairs one after another, and each pair is its cells one after another. -/
theorem zigzagVisitsEachCellOnce : Obligations.ZigzagVisitsEachCellOnce := by
  refine fun v _ _ => ⟨nodup_zigzag v, fun _ _ => mem_zigzag, fun t j ht hj => ?_⟩
  obtain ⟨hright, hleft⟩ := getElem?_zigzagPair (right := zigzagRight v t) hj
  rw [zigzagRow_zigzagRight ht] at hright hleft
  have hplace : 2 * ((4 * v + 17) * t + j) = 2 * (4 * v + 17) * t + 2 * j := by ring
  rw [hplace, Nat.add_assoc, getElem?_zigzag ht (by omega), getElem?_zigzag ht (by omega), hright, hleft]
  exact ⟨rfl, rfl⟩

end Sys2Proof.Machine
end

section
/-! PROOFS. Data placement: where the bits of the sequence go, and MB_PLACE (R240, R244, R246). -/

open Sys2Proof.Claims

namespace Sys2Proof.Machine

/-! ### Setting the value of a cell -/

/-- `putVal` changes no reserved flag. -/
theorem Grid.res_putVal {g : Grid} (h : g.shaped) {r c : Nat} (hr : r < Config.matDim) (hc : c < Config.matDim) (d : Bool)
    (r' c' : Nat) : ((g.putVal r c d).cell r' c').res = (g.cell r' c').res := by
  by_cases hsame : r' = r ∧ c' = c
  · obtain ⟨rfl, rfl⟩ := hsame
    rw [Grid.cell_putVal_same h hr hc]
  · rw [Grid.cell_putVal_other g (not_and_or.1 hsame)]

/-! ### The bit stream -/

@[simp] theorem length_codewordBits (seq : List Byte) : (codewordBits seq).length = 8 * seq.length := by
  simp [codewordBits, List.length_flatMap, Nat.mul_comm]

/-- Bit `j` of the stream is bit `j mod 8` of codeword `j div 8`, most significant first; there is none after the last
codeword (R244). -/
theorem getD_codewordBits (seq : List Byte) (j : Nat) :
    (codewordBits seq).getD j false = (decide (j < 8 * seq.length) && (seq.getD (j / 8) 0).getLsbD (7 - j % 8)) := by
  by_cases hj : j < 8 * seq.length
  · have hword : j / 8 < seq.length := by omega
    have hbit : j % 8 < 8 := by omega
    have hread : (codewordBits seq)[8 * (j / 8) + j % 8]? = (msbBits 8 seq[j / 8].toNat)[j % 8]? := by
      rw [codewordBits, List.flatMap_def]
      refine getElem?_flatten_of_rows (fun row hrow => ?_) (by simp [hword]) (by simpa using hbit)
      obtain ⟨b, -, rfl⟩ := List.mem_map.1 (List.mem_of_mem_take hrow)
      exact length_msbBits _ _
    have hbit' : j % 8 < (msbBits 8 seq[j / 8].toNat).length := by simpa using hbit
    rw [Nat.div_add_mod, List.getElem?_eq_getElem hbit', getElem_msbBits] at hread
    rw [List.getD_eq_getElem?_getD, hread, decide_eq_true hj, List.getD_eq_getElem _ _ hword]
    rfl
  · rw [List.getD_eq_default _ _ (by simpa using hj), decide_eq_false hj, Bool.false_and]

/-! ### Placement -/

/-- The non-reserved ones of a list of cells, in order (R240). -/
def freeCells (g : Grid) (cells : List (Nat × Nat)) : List (Nat × Nat) :=
  cells.filter fun p => (g.cell p.1 p.2).res = false

@[simp] theorem freeCells_nil (g : Grid) : freeCells g [] = [] := rfl

section Placement
variable {g : Grid} {r c : Nat} {cells : List (Nat × Nat)} {bits : List Bool} {k : Nat}

theorem freeCells_cons_reserved (h : (g.cell r c).res = true) : freeCells g ((r, c) :: cells) = freeCells g cells :=
  List.filter_cons_of_neg (by simp [h])

theorem freeCells_cons_free (h : (g.cell r c).res = false) : freeCells g ((r, c) :: cells) = (r, c) :: freeCells g cells :=
  List.filter_cons_of_pos (by simp [h])

/-- Placing a bit reserves no cell and frees none. -/
theorem freeCells_putVal (hg : g.shaped) (hr : r < Config.matDim) (hc : c < Config.matDim) (d : Bool) :
    freeCells (g.putVal r c d) cells = freeCells g cells :=
  List.filter_congr fun _ _ => by rw [Grid.res_putVal hg hr hc]

/-- A reserved cell is passed over (R240). -/
theorem placeBits_cons_reserved (h : (g.cell r c).res = true) :
    placeBits ((r, c) :: cells) bits g k = placeBits cells bits g k := by
  cases bits <;> exact if_pos h

/-- A free cell takes the next bit, or LIGHT where none is left (R240, R246). -/
theorem placeBits_cons_free (h : (g.cell r c).res = false) :
    placeBits ((r, c) :: cells) bits g k =
      placeBits cells bits.tail (g.putVal r c (bits.getD 0 false)) (k + min 1 bits.length) := by
  have hfree : ¬ (g.cell r c).res = true := Bool.eq_false_iff.1 h
  cases bits with
  | nil => exact if_neg hfree
  | cons b bs =>
    rw [List.length_cons, Nat.min_eq_left (Nat.le_add_left 1 _)]
    exact if_neg hfree

/-- The number of bits placed (R240). -/
theorem placeBits_count (hg : g.shaped) (hcells : ∀ p ∈ cells, p.1 < Config.matDim ∧ p.2 < Config.matDim) :
    (placeBits cells bits g k).2 = k + min (freeCells g cells).length bits.length := by
  induction cells generalizing bits g k with
  | nil => simp [placeBits]
  | cons p cells ih =>
    obtain ⟨r, c⟩ := p
    rw [List.forall_mem_cons] at hcells
    obtain ⟨⟨hr, hc⟩, hcells⟩ := hcells
    cases h : (g.cell r c).res with
    | true => rw [placeBits_cons_reserved h, freeCells_cons_reserved h, ih hg hcells]
    | false =>
      rw [placeBits_cons_free h, freeCells_cons_free h, ih (Grid.shaped_putVal hg _ _ _) hcells,
        freeCells_putVal hg hr hc, List.length_cons, List.length_tail]
      omega

/-- Placement changes the free cells only (R240). -/
theorem placeBits_other {r' c' : Nat} (hg : g.shaped) (hcells : ∀ p ∈ cells, p.1 < Config.matDim ∧ p.2 < Config.matDim)
    (hp : (r', c') ∉ freeCells g cells) : (placeBits cells bits g k).1.cell r' c' = g.cell r' c' := by
  induction cells generalizing bits g k with
  | nil => rfl
  | cons p cells ih =>
    obtain ⟨r, c⟩ := p
    rw [List.forall_mem_cons] at hcells
    obtain ⟨⟨hr, hc⟩, hcells⟩ := hcells
    cases h : (g.cell r c).res with
    | true =>
      rw [freeCells_cons_reserved h] at hp
      rw [placeBits_cons_reserved h, ih hg hcells hp]
    | false =>
      rw [freeCells_cons_free h, List.mem_cons, not_or, Prod.mk.injEq, not_and_or] at hp
      obtain ⟨hne, hp⟩ := hp
      rw [placeBits_cons_free h,
        ih (Grid.shaped_putVal hg _ _ _) hcells (by rwa [freeCells_putVal hg hr hc]), Grid.cell_putVal_other g hne]

/-- The `j`-th free cell holds bit `j`, or LIGHT after the last bit (R240, R246). -/
theorem placeBits_free {r' c' j : Nat} (hg : g.shaped) (hcells : ∀ p ∈ cells, p.1 < Config.matDim ∧ p.2 < Config.matDim)
    (hnodup : cells.Nodup) (hj : (freeCells g cells)[j]? = some (r', c')) :
    (placeBits cells bits g k).1.cell r' c' = ⟨bitColour (bits.getD j false), false⟩ := by
  induction cells generalizing bits g k j with
  | nil => simp at hj
  | cons p cells ih =>
    obtain ⟨r, c⟩ := p
    rw [List.forall_mem_cons] at hcells
    obtain ⟨⟨hr, hc⟩, hcells⟩ := hcells
    obtain ⟨hnew, hnodup⟩ := List.nodup_cons.1 hnodup
    have hshaped := Grid.shaped_putVal hg r c (bits.getD 0 false)
    cases h : (g.cell r c).res with
    | true =>
      rw [freeCells_cons_reserved h] at hj
      rw [placeBits_cons_reserved h, ih hg hcells hnodup hj]
    | false =>
      rw [freeCells_cons_free h] at hj
      rw [placeBits_cons_free h]
      cases j with
      | zero =>
        obtain ⟨rfl, rfl⟩ : r = r' ∧ c = c' := by simpa using hj
        have hpast : (r, c) ∉ freeCells (g.putVal r c (bits.getD 0 false)) cells := fun hmem =>
          hnew (List.mem_of_mem_filter hmem)
        rw [placeBits_other hshaped hcells hpast, Grid.cell_putVal_same hg hr hc, h]
        rfl
      | succ j =>
        rw [List.getElem?_cons_succ, ← freeCells_putVal hg hr hc] at hj
        rw [ih hshaped hcells hnodup hj]
        cases bits <;> rfl

end Placement

/-! ### MB_PLACE -/

/-- MB_PLACE's word decodes whatever the argument words are (R90, R94). -/
theorem decode_mbPlaceWord (a0 a1 : Word) : decode ⟨0x51000000, a0, a1⟩ = .ok .mbPlace := by
  simp [decode, opcodeOf, formatN, withFormat, reservedClear]

/-- Every cell of ZigZag lies in the array. -/
theorem zigzag_in_array (s : State) : ∀ p ∈ zigzag s.side, p.1 < Config.matDim ∧ p.2 < Config.matDim := fun _ hp => by
  obtain ⟨hr, hc, -⟩ := mem_zigzag.1 hp
  exact ⟨hr.trans_le s.side_le, hc.trans_le s.side_le⟩

/-- The SEQ region lies in WRAM (R73). -/
theorem seqRegion_fits (s : State) : Config.seqBase + Rom.totalCount s.ver ≤ Config.wramSize := by
  have := (Rom.counts_fit s.ver (Nat.le_of_lt_succ s.version.isLt)).2.2
  simp only [Config.seqBase, Config.wramSize]
  omega

section MbPlace
variable {s : State} (hm : s.mstage = .func)
include hm

/-- A fault in reading the sequence is the command's (R71). -/
theorem mbPlaceBody_seq_stops {f : Fault} (hseq : s.seqRegion = stop f) : mbPlaceBody s = stop f := by
  rw [mbPlaceBody, if_neg (not_not.2 hm), hseq]
  rfl

/-- The sequence is written: its bits go into the free cells of ZigZag, and their number into RESULT (R240). -/
theorem mbPlaceBody_eq_ok {seq : List Byte} (hlen : seq.length = Rom.totalCount s.ver) (hseq : written s 0x800 seq)
    (hshaped : s.mat.shaped) :
    mbPlaceBody s = .ok
      ({ s with mat := (placeBits (zigzag s.side) (codewordBits seq) s.mat 0).1, mstage := .placed },
        BitVec.ofNat 32 (min (freeCells s.mat (zigzag s.side)).length (8 * seq.length))) := by
  have hread : s.seqRegion = .ok seq := Memory.readBytes_eq hlen (seqRegion_fits s) hseq
  have hcount := placeBits_count (bits := codewordBits seq) (k := 0) hshaped (zigzag_in_array s)
  rw [Nat.zero_add, length_codewordBits] at hcount
  rw [mbPlaceBody, if_neg (not_not.2 hm), hread, Exec.ok_bind, ← hcount]
  rfl

/-- MB_PLACE faults on an unwritten byte of the sequence (R71). -/
theorem mbPlace_faultsOnUnwritten (hs : s.err = .ok) : faultsOnUnwritten .mbPlace s 0x800 (Rom.totalCount s.ver) := by
  intro hunwritten
  obtain ⟨a, hlow, hhigh, hnone, hread⟩ := Memory.readBytes_unwritten (seqRegion_fits s) hunwritten
  exact ⟨a, ⟨hlow, hhigh, hnone⟩, gated_stop hs (mbPlaceBody_seq_stops hm hread)⟩

end MbPlace

/-- Settles O38: the cells by what placement does along a list that visits no cell twice, and the other outcomes by the checks
of R240 in their order. -/
theorem mbPlacePlacesTheBits : Obligations.MbPlacePlacesTheBits := by
  refine ⟨decode_mbPlaceWord, fun s hs => ⟨fun seq hm hshaped hlen hseq => ?_, fun hm => mbPlace_faultsOnUnwritten hm hs,
    fun hm => gated_eq_failure hs (if_pos hm)⟩⟩
  refine ⟨_, gated_eq_success hs (mbPlaceBody_eq_ok hm hlen hseq hshaped), fun j r c hj => ?_, fun r c hp =>
    placeBits_other hshaped (zigzag_in_array s) hp⟩
  rw [placeBits_free hshaped (zigzag_in_array s) (nodup_zigzag s.ver) hj, getD_codewordBits]

end Sys2Proof.Machine
end

section
/-! PROOFS. Finalisation: writing a word over the matrix, where the format and version words stand, and the masked cells
(R253, R256, R258). -/

open Sys2Proof.Claims

namespace Sys2Proof.Machine

/-! ### Writing a word -/

/-- Gives every cell of a list one colour: what `writeWord` does for each bit. -/
def Grid.putVals (g : Grid) (ps : List (Nat × Nat)) (d : Bool) : Grid := ps.foldl (fun g p => g.putVal p.1 p.2 d) g

theorem Grid.shaped_putVals {g : Grid} (h : g.shaped) (ps : List (Nat × Nat)) (d : Bool) : (g.putVals ps d).shaped := by
  induction ps generalizing g with
  | nil => exact h
  | cons p ps ih => exact ih (Grid.shaped_putVal h _ _ _)

/-- The listed cells take the colour and keep their reserved flags; the others stay. -/
theorem Grid.cell_putVals {g : Grid} (h : g.shaped) {ps : List (Nat × Nat)}
    (hps : ∀ p ∈ ps, p.1 < Config.matDim ∧ p.2 < Config.matDim) (d : Bool) (r c : Nat) :
    (g.putVals ps d).cell r c = if (r, c) ∈ ps then ⟨bitColour d, (g.cell r c).res⟩ else g.cell r c := by
  induction ps generalizing g with
  | nil => rfl
  | cons p ps ih =>
    obtain ⟨r', c'⟩ := p
    rw [List.forall_mem_cons] at hps
    obtain ⟨⟨hr, hc⟩, hps⟩ := hps
    change (Grid.putVals (g.putVal r' c' d) ps d).cell r c = _
    rw [ih (Grid.shaped_putVal h _ _ _) hps, Grid.res_putVal h hr hc]
    by_cases hsame : r = r' ∧ c = c'
    · obtain ⟨rfl, rfl⟩ := hsame
      rw [Grid.cell_putVal_same h hr hc, if_pos List.mem_cons_self]
      exact ite_self _
    · simp [Grid.cell_putVal_other g (not_and_or.1 hsame), hsame]

section WriteWord
variable {g : Grid} (h : g.shaped) {cells : Nat → List (Nat × Nat)} (w : Nat) {bits : Nat} {r c : Nat}

/-- The last bit of a word is written last. -/
theorem Grid.writeWord_succ :
    g.writeWord cells w (bits + 1) = (g.writeWord cells w bits).putVals (cells bits) (w.testBit bits) := by
  rw [Grid.writeWord, List.range_succ, List.foldl_append]
  rfl

include h

theorem Grid.shaped_writeWord : (g.writeWord cells w bits).shaped := by
  induction bits with
  | zero => exact h
  | succ bits ih => rw [Grid.writeWord_succ]; exact Grid.shaped_putVals ih _ _

variable (hcells : ∀ i < bits, ∀ p ∈ cells i, p.1 < Config.matDim ∧ p.2 < Config.matDim)
include hcells

/-- Writing a word changes no reserved flag. -/
theorem Grid.res_writeWord : ((g.writeWord cells w bits).cell r c).res = (g.cell r c).res := by
  induction bits with
  | zero => rfl
  | succ bits ih =>
    rw [Grid.writeWord_succ, Grid.cell_putVals (Grid.shaped_writeWord h w) (hcells bits (Nat.lt_succ_self _)),
      apply_ite Cell.res, ite_self, ih fun i hi => hcells i (Nat.lt_succ_of_lt hi)]

/-- A cell of none of the bits is left alone. -/
theorem Grid.cell_writeWord_other (hp : ∀ i < bits, (r, c) ∉ cells i) :
    (g.writeWord cells w bits).cell r c = g.cell r c := by
  induction bits with
  | zero => rfl
  | succ bits ih =>
    rw [Grid.writeWord_succ, Grid.cell_putVals (Grid.shaped_writeWord h w) (hcells bits (Nat.lt_succ_self _)),
      if_neg (hp bits (Nat.lt_succ_self _)), ih (fun i hi => hcells i (Nat.lt_succ_of_lt hi)) fun i hi =>
        hp i (Nat.lt_succ_of_lt hi)]

/-- A cell of one bit alone takes that bit's colour. -/
theorem Grid.val_writeWord {i : Nat} (hi : i < bits) (hp : (r, c) ∈ cells i) (hone : ∀ j < bits, (r, c) ∈ cells j → j = i) :
    ((g.writeWord cells w bits).cell r c).val = bitColour (w.testBit i) := by
  induction bits with
  | zero => exact absurd hi (Nat.not_lt_zero _)
  | succ bits ih =>
    rw [Grid.writeWord_succ, Grid.cell_putVals (Grid.shaped_writeWord h w) (hcells bits (Nat.lt_succ_self _))]
    by_cases hlast : (r, c) ∈ cells bits
    · rw [if_pos hlast, hone bits (Nat.lt_succ_self _) hlast]
    · have hne : i ≠ bits := fun e => hlast (e ▸ hp)
      rw [if_neg hlast, ih (fun j hj => hcells j (Nat.lt_succ_of_lt hj)) (by omega) fun j hj => hone j (Nat.lt_succ_of_lt hj)]

end WriteWord

/-! ### Where the words stand -/

section WordCells
variable {v i j r c : Nat}

/-- The two cells of a bit of the format word are the claims' (R256). -/
theorem formatCells_eq (v : Nat) (hi : i < 15) :
    formatCells (4 * v + 17) i = [formatCell1 i, formatCell2 (4 * v + 17) i] := by
  unfold formatCells formatCell1 formatCell2
  split_ifs <;> simp only [List.cons.injEq, Prod.mk.injEq, and_true, true_and] <;> omega

/-- The two cells of a bit of the version word (R258). -/
theorem versionCells_eq (v i : Nat) :
    versionCells (4 * v + 17) i = [(i / 3, 4 * v + 6 + i % 3), (4 * v + 6 + i % 3, i / 3)] := rfl

/-- The cells that hold a word are those of its bits. -/
theorem wordCell_iff : wordCell v r c ↔
    (∃ i < 15, (r, c) ∈ formatCells (4 * v + 17) i) ∨ (7 ≤ v ∧ ∃ i < 18, (r, c) ∈ versionCells (4 * v + 17) i) := by
  have hformat : ∀ i, i < 15 ∧ (r, c) ∈ formatCells (4 * v + 17) i ↔
      i < 15 ∧ ((r, c) = formatCell1 i ∨ (r, c) = formatCell2 (4 * v + 17) i) := fun i =>
    and_congr_right fun hi => by simp [formatCells_eq v hi]
  simp [wordCell, hformat, versionCells_eq]

/-- Where the first copy of the format word has bit `i`: around the upper left finder (R256). -/
theorem eq_formatCell1_iff (hi : i < 15) : (r, c) = formatCell1 i ↔
    (c = 8 ∧ r = i ∧ i ≤ 5) ∨ (c = 8 ∧ r = 7 ∧ i = 6) ∨ (c = 8 ∧ r = 8 ∧ i = 7) ∨ (r = 8 ∧ c = 7 ∧ i = 8) ∨
      (r = 8 ∧ c + i = 14 ∧ 9 ≤ i) := by
  unfold formatCell1
  split_ifs <;> rw [Prod.mk.injEq] <;> omega

/-- Where the second copy of the format word has bit `i`: below the upper right finder and beside the lower left one (R256). -/
theorem eq_formatCell2_iff (hi : i < 15) : (r, c) = formatCell2 (4 * v + 17) i ↔
    (r = 8 ∧ c + i = 4 * v + 16 ∧ i ≤ 7) ∨ (c = 8 ∧ r = 4 * v + 2 + i ∧ 8 ≤ i) := by
  unfold formatCell2
  split_ifs <;> rw [Prod.mk.injEq] <;> omega

/-- Where bit `i` of the version word stands: three cells wide, before the finders (R258). -/
theorem mem_versionCells : (r, c) ∈ versionCells (4 * v + 17) i ↔
    (4 * v + 6 ≤ c ∧ c ≤ 4 * v + 8 ∧ i + 4 * v + 6 = 3 * r + c) ∨
      (4 * v + 6 ≤ r ∧ r ≤ 4 * v + 8 ∧ i + 4 * v + 6 = 3 * c + r) := by
  simp only [versionCells_eq, List.mem_cons, Prod.mk.injEq, List.not_mem_nil, or_false]
  omega

/-- The cells of a bit of the format word are those of its two copies. -/
theorem mem_formatCells (hi : i < 15) :
    (r, c) ∈ formatCells (4 * v + 17) i ↔ (r, c) = formatCell1 i ∨ (r, c) = formatCell2 (4 * v + 17) i := by
  simp [formatCells_eq v hi]

/-- Where the format word has bit `i` (R256). -/
theorem mem_formatCells_iff (hi : i < 15) : (r, c) ∈ formatCells (4 * v + 17) i ↔
    ((c = 8 ∧ r = i ∧ i ≤ 5) ∨ (c = 8 ∧ r = 7 ∧ i = 6) ∨ (c = 8 ∧ r = 8 ∧ i = 7) ∨ (r = 8 ∧ c = 7 ∧ i = 8) ∨
      (r = 8 ∧ c + i = 14 ∧ 9 ≤ i)) ∨
    (r = 8 ∧ c + i = 4 * v + 16 ∧ i ≤ 7) ∨ (c = 8 ∧ r = 4 * v + 2 + i ∧ 8 ≤ i) := by
  rw [mem_formatCells hi, eq_formatCell1_iff hi, eq_formatCell2_iff hi]

/-- No cell holds two bits of the format word. -/
theorem formatCells_unique (h1 : 1 ≤ v) (hi : i < 15) (hj : j < 15) (hpi : (r, c) ∈ formatCells (4 * v + 17) i)
    (hpj : (r, c) ∈ formatCells (4 * v + 17) j) : j = i := by
  rw [mem_formatCells_iff hi] at hpi
  rw [mem_formatCells_iff hj] at hpj
  omega

/-- No cell holds two bits of the version word. -/
theorem versionCells_unique (h7 : 7 ≤ v) (hi : i < 18) (hj : j < 18) (hpi : (r, c) ∈ versionCells (4 * v + 17) i)
    (hpj : (r, c) ∈ versionCells (4 * v + 17) j) : j = i := by
  rw [mem_versionCells] at hpi hpj
  omega

/-- No cell holds a bit of both words: the format word keeps to row 8 and column 8. -/
theorem not_mem_versionCells_of_mem_formatCells (h7 : 7 ≤ v) (hi : i < 15) (hj : j < 18)
    (hpi : (r, c) ∈ formatCells (4 * v + 17) i) : (r, c) ∉ versionCells (4 * v + 17) j := by
  rw [mem_formatCells_iff hi] at hpi
  rw [mem_versionCells]
  omega

/-- The format word lies in the array. -/
theorem formatCells_in_array (h15 : v ≤ 15) :
    ∀ i < 15, ∀ p ∈ formatCells (4 * v + 17) i, p.1 < Config.matDim ∧ p.2 < Config.matDim := by
  rintro i hi ⟨r, c⟩ hp
  rw [mem_formatCells_iff hi] at hp
  simp only [Config.matDim]
  omega

/-- The version word lies in the array. -/
theorem versionCells_in_array (h15 : v ≤ 15) :
    ∀ i < 18, ∀ p ∈ versionCells (4 * v + 17) i, p.1 < Config.matDim ∧ p.2 < Config.matDim := by
  rintro i hi ⟨r, c⟩ hp
  rw [mem_versionCells] at hp
  simp only [Config.matDim]
  omega

end WordCells

/-! ### Finalize -/

/-- The matrix with the mask applied and the format word written: Finalize before version 7 (R253, R256). -/
def maskedAndFormatted (v : Nat) (m : BitVec 3) (g : Grid) : Grid :=
  (g.mapSquare (maskCell m) (4 * v + 17)).writeWord (formatCells (4 * v + 17)) (Rom.fmt m).toNat 15

theorem finalize_eq (v : Nat) (m : BitVec 3) (g : Grid) : finalize v m g =
    if 7 ≤ v then (maskedAndFormatted v m g).writeWord (versionCells (4 * v + 17)) (Rom.vinfo v).toNat 18
    else maskedAndFormatted v m g := rfl

/-- A mask changes no reserved flag (R253). -/
@[simp] theorem res_maskCell (m : BitVec 3) (r c : Nat) (x : Cell) : (maskCell m r c x).res = x.res := by
  unfold maskCell
  split <;> rfl

/-- A mask flips the value of the non-reserved cells it covers (R253). -/
theorem val_maskCell (m : BitVec 3) (r c : Nat) (x : Cell) : (maskCell m r c x).val =
    if x.res = false ∧ maskBit m r c = true then (if x.val = .dark then .light else .dark) else x.val := by
  unfold maskCell
  split <;> rfl

section Finalize
variable {v : Nat} {g : Grid} (hg : g.shaped) (m : BitVec 3) {r c : Nat}
include hg

theorem shaped_maskedAndFormatted : (maskedAndFormatted v m g).shaped :=
  Grid.shaped_writeWord (Grid.shaped_mapSquare hg _ _) _

variable (h15 : v ≤ 15)
include h15

/-- The version word leaves the cells that are not its own. -/
theorem cell_finalize (hp : 7 ≤ v → ∀ i < 18, (r, c) ∉ versionCells (4 * v + 17) i) :
    (finalize v m g).cell r c = (maskedAndFormatted v m g).cell r c := by
  rw [finalize_eq]
  split
  case isTrue h7 =>
    exact Grid.cell_writeWord_other (shaped_maskedAndFormatted hg m) _ (versionCells_in_array h15) (hp h7)
  case isFalse => rfl

/-- The bits of the format word stand at their cells (R256). -/
theorem val_finalize_format (h1 : 1 ≤ v) {i : Nat} (hi : i < 15) (hp : (r, c) ∈ formatCells (4 * v + 17) i) :
    ((finalize v m g).cell r c).val = bitColour ((Rom.fmt m).getLsbD i) := by
  rw [cell_finalize hg m h15 fun h7 j hj => not_mem_versionCells_of_mem_formatCells h7 hi hj hp, ← BitVec.testBit_toNat]
  exact Grid.val_writeWord (Grid.shaped_mapSquare hg _ _) _ (formatCells_in_array h15) hi hp fun j hj =>
    formatCells_unique h1 hi hj hp

/-- The bits of the version word stand at their cells (R258). -/
theorem val_finalize_version (h7 : 7 ≤ v) {i : Nat} (hi : i < 18) (hp : (r, c) ∈ versionCells (4 * v + 17) i) :
    ((finalize v m g).cell r c).val = bitColour ((Rom.vinfo v).getLsbD i) := by
  rw [finalize_eq, if_pos h7, ← BitVec.testBit_toNat]
  exact Grid.val_writeWord (shaped_maskedAndFormatted hg m) _ (versionCells_in_array h15) hi hp fun j hj =>
    versionCells_unique h7 hi hj hp

variable (hr : r < 4 * v + 17) (hc : c < 4 * v + 17)
include hr hc

/-- The masked cells of the square. -/
theorem cell_masked : (g.mapSquare (maskCell m) (4 * v + 17)).cell r c = maskCell m r c (g.cell r c) :=
  Grid.cell_mapSquare hg _ (by simp only [Config.matDim]; omega) hr hc

/-- Finalize changes no reserved flag of the square (R253). -/
theorem res_finalize : ((finalize v m g).cell r c).res = (g.cell r c).res := by
  have hformatted : ((maskedAndFormatted v m g).cell r c).res = (g.cell r c).res := by
    rw [maskedAndFormatted, Grid.res_writeWord (Grid.shaped_mapSquare hg _ _) _ (formatCells_in_array h15),
      cell_masked hg m h15 hr hc, res_maskCell]
  rw [finalize_eq]
  split
  case isTrue =>
    rw [Grid.res_writeWord (shaped_maskedAndFormatted hg m) _ (versionCells_in_array h15), hformatted]
  case isFalse => exact hformatted

/-- A cell of neither word is masked or left alone (R253). -/
theorem val_finalize_other (hp : ¬ wordCell v r c) : ((finalize v m g).cell r c).val = (maskCell m r c (g.cell r c)).val := by
  rw [wordCell_iff] at hp
  push Not at hp
  obtain ⟨hformat, hversion⟩ := hp
  rw [cell_finalize hg m h15 hversion, maskedAndFormatted,
    Grid.cell_writeWord_other (Grid.shaped_mapSquare hg _ _) _ (formatCells_in_array h15) hformat, cell_masked hg m h15 hr hc]

end Finalize

/-- Settles O41: the words by their cells, which no two bits share, and every other cell by the mask. -/
theorem finalizeSetsEveryCell : Obligations.FinalizeSetsEveryCell := by
  refine fun v m g h1 h15 hg => ⟨fun i hi => ?format, fun h7 i hi => ?version, fun r c hr hc => ?other⟩
  case format =>
    exact ⟨val_finalize_format hg m h15 h1 hi ((mem_formatCells hi).2 (.inl rfl)),
      val_finalize_format hg m h15 h1 hi ((mem_formatCells hi).2 (.inr rfl))⟩
  case version =>
    exact ⟨val_finalize_version hg m h15 h7 hi List.mem_cons_self,
      val_finalize_version hg m h15 h7 hi (List.mem_cons_of_mem _ List.mem_cons_self)⟩
  case other =>
    exact ⟨res_finalize hg m h15 hr hc, fun hp => by rw [val_finalize_other hg m h15 hr hc hp, val_maskCell]⟩

end Sys2Proof.Machine
end

section
/-! PROOFS. The function patterns: the colour of each cell after MB_FUNC, and where each pattern lies (R222 to R239). -/

open Sys2Proof.Claims

namespace Sys2Proof.Machine

/-! ### Drawing and reserving -/

section Draw
variable {g : Grid} {n r c : Nat}

/-- A grid of the right shape whose cell has the colour `o`, if it has one, and the reserved flag `b`. -/
def Grid.Coloured (g : Grid) (r c : Nat) (o : Option Bool) (b : Bool) : Prop :=
  g.shaped ∧ g.cell r c = ⟨o.elim .unset bitColour, b⟩

variable {o : Option Bool} {b : Bool} (h : g.Coloured r c o b) (hn : n ≤ Config.matDim) (hr : r < n) (hc : c < n)
include h hn hr hc

/-- A drawn cell takes the pattern's colour and is reserved; the others stay (R220). -/
theorem Grid.Coloured.draw (pattern : Nat → Nat → Option Bool) :
    (g.draw pattern n).Coloured r c ((pattern r c).or o) ((pattern r c).isSome || b) := by
  obtain ⟨hshaped, hcell⟩ := h
  refine ⟨Grid.shaped_mapSquare hshaped _ _, ?_⟩
  rw [Grid.draw, Grid.cell_mapSquare hshaped _ hn hr hc, hcell]
  cases pattern r c <;> rfl

/-- A cell of a reserved area keeps its value; the others stay (R236, R237). -/
theorem Grid.Coloured.reserve (area : Nat → Nat → Bool) :
    (g.reserve area n).Coloured r c o (area r c || b) := by
  obtain ⟨hshaped, hcell⟩ := h
  refine ⟨Grid.shaped_mapSquare hshaped _ _, ?_⟩
  rw [Grid.reserve, Grid.cell_mapSquare hshaped _ hn hr hc, hcell]
  cases area r c <;> rfl

end Draw

/-! ### The cells of the function patterns -/

/-- The colour that the function patterns give a cell: of the patterns that draw it, the one drawn last counts (R222). -/
def functionColour (v r c : Nat) : Option Bool :=
  (darkModule (4 * v + 17) r c).or ((alignPattern v r c).or ((finderPattern (4 * v + 17) r c).or (timingPattern r c)))

/-- The reserved set is what the patterns draw and what is kept for the two words (R239). -/
theorem reservedSet_eq (v r c : Nat) : reservedSet v r c = ((functionColour v r c).isSome || lateCells v r c) := by
  simp only [reservedSet, lateCells, functionColour, Rom.size, Option.isSome_or]
  ac_rfl

section Square
variable {v : Nat} {g : Grid} (h15 : v ≤ 15) (hg : g.shaped) {r c : Nat} (hr : r < 4 * v + 17) (hc : c < 4 * v + 17)
include h15 hg hr hc

/-- A cell of the square after MB_FUNC (R222). -/
theorem cell_functionPatterns :
    (functionPatterns v g).cell r c = ⟨(functionColour v r c).elim .unset bitColour, reservedSet v r c⟩ := by
  have hn : 4 * v + 17 ≤ Config.matDim := by simp only [Config.matDim]; omega
  have hblank : (g.mapSquare (fun _ _ _ => Cell.blank) (4 * v + 17)).Coloured r c none false :=
    ⟨Grid.shaped_mapSquare hg _ _, Grid.cell_mapSquare hg _ hn hr hc⟩
  have htiming := hblank.draw hn hr hc timingPattern
  have hfinders := htiming.draw hn hr hc (finderPattern (4 * v + 17))
  have haligns := hfinders.draw hn hr hc (alignPattern v)
  have hdark := (haligns.reserve hn hr hc (formatArea (4 * v + 17))).draw hn hr hc (darkModule (4 * v + 17))
  rw [Option.or_none] at hdark
  unfold functionPatterns
  split
  case isTrue h7 =>
    rw [reservedSet, decide_eq_true h7]
    refine (hdark.reserve hn hr hc (versionArea (4 * v + 17))).2.trans (congrArg (Cell.mk _) ?_)
    simp only [Rom.size, Bool.true_and, Bool.or_false]
    ac_rfl
  case isFalse h7 =>
    rw [reservedSet, decide_eq_false h7]
    refine hdark.2.trans (congrArg (Cell.mk _) ?_)
    simp only [Rom.size, Bool.false_and, Bool.or_false]
    ac_rfl

/-- A cell that some pattern draws has its colour and is reserved. -/
theorem cell_functionPatterns_of_colour {d : Bool} (h : functionColour v r c = some d) :
    (functionPatterns v g).cell r c = ⟨bitColour d, true⟩ := by
  rw [cell_functionPatterns h15 hg hr hc, reservedSet_eq, h]
  rfl

end Square

/-! ### Patterns made of rings -/

section Rings
variable {k : Nat} {dark : Nat → Bool} {centres : List (Nat × Nat)} {p q r c : Nat}

/-- A pattern of square rings around centres: the ring at a distance up to `k` has the colour `dark` gives it (R223, R226). -/
def ringPattern (k : Nat) (dark : Nat → Bool) (centres : List (Nat × Nat)) (r c : Nat) : Option Bool :=
  centres.findSome? fun p => if ringDist r c p.1 p.2 ≤ k then some (dark (ringDist r c p.1 p.2)) else none

/-- A cell lies within distance `k` of a centre when it does in both coordinates. -/
theorem ringDist_le_iff : ringDist r c p q ≤ k ↔ p ≤ r + k ∧ r ≤ p + k ∧ q ≤ c + k ∧ c ≤ q + k := by
  rw [ringDist, max_le_iff, absDiff, absDiff]
  omega

/-- Moving a cell and the centre together keeps their distance. -/
theorem ringDist_add (a b : Nat) : ringDist (a + r) (b + c) (a + p) (b + q) = ringDist r c p q := by
  simp only [ringDist, absDiff, Nat.add_sub_add_left]

/-- Counted from the corner of a pattern, the centre stands at `(k, k)`. -/
theorem ringDist_from_corner {dr dc : Nat} (hp : k ≤ p) (hq : k ≤ q) :
    ringDist (p - k + dr) (q - k + dc) p q = ringDist dr dc k k := by
  rw [← ringDist_add (p - k) (q - k) (p := k), Nat.sub_add_cancel hp, Nat.sub_add_cancel hq]

theorem ringDist_same_row (r c q : Nat) : ringDist r c r q = absDiff c q := by simp [ringDist, absDiff]

theorem ringDist_same_column (r c p : Nat) : ringDist r c p c = absDiff r p := by simp [ringDist, absDiff]

/-- A ring is its upper and lower rows and its left and right columns. -/
theorem ringDist_eq_iff : ringDist r c p q = k ↔
    (absDiff r p = k ∧ absDiff c q ≤ k) ∨ (absDiff r p ≤ k ∧ absDiff c q = k) := by
  unfold ringDist
  omega

/-- What a ring pattern draws is a ring of one of its centres. -/
theorem exists_centre_of_ringPattern {d : Bool} (h : ringPattern k dark centres r c = some d) :
    ∃ p q, (p, q) ∈ centres ∧ ringDist r c p q ≤ k ∧ d = dark (ringDist r c p q) := by
  obtain ⟨⟨p, q⟩, hmem, hpq⟩ := List.exists_of_findSome?_eq_some h
  rw [Option.ite_none_right_eq_some, Option.some.injEq] at hpq
  exact ⟨p, q, hmem, hpq.1, hpq.2.symm⟩

/-- A ring pattern draws the cells near one of its centres. -/
theorem isSome_ringPattern :
    (ringPattern k dark centres r c).isSome = true ↔ ∃ p q, (p, q) ∈ centres ∧ ringDist r c p q ≤ k := by
  rw [ringPattern, List.findSome?_isSome_iff, Prod.exists]
  simp

/-- A cell near one centre only has that centre's ring. -/
theorem ringPattern_of_near (hmem : (p, q) ∈ centres) (hnear : ringDist r c p q ≤ k)
    (hone : ∀ p' q', (p', q') ∈ centres → ringDist r c p' q' ≤ k → p' = p ∧ q' = q) :
    ringPattern k dark centres r c = some (dark (ringDist r c p q)) := by
  obtain ⟨d, hd⟩ := Option.isSome_iff_exists.1 (isSome_ringPattern (dark := dark).2 ⟨p, q, hmem, hnear⟩)
  obtain ⟨p', q', hmem', hnear', rfl⟩ := exists_centre_of_ringPattern hd
  obtain ⟨rfl, rfl⟩ := hone p' q' hmem' hnear'
  exact hd

end Rings

/-- The rings of a finder with its separator: those at distance 2 and 4 are light (R223, R224). -/
def finderRing (d : Nat) : Bool := d != 2 && d != 4

theorem finderPattern_eq (n r c : Nat) : finderPattern n r c = ringPattern 4 finderRing (finderCentres n) r c := rfl

/-- The rings of an alignment pattern: the one at distance 1 is light (R226). -/
def alignRing (d : Nat) : Bool := d != 1

theorem alignPattern_eq (v r c : Nat) : alignPattern v r c = ringPattern 2 alignRing (alignCentres v) r c := rfl

/-! ### Where the finders, the timing patterns and the dark module lie -/

section Lie
variable {v r c : Nat}

/-- The three centres of the finders (R223). -/
theorem mem_finderCentres {p q : Nat} : (p, q) ∈ finderCentres (4 * v + 17) ↔
    (p = 3 ∧ q = 3) ∨ (p = 3 ∧ q = 4 * v + 13) ∨ (p = 4 * v + 13 ∧ q = 3) := by
  simp [finderCentres]

/-- The finders with their separators fill three corners of the square (R223, R224). -/
theorem isSome_finderPattern (hr : r < 4 * v + 17) (hc : c < 4 * v + 17) :
    (finderPattern (4 * v + 17) r c).isSome = true ↔
      (r ≤ 7 ∧ c ≤ 7) ∨ (r ≤ 7 ∧ 4 * v + 9 ≤ c) ∨ (4 * v + 9 ≤ r ∧ c ≤ 7) := by
  rw [finderPattern_eq, isSome_ringPattern]
  simp only [mem_finderCentres, ringDist_le_iff]
  constructor
  · rintro ⟨p, q, ⟨rfl, rfl⟩ | ⟨rfl, rfl⟩ | ⟨rfl, rfl⟩, hnear⟩ <;> omega
  · rintro (h | h | h)
    · exact ⟨3, 3, by omega⟩
    · exact ⟨3, 4 * v + 13, by omega⟩
    · exact ⟨4 * v + 13, 3, by omega⟩

/-- The timing patterns are row 6 and column 6 (R225). -/
theorem isSome_timingPattern : (timingPattern r c).isSome = true ↔ r = 6 ∨ c = 6 := by
  unfold timingPattern
  split_ifs <;> simp [*]

/-- The dark module (R228). -/
theorem isSome_darkModule : (darkModule (4 * v + 17) r c).isSome = true ↔ r = 4 * v + 9 ∧ c = 8 := by
  unfold darkModule
  split_ifs <;> simp <;> omega

/-! ### Where the alignment patterns lie -/

/-- The model's coordinates are the claims' (R227). -/
theorem Rom.alignPos_eq (h1 : 1 ≤ v) : Rom.alignPos v = alignTable.getD (v - 1) [] := by
  obtain ⟨k, rfl⟩ : ∃ k, v = k + 1 := ⟨v - 1, by omega⟩
  rfl

/-- An entry of a list of numbers, by its index. -/
theorem getD_mem {xs : List Nat} {a : Nat} (ha : a < xs.length) : xs.getD a 0 ∈ xs := by
  rw [List.getD_eq_getElem _ _ ha]
  exact List.getElem_mem ha

theorem exists_getD_of_mem {xs : List Nat} {p : Nat} (hp : p ∈ xs) : ∃ a < xs.length, xs.getD a 0 = p := by
  obtain ⟨a, ha, rfl⟩ := List.mem_iff_getElem.1 hp
  exact ⟨a, ha, List.getD_eq_getElem _ _ ha⟩

/-- The centres by the indices of their coordinates (R226). -/
theorem mem_alignCentres_of_index {p q : Nat} : (p, q) ∈ alignCentres v ↔
    ∃ a < (Rom.alignPos v).length, ∃ b < (Rom.alignPos v).length,
      ¬ ((a = 0 ∧ b = 0) ∨ (a = 0 ∧ b + 1 = (Rom.alignPos v).length) ∨ (a + 1 = (Rom.alignPos v).length ∧ b = 0)) ∧
      (Rom.alignPos v).getD a 0 = p ∧ (Rom.alignPos v).getD b 0 = q := by
  simp only [alignCentres, List.mem_flatMap, List.mem_filterMap, List.mem_range, Option.ite_none_left_eq_some,
    Option.some.injEq, Prod.mk.injEq]

section Versions
variable (h1 : 1 ≤ v) (h15 : v ≤ 15)
include h1 h15

/-- The first coordinate is 6, the last one is `N - 7`, and no other one has either value (R227). -/
theorem Rom.alignPos_ends : ∀ a < (Rom.alignPos v).length,
    ((Rom.alignPos v).getD a 0 = 6 ↔ a = 0) ∧ ((Rom.alignPos v).getD a 0 = 4 * v + 10 ↔ a + 1 = (Rom.alignPos v).length) := by
  interval_cases v <;> decide

/-- Every coordinate is even, and but for the first and the last it is at least 16 away from both (R227). -/
theorem Rom.alignPos_spread : ∀ p ∈ Rom.alignPos v,
    p % 2 = 0 ∧ (p = 6 ∨ (22 ≤ p ∧ p + 6 ≤ 4 * v) ∨ (18 ≤ p ∧ p = 4 * v + 10)) := by
  interval_cases v <;> decide

/-- Two coordinates are at least 12 apart (R227). -/
theorem Rom.alignPos_apart : ∀ p ∈ Rom.alignPos v, ∀ q ∈ Rom.alignPos v, p = q ∨ p + 12 ≤ q ∨ q + 12 ≤ p := by
  interval_cases v <;> decide

/-- The centres are the ordered pairs of coordinates but the three that meet a finder (R226). -/
theorem mem_alignCentres {p q : Nat} : (p, q) ∈ alignCentres v ↔
    p ∈ Rom.alignPos v ∧ q ∈ Rom.alignPos v ∧ ¬ (p = 6 ∧ q = 6) ∧ ¬ (p = 6 ∧ q = 4 * v + 10) ∧ ¬ (p = 4 * v + 10 ∧ q = 6) := by
  have hends := Rom.alignPos_ends h1 h15
  rw [mem_alignCentres_of_index]
  constructor
  · rintro ⟨a, ha, b, hb, hskip, rfl, rfl⟩
    rw [(hends a ha).1, (hends a ha).2, (hends b hb).1, (hends b hb).2]
    exact ⟨getD_mem ha, getD_mem hb, by omega⟩
  · rintro ⟨hp, hq, hskip⟩
    obtain ⟨a, ha, rfl⟩ := exists_getD_of_mem hp
    obtain ⟨b, hb, rfl⟩ := exists_getD_of_mem hq
    rw [(hends a ha).1, (hends a ha).2, (hends b hb).1, (hends b hb).2] at hskip
    exact ⟨a, ha, b, hb, by omega, rfl, rfl⟩

/-- The alignment patterns are those of the claims (R226). -/
theorem isSome_alignPattern : (alignPattern v r c).isSome = true ↔ inAlignment v r c := by
  rw [alignPattern_eq, isSome_ringPattern]
  simp only [mem_alignCentres h1 h15, ringDist_le_iff, Rom.alignPos_eq h1, inAlignment]
  constructor
  · rintro ⟨p, q, ⟨hp, hq, h66, h6n, hn6⟩, hnear⟩
    exact ⟨p, hp, q, hq, h66, h6n, hn6, hnear⟩
  · rintro ⟨p, hp, q, hq, h66, h6n, hn6, hnear⟩
    exact ⟨p, q, ⟨hp, hq, h66, h6n, hn6⟩, hnear⟩

/-- No two alignment patterns meet (R226). -/
theorem alignPattern_of_near {p q : Nat} (hmem : (p, q) ∈ alignCentres v) (hnear : ringDist r c p q ≤ 2) :
    alignPattern v r c = some (alignRing (ringDist r c p q)) := by
  rw [alignPattern_eq]
  refine ringPattern_of_near hmem hnear fun p' q' hmem' hnear' => ?_
  rw [mem_alignCentres h1 h15] at hmem hmem'
  rw [ringDist_le_iff] at hnear hnear'
  obtain ⟨hp, hq, -⟩ := hmem
  obtain ⟨hp', hq', -⟩ := hmem'
  have := Rom.alignPos_apart h1 h15 p hp p' hp'
  have := Rom.alignPos_apart h1 h15 q hq q' hq'
  omega

/-- An alignment pattern lies between the finders, or in the fourth corner (R226). -/
theorem alignPattern_place {d : Bool} (h : alignPattern v r c = some d) :
    (20 ≤ r ∧ r + 4 ≤ 4 * v) ∨ (20 ≤ c ∧ c + 4 ≤ 4 * v) ∨ (4 * v + 8 ≤ r ∧ 4 * v + 8 ≤ c) := by
  rw [alignPattern_eq] at h
  obtain ⟨p, q, hmem, hnear, -⟩ := exists_centre_of_ringPattern h
  rw [mem_alignCentres h1 h15] at hmem
  rw [ringDist_le_iff] at hnear
  obtain ⟨hp, hq, hskip⟩ := hmem
  have := Rom.alignPos_spread h1 h15 p hp
  have := Rom.alignPos_spread h1 h15 q hq
  omega

/-- In row 6 and in column 6 an alignment pattern has the colours of the timing pattern: its coordinates are even (R225, R227). -/
theorem alignPattern_timing {d : Bool} (h : alignPattern v r c = some d) (h6 : r = 6 ∨ c = 6) : d = ((r + c) % 2 == 0) := by
  rw [alignPattern_eq] at h
  obtain ⟨p, q, hmem, hnear, rfl⟩ := exists_centre_of_ringPattern h
  rw [mem_alignCentres h1 h15] at hmem
  rw [ringDist_le_iff] at hnear
  obtain ⟨hp, hq, hskip⟩ := hmem
  obtain ⟨hpeven, hp⟩ := Rom.alignPos_spread h1 h15 p hp
  obtain ⟨hqeven, hq⟩ := Rom.alignPos_spread h1 h15 q hq
  have hdist : ringDist r c p q = 1 ↔ (r + c) % 2 ≠ 0 := by
    rcases h6 with rfl | rfl
    · obtain rfl : p = 6 := by omega
      rw [ringDist_same_row, absDiff]
      omega
    · obtain rfl : q = 6 := by omega
      rw [ringDist_same_column, absDiff]
      omega
  rw [Bool.eq_iff_iff]
  simp [alignRing, hdist]

end Versions
end Lie

end Sys2Proof.Machine
end

section
/-! PROOFS. What MB_FUNC draws: the finders, the timing patterns and the dark module, the alignment patterns, and the reserved
set (R223 to R228, R236 to R239). -/

open Sys2Proof.Claims

namespace Sys2Proof.Machine

/-! ### Where a pattern is not -/

section Elsewhere
variable {v r c : Nat}

/-- The dark module is one cell (R228). -/
theorem darkModule_eq_none (h : ¬ (r = 4 * v + 9 ∧ c = 8)) : darkModule (4 * v + 17) r c = none :=
  if_neg fun ⟨hr, hc⟩ => h ⟨by omega, hc⟩

/-- No alignment pattern reaches a finder, its surroundings or the edge between two finders (R226). -/
theorem alignPattern_eq_none (h1 : 1 ≤ v) (h15 : v ≤ 15)
    (h : ¬ ((20 ≤ r ∧ r + 4 ≤ 4 * v) ∨ (20 ≤ c ∧ c + 4 ≤ 4 * v) ∨ (4 * v + 8 ≤ r ∧ 4 * v + 8 ≤ c))) :
    alignPattern v r c = none :=
  Option.eq_none_iff_forall_ne_some.2 fun _ hd => h (alignPattern_place h1 h15 hd)

theorem finderPattern_eq_none (hr : r < 4 * v + 17) (hc : c < 4 * v + 17)
    (h : ¬ ((r ≤ 7 ∧ c ≤ 7) ∨ (r ≤ 7 ∧ 4 * v + 9 ≤ c) ∨ (4 * v + 9 ≤ r ∧ c ≤ 7))) :
    finderPattern (4 * v + 17) r c = none := by
  rwa [← isSome_finderPattern hr hc, Option.not_isSome_iff_eq_none] at h

theorem timingPattern_eq_none (h : ¬ (r = 6 ∨ c = 6)) : timingPattern r c = none := by
  rwa [← isSome_timingPattern, Option.not_isSome_iff_eq_none] at h

end Elsewhere

/-! ### The pictures -/

/-- The picture of a finder, cell by cell from its upper left corner (R223). -/
theorem drawn_finderPicture : ∀ dr ≤ 6, ∀ dc ≤ 6,
    drawn finderPicture dr dc = ⟨bitColour (finderRing (ringDist dr dc 3 3)), true⟩ := by
  decide

/-- The picture of an alignment pattern, cell by cell from its upper left corner (R226). -/
theorem drawn_alignPicture : ∀ dr ≤ 4, ∀ dc ≤ 4,
    drawn alignPicture dr dc = ⟨bitColour (alignRing (ringDist dr dc 2 2)), true⟩ := by
  decide

/-! ### The dark module -/

/-- The dark module is drawn last (R228). -/
theorem cell_darkModule {v : Nat} {g : Grid} (h15 : v ≤ 15) (hg : g.shaped) :
    (functionPatterns v g).cell (4 * v + 9) 8 = ⟨.dark, true⟩ := by
  have hdark : darkModule (4 * v + 17) (4 * v + 9) 8 = some true := if_pos ⟨rfl, rfl⟩
  refine cell_functionPatterns_of_colour h15 hg (r := 4 * v + 9) (c := 8) (d := true) (by omega) (by omega) ?_
  rw [functionColour, hdark]
  rfl

section Drawn
variable {v : Nat} {g : Grid} (h1 : 1 ≤ v) (h15 : v ≤ 15) (hg : g.shaped)
include h1 h15 hg

/-! ### The finders and their separators -/

section Finder
variable {p q : Nat} (hpq : (p, q) ∈ finderCentres (4 * v + 17))
include hpq

/-- A finder with its separator stands whole: nothing is drawn over it (R223, R224). -/
theorem cell_functionPatterns_finder {r c : Nat} (hr : r < 4 * v + 17) (hc : c < 4 * v + 17) (hnear : ringDist r c p q ≤ 4) :
    (functionPatterns v g).cell r c = ⟨bitColour (finderRing (ringDist r c p q)), true⟩ := by
  have hfinder : finderPattern (4 * v + 17) r c = some (finderRing (ringDist r c p q)) := by
    rw [finderPattern_eq]
    refine ringPattern_of_near hpq hnear fun p' q' hpq' hnear' => ?_
    rw [ringDist_le_iff] at hnear hnear'
    rcases mem_finderCentres.1 hpq with ⟨rfl, rfl⟩ | ⟨rfl, rfl⟩ | ⟨rfl, rfl⟩ <;>
      rcases mem_finderCentres.1 hpq' with ⟨rfl, rfl⟩ | ⟨rfl, rfl⟩ | ⟨rfl, rfl⟩ <;> omega
  have hplace := (isSome_finderPattern hr hc).1 (Option.isSome_of_eq_some hfinder)
  refine cell_functionPatterns_of_colour h15 hg hr hc ?_
  rw [functionColour, darkModule_eq_none (by omega), alignPattern_eq_none h1 h15 (by omega), hfinder]
  rfl

/-- Every finder shows its picture (R223). -/
theorem cell_finder {dr dc : Nat} (hdr : dr ≤ 6) (hdc : dc ≤ 6) :
    (functionPatterns v g).cell (p - 3 + dr) (q - 3 + dc) = drawn finderPicture dr dc := by
  have hcentres := mem_finderCentres.1 hpq
  have hdist : ringDist (p - 3 + dr) (q - 3 + dc) p q = ringDist dr dc 3 3 := ringDist_from_corner (by omega) (by omega)
  have hnear : ringDist dr dc 3 3 ≤ 4 := ringDist_le_iff.2 (by omega)
  rw [drawn_finderPicture dr hdr dc hdc, ← hdist,
    cell_functionPatterns_finder h1 h15 hg hpq (by omega) (by omega) (hdist ▸ hnear)]

/-- The separator is the ring at distance 4 (R224). -/
theorem cell_separator {r c : Nat} (hr : r < 4 * v + 17) (hc : c < 4 * v + 17) (hdist : ringDist r c p q = 4) :
    (functionPatterns v g).cell r c = ⟨.light, true⟩ := by
  rw [cell_functionPatterns_finder h1 h15 hg hpq hr hc hdist.le, hdist]
  rfl

end Finder

/-! ### The timing patterns -/

/-- Between the finders, row 6 and column 6 are dark at even indices, under an alignment pattern too (R225). -/
theorem cell_timing {r c i : Nat} (hi : (r = 6 ∧ c = i) ∨ (r = i ∧ c = 6)) (h8 : 8 ≤ i) (hn : i + 9 ≤ 4 * v + 17) :
    (functionPatterns v g).cell r c = ⟨bitColour (i % 2 == 0), true⟩ := by
  have htiming : timingPattern r c = some (i % 2 == 0) := by
    rcases hi with ⟨rfl, rfl⟩ | ⟨rfl, rfl⟩
    · rfl
    · exact (if_neg (by omega)).trans (if_pos rfl)
  have halign : ∀ d, alignPattern v r c = some d → d = (i % 2 == 0) := fun d hd => by
    rw [alignPattern_timing h1 h15 hd (by omega)]
    congr 1
    omega
  have hr : r < 4 * v + 17 := by omega
  have hc : c < 4 * v + 17 := by omega
  refine cell_functionPatterns_of_colour h15 hg hr hc ?_
  rw [functionColour, darkModule_eq_none (by omega), finderPattern_eq_none hr hc (by omega), htiming]
  cases ha : alignPattern v r c with
  | none => rfl
  | some d => rw [halign d ha]; rfl

/-! ### The alignment patterns -/

/-- Every alignment pattern shows its picture: only the dark module is drawn later, and it lies elsewhere (R226). -/
theorem cell_alignment {p q dr dc : Nat} (hpq : (p, q) ∈ alignCentres v) (hdr : dr ≤ 4) (hdc : dc ≤ 4) :
    (functionPatterns v g).cell (p - 2 + dr) (q - 2 + dc) = drawn alignPicture dr dc := by
  obtain ⟨hp, hq, -⟩ := (mem_alignCentres h1 h15).1 hpq
  have hp := Rom.alignPos_spread h1 h15 p hp
  have hq := Rom.alignPos_spread h1 h15 q hq
  have hdist : ringDist (p - 2 + dr) (q - 2 + dc) p q = ringDist dr dc 2 2 := ringDist_from_corner (by omega) (by omega)
  have hnear : ringDist dr dc 2 2 ≤ 2 := ringDist_le_iff.2 (by omega)
  have halign := alignPattern_of_near h1 h15 hpq (hdist ▸ hnear)
  have hplace := alignPattern_place h1 h15 halign
  rw [drawn_alignPicture dr hdr dc hdc, ← hdist]
  refine cell_functionPatterns_of_colour h15 hg (by omega) (by omega) ?_
  rw [functionColour, darkModule_eq_none (by omega), halign]
  rfl

end Drawn

/-- Settles O33: a finder is the rings around its centre, the separator is its last ring, and no later pattern changes them or
the timing patterns. -/
theorem findersTimingAndDarkModule : Obligations.FindersTimingAndDarkModule := by
  intro v g h1 h15 hg
  have hupperLeft : (3, 3) ∈ finderCentres (4 * v + 17) := mem_finderCentres.2 (by omega)
  have hupperRight : (3, 4 * v + 13) ∈ finderCentres (4 * v + 17) := mem_finderCentres.2 (by omega)
  have hlowerLeft : (4 * v + 13, 3) ∈ finderCentres (4 * v + 17) := mem_finderCentres.2 (by omega)
  refine ⟨fun dr dc hdr hdc => ?finders, fun i hi => ?separators, fun i h8 hn => ?timing, cell_darkModule h15 hg⟩
  case finders =>
    exact ⟨by simpa using cell_finder h1 h15 hg hupperLeft hdr hdc, by simpa using cell_finder h1 h15 hg hupperRight hdr hdc,
      by simpa using cell_finder h1 h15 hg hlowerLeft hdr hdc⟩
  case separators =>
    refine ⟨cell_separator h1 h15 hg hupperLeft (by omega) (by omega) (ringDist_eq_iff.2 ?_),
      cell_separator h1 h15 hg hupperLeft (by omega) (by omega) (ringDist_eq_iff.2 ?_),
      cell_separator h1 h15 hg hupperRight (by omega) (by omega) (ringDist_eq_iff.2 ?_),
      cell_separator h1 h15 hg hupperRight (by omega) (by omega) (ringDist_eq_iff.2 ?_),
      cell_separator h1 h15 hg hlowerLeft (by omega) (by omega) (ringDist_eq_iff.2 ?_),
      cell_separator h1 h15 hg hlowerLeft (by omega) (by omega) (ringDist_eq_iff.2 ?_)⟩
    all_goals
      unfold absDiff
      omega
  case timing => exact ⟨cell_timing h1 h15 hg (.inl ⟨rfl, rfl⟩) h8 hn, cell_timing h1 h15 hg (.inr ⟨rfl, rfl⟩) h8 hn⟩

/-- Settles O34: the pair of coordinates is the centre of a pattern, which stands whole. -/
theorem alignmentPatternsAreDrawn : Obligations.AlignmentPatternsAreDrawn := by
  intro v g a b h1 h15 hg
  dsimp only
  intro ha hb h00 h0k hk0 dr dc hdr hdc
  have hcentre : ((Rom.alignPos v).getD a 0, (Rom.alignPos v).getD b 0) ∈ alignCentres v :=
    mem_alignCentres_of_index.2 ⟨a, ha, b, hb, by omega, rfl, rfl⟩
  exact cell_alignment h1 h15 hg hcentre hdr hdc

/-! ### The reserved set -/

section Reserved
variable {v r c : Nat}

/-- The version information cells: three wide, before two of the finders (R237). -/
theorem versionArea_eq_true_iff : versionArea (4 * v + 17) r c = true ↔
    (r ≤ 5 ∧ 4 * v + 6 ≤ c ∧ c ≤ 4 * v + 8) ∨ (c ≤ 5 ∧ 4 * v + 6 ≤ r ∧ r ≤ 4 * v + 8) := by
  simp only [versionArea, Bool.or_eq_true, Bool.and_eq_true, decide_eq_true_eq]
  omega

/-- The version information cells are those of the version word (R237, R258). -/
theorem versionArea_iff : versionArea (4 * v + 17) r c = true ↔ ∃ i < 18, (r, c) ∈ versionCells (4 * v + 17) i := by
  simp only [versionArea_eq_true_iff, mem_versionCells]
  constructor
  · rintro (h | h)
    · exact ⟨3 * r + c - (4 * v + 6), by omega⟩
    · exact ⟨3 * c + r - (4 * v + 6), by omega⟩
  · rintro ⟨i, hi, hp⟩
    omega

variable (hr : r < 4 * v + 17) (hc : c < 4 * v + 17)
include hr hc

/-- The format information cells: around the upper left finder and beside the two others (R236). -/
theorem formatArea_eq_true_iff : formatArea (4 * v + 17) r c = true ↔
    (c = 8 ∧ (r ≤ 5 ∨ r = 7 ∨ r = 8)) ∨ (r = 8 ∧ (c ≤ 5 ∨ c = 7)) ∨ (r = 8 ∧ 4 * v + 9 ≤ c) ∨ (c = 8 ∧ 4 * v + 10 ≤ r) := by
  simp only [formatArea, Bool.or_eq_true, Bool.and_eq_true, beq_iff_eq, decide_eq_true_eq]
  omega

/-- The format information cells are those of the format word (R236, R256). -/
theorem formatArea_iff : formatArea (4 * v + 17) r c = true ↔ ∃ i < 15, (r, c) ∈ formatCells (4 * v + 17) i := by
  rw [formatArea_eq_true_iff hr hc]
  constructor
  · rintro (⟨hcol, h | h | h⟩ | ⟨hrow, h | h⟩ | ⟨hrow, h⟩ | ⟨hcol, h⟩)
    · exact ⟨r, by omega, (mem_formatCells_iff (by omega)).2 (.inl (.inl ⟨hcol, rfl, h⟩))⟩
    · exact ⟨6, by decide, (mem_formatCells_iff (by decide)).2 (.inl (.inr (.inl ⟨hcol, h, rfl⟩)))⟩
    · exact ⟨7, by decide, (mem_formatCells_iff (by decide)).2 (.inl (.inr (.inr (.inl ⟨hcol, h, rfl⟩))))⟩
    · exact ⟨14 - c, by omega, (mem_formatCells_iff (by omega)).2 (.inl (.inr (.inr (.inr (.inr ⟨hrow, by omega⟩)))))⟩
    · exact ⟨8, by decide, (mem_formatCells_iff (by decide)).2 (.inl (.inr (.inr (.inr (.inl ⟨hrow, h, rfl⟩)))))⟩
    · exact ⟨4 * v + 16 - c, by omega, (mem_formatCells_iff (by omega)).2 (.inr (.inl ⟨hrow, by omega⟩))⟩
    · exact ⟨r - (4 * v + 2), by omega, (mem_formatCells_iff (by omega)).2 (.inr (.inr ⟨hcol, by omega⟩))⟩
  · rintro ⟨i, hi, hp⟩
    rw [mem_formatCells_iff hi] at hp
    omega

/-- The cells that stay UNSET until MB_FINAL are those that hold a word (R236, R237). -/
theorem lateCells_iff : lateCells v r c = true ↔ wordCell v r c := by
  rw [wordCell_iff, ← formatArea_iff hr hc, ← versionArea_iff, lateCells, Bool.or_eq_true, Bool.and_eq_true,
    decide_eq_true_eq]
  rfl

variable (h1 : 1 ≤ v) (h15 : v ≤ 15)
include h1 h15

/-- The model's reserved set is the claims' (R239). -/
theorem reservedSet_iff : reservedSet v r c = true ↔ reservedBy v r c := by
  have hparts : reservedSet v r c = ((finderPattern (4 * v + 17) r c).isSome || ((timingPattern r c).isSome ||
      ((alignPattern v r c).isSome || ((darkModule (4 * v + 17) r c).isSome || lateCells v r c)))) := by
    simp only [reservedSet, lateCells, Rom.size, Bool.or_assoc]
  simp only [hparts, Bool.or_eq_true, isSome_finderPattern hr hc, isSome_timingPattern, isSome_alignPattern h1 h15,
    isSome_darkModule, lateCells_iff hr hc, reservedBy, or_assoc]

/-- No pattern draws a cell that holds a word (R236, R237). -/
theorem functionColour_eq_none_of_wordCell (h : wordCell v r c) : functionColour v r c = none := by
  rw [← lateCells_iff hr hc, lateCells, Bool.or_eq_true, Bool.and_eq_true, decide_eq_true_eq] at h
  rw [Rom.size, formatArea_eq_true_iff hr hc, versionArea_eq_true_iff] at h
  rw [functionColour, darkModule_eq_none (by omega), alignPattern_eq_none h1 h15 (by omega),
    finderPattern_eq_none hr hc (by omega), timingPattern_eq_none (by omega)]
  rfl

end Reserved

theorem bitColour_ne_unset (d : Bool) : bitColour d ≠ .unset := by
  cases d <;> decide

/-- Settles O35: a cell has what the last pattern over it draws, and no pattern draws a cell of the two words. -/
theorem reservedSetIsDrawn : Obligations.ReservedSetIsDrawn := by
  intro v g r c h1 h15 hg hr hc
  have hreserved := reservedSet_iff hr hc h1 h15
  have hlate := lateCells_iff hr hc
  have hsplit := reservedSet_eq v r c
  rw [cell_functionPatterns h15 hg hr hc]
  refine ⟨hreserved, hlate, rfl, fun hword => ?word, fun hblank => ?blank, fun hres hword => ?coloured⟩
  case word =>
    rw [hsplit, functionColour_eq_none_of_wordCell hr hc h1 h15 hword, hlate.2 hword]
    rfl
  case blank =>
    rw [← hreserved, Bool.not_eq_true] at hblank
    rw [hblank, eq_comm, Bool.or_eq_false_iff, Option.isSome_eq_false_iff, Option.isNone_iff_eq_none] at hsplit
    rw [hsplit.1, hblank]
    rfl
  case coloured =>
    rw [← hlate, Bool.not_eq_true] at hword
    rw [hreserved.2 hres, hword, Bool.or_false, eq_comm, Option.isSome_iff_exists] at hsplit
    obtain ⟨d, hd⟩ := hsplit
    rw [hd]
    exact bitColour_ne_unset d

end Sys2Proof.Machine
end

section
/-! PROOFS. The lines of a colour array and its four penalties: the runs, the formulas by cell index, and the bounds
(R270 to R277). -/

open Sys2Proof.Claims

namespace Sys2Proof.Machine

/-! ### The lines of a square colour array -/

/-- Row `r` of an array, by its cells (R270). -/
def rowCells (n : Nat) (rows : List (List Bool)) (r : Nat) : List Bool := (List.range n).map fun c => colourAt rows r c

/-- Column `c` of an array, by its cells (R270). -/
def columnCells (n : Nat) (rows : List (List Bool)) (c : Nat) : List Bool := (List.range n).map fun r => colourAt rows r c

/-- A list is its entries in order. -/
theorem map_getD_range {α : Type} (xs : List α) (d : α) : ((List.range xs.length).map fun i => xs.getD i d) = xs :=
  List.ext_getElem (by simp) fun i _ hi => by simp [hi]

section Square
variable {n : Nat} {rows : List (List Bool)} (h : squareOf n rows)
include h

/-- The rows of an array are its cells row by row. -/
theorem rows_eq_map_rowCells : rows = (List.range n).map (rowCells n rows) := by
  obtain ⟨hlen, hrow⟩ := h
  conv_lhs => rw [← map_getD_range rows [], hlen]
  refine List.map_congr_left fun r hr => ?_
  have hr' : r < rows.length := hlen ▸ List.mem_range.1 hr
  have hcells : (rows.getD r []).length = n := by
    rw [List.getD_eq_getElem _ _ hr']
    exact hrow _ (List.getElem_mem hr')
  rw [← map_getD_range (rows.getD r []) false, hcells]
  rfl

/-- The columns that are scored are the array's cells column by column (R272). -/
theorem columnLines_eq_map_columnCells : columnLines n rows = (List.range n).map (columnCells n rows) := by
  refine List.map_congr_left fun c _ => ?_
  conv_lhs => rw [← map_getD_range rows [], List.map_map, h.1]
  rfl

/-- What is read off each row is read off its cells. -/
theorem map_rows {α : Type} (f : List Bool → α) : rows.map f = (List.range n).map fun r => f (rowCells n rows r) := by
  conv_lhs => rw [rows_eq_map_rowCells h, List.map_map]
  rfl

/-- What is summed over the `2N` lines is summed over the rows and over the columns (R272, R274). -/
theorem sum_allLines (f : List Bool → Nat) : ((allLines n rows).map f).sum =
    (rows.map f).sum + ((List.range n).map fun c => f (columnCells n rows c)).sum := by
  rw [allLines, columnLines_eq_map_columnCells h, List.map_append, List.sum_append, List.map_map]
  rfl

/-- Every one of the `2N` lines has `N` cells. -/
theorem length_of_mem_allLines {line : List Bool} (hline : line ∈ allLines n rows) : line.length = n := by
  rcases List.mem_append.1 hline with hrow | hcolumn
  · exact h.2 line hrow
  · obtain ⟨c, -, rfl⟩ := List.mem_map.1 hcolumn
    rw [List.length_map, h.1]

/-- What is at most `b` on each line is at most `2N * b` on all. -/
theorem sum_allLines_le {f : List Bool → Nat} {b : Nat} (hf : ∀ line, line.length = n → f line ≤ b) :
    ((allLines n rows).map f).sum ≤ 2 * n * b := by
  have hlines : (allLines n rows).length = 2 * n := by simp [allLines, columnLines, h.1, Nat.two_mul]
  have hle := List.sum_le_card_nsmul ((allLines n rows).map f) b <| by
    rintro _ hx
    obtain ⟨line, hline, rfl⟩ := List.mem_map.1 hx
    exact hf line (length_of_mem_allLines h hline)
  rwa [List.length_map, hlines, smul_eq_mul] at hle

end Square

/-! ### Runs -/

/-- `runs` are the maximal runs of a line: they join to it, none is empty, and neighbours differ in colour (R272). -/
def IsRuns (line : List Bool) (runs : List (Bool × Nat)) : Prop :=
  line = runs.flatMap (fun p => List.replicate p.2 p.1) ∧ (∀ p ∈ runs, 1 ≤ p.2) ∧
    List.IsChain (fun p q => p.1 ≠ q.1) runs

/-- The runs of `k` cells of colour `x` and the cells after them: the first has colour `x`. -/
theorem isRuns_runsFrom (x : Bool) {k : Nat} (hk : 1 ≤ k) (line : List Bool) : ∃ j runs,
    IsRuns (List.replicate k x ++ line) ((x, j) :: runs) ∧ runsFrom x k line = j :: runs.map Prod.snd := by
  induction line generalizing x k with
  | nil => exact ⟨k, [], by simp [IsRuns, hk], rfl⟩
  | cons y line ih =>
    obtain rfl | hy := eq_or_ne y x
    · obtain ⟨j, runs, hruns, hlengths⟩ := ih y (k := k + 1) (Nat.le_add_left 1 k)
      rw [List.replicate_succ', List.append_assoc] at hruns
      exact ⟨j, runs, hruns, (if_pos rfl).trans hlengths⟩
    · obtain ⟨j, runs, ⟨hjoin, hpos, hchain⟩, hlengths⟩ := ih y le_rfl
      refine ⟨k, (y, j) :: runs, ⟨?_, List.forall_mem_cons.2 ⟨hk, hpos⟩, List.isChain_cons_cons.2 ⟨hy.symm, hchain⟩⟩, ?_⟩
      · rw [List.flatMap_cons, ← hjoin]
        rfl
      · rw [runsFrom, if_neg hy, hlengths]
        rfl

/-- The run lengths of a line are those of its maximal runs (R272). -/
theorem isRuns_runLengths (line : List Bool) : ∃ runs, IsRuns line runs ∧ runLengths line = runs.map Prod.snd := by
  cases line with
  | nil => exact ⟨[], by simp [IsRuns], rfl⟩
  | cons x line =>
    obtain ⟨j, runs, hruns, hlengths⟩ := isRuns_runsFrom x le_rfl line
    exact ⟨(x, j) :: runs, hruns, hlengths⟩

/-- Settles O47: the runs by recursion along the line, and the sum over all lines as one over the rows and one over the
columns. -/
theorem runsAreMaximal : Obligations.RunsAreMaximal := by
  refine ⟨fun line => ?_, fun _ => rfl, fun n rows h => sum_allLines h _⟩
  obtain ⟨runs, ⟨hjoin, hpos, hchain⟩, hlengths⟩ := isRuns_runLengths line
  exact ⟨runs, hjoin, hpos, hchain, hlengths⟩

theorem sum_runLengths (line : List Bool) : (runLengths line).sum = line.length := by
  obtain ⟨runs, ⟨hjoin, -, -⟩, hlengths⟩ := isRuns_runLengths line
  rw [hlengths, hjoin, List.length_flatMap]
  simp

/-- Runs of `k` cells in all add at most `k - 2`: a run adds at most two less than its length (R272). -/
theorem sum_runPenalty_le (ks : List Nat) : (ks.map runPenalty).sum ≤ ks.sum - 2 := by
  induction ks with
  | nil => rfl
  | cons k ks ih =>
    have hk : runPenalty k ≤ k - 2 := by
      unfold runPenalty
      split <;> omega
    simp only [List.map_cons, List.sum_cons]
    omega

/-! ### Blocks -/

/-- The entry at 0, and those after it. -/
theorem map_range_succ {α : Type} (f : Nat → α) (n : Nat) :
    (List.range (n + 1)).map f = f 0 :: (List.range n).map fun i => f (i + 1) := by
  rw [List.range_succ_eq_map, List.map_cons, List.map_map]
  rfl

/-- What is counted at 0, and what is counted after it. -/
theorem countP_range_succ (p : Nat → Bool) (n : Nat) :
    (List.range (n + 1)).countP p = (if p 0 then 1 else 0) + (List.range n).countP fun i => p (i + 1) := by
  rw [List.range_succ_eq_map, List.countP_cons, List.countP_map, Nat.add_comm]
  rfl

/-- The 2 by 2 block at column `c` of two rows has one colour (R273). -/
def oneColour (row row' : Nat → Bool) (c : Nat) : Bool :=
  decide (row c = row (c + 1) ∧ row c = row' c ∧ row c = row' (c + 1))

/-- The blocks of one colour between two rows, by column (R273). -/
theorem blocksBetween_eq_countP (n : Nat) (row row' : Nat → Bool) :
    blocksBetween ((List.range n).map row) ((List.range n).map row') = (List.range (n - 1)).countP (oneColour row row') := by
  induction n generalizing row row' with
  | zero => rfl
  | succ n ih =>
    cases n with
    | zero => rfl
    | succ n =>
      have hrest := ih (fun c => row (c + 1)) (fun c => row' (c + 1))
      simp only [map_range_succ, Nat.add_sub_cancel] at hrest ⊢
      rw [blocksBetween, hrest, countP_range_succ]
      simp only [oneColour, decide_eq_true_eq]
      rfl

/-- The blocks of one colour of an array, by its pairs of neighbouring rows (R273). -/
theorem colourBlocks_eq_sum (n : Nat) (row : Nat → List Bool) :
    colourBlocks ((List.range n).map row) = ((List.range (n - 1)).map fun r => blocksBetween (row r) (row (r + 1))).sum := by
  induction n generalizing row with
  | zero => rfl
  | succ n ih =>
    cases n with
    | zero => rfl
    | succ n =>
      have hrest := ih fun r => row (r + 1)
      simp only [map_range_succ, Nat.add_sub_cancel] at hrest ⊢
      rw [colourBlocks, hrest, List.sum_cons]

/-- The blocks of one colour of a square array, by cell (R273). -/
theorem colourBlocks_eq {n : Nat} {rows : List (List Bool)} (h : squareOf n rows) : colourBlocks rows =
    ((List.range (n - 1)).map fun r => (List.range (n - 1)).countP (oneColour (colourAt rows r) (colourAt rows (r + 1)))).sum := by
  conv_lhs => rw [rows_eq_map_rowCells h, colourBlocks_eq_sum]
  simp only [rowCells, blocksBetween_eq_countP]

theorem colourBlocks_le {n : Nat} {rows : List (List Bool)} (h : squareOf n rows) : colourBlocks rows ≤ (n - 1) ^ 2 := by
  rw [colourBlocks_eq h, Nat.pow_two]
  refine (List.sum_le_card_nsmul _ (n - 1) ?_).trans_eq (by simp)
  rintro _ hx
  obtain ⟨r, -, rfl⟩ := List.mem_map.1 hx
  exact List.countP_le_length.trans_eq List.length_range

/-! ### Finder-like sequences -/

/-- What the 11 cells from a start position count for: 1 where they are PA, and 1 where they are PB (R274). -/
def patternMatches (cells : List Bool) : Nat :=
  (if cells = finderLikeA then 1 else 0) + (if cells = finderLikeB then 1 else 0)

theorem finderLike_cons (x : Bool) (line : List Bool) :
    finderLike (x :: line) = patternMatches ((x :: line).take 11) + finderLike line := rfl

/-- Fewer than 11 cells are neither PA nor PB. -/
theorem patternMatches_of_short {cells : List Bool} (h : cells.length < 11) : patternMatches cells = 0 := by
  have hA : cells ≠ finderLikeA := fun e => absurd (e ▸ h) (by decide)
  have hB : cells ≠ finderLikeB := fun e => absurd (e ▸ h) (by decide)
  rw [patternMatches, if_neg hA, if_neg hB]

/-- No cells are both PA and PB. -/
theorem patternMatches_le_one (cells : List Bool) : patternMatches cells ≤ 1 := by
  by_cases hA : cells = finderLikeA
  · rw [hA]
    decide
  · rw [patternMatches, if_neg hA, Nat.zero_add]
    split <;> decide

/-- The matches of a line, by start position (R274). -/
theorem finderLike_map_range (n : Nat) (cells : Nat → Bool) : finderLike ((List.range n).map cells) =
    ((List.range (n - 10)).map fun k => patternMatches (elevenCells fun j => cells (k + j))).sum := by
  induction n generalizing cells with
  | zero => rfl
  | succ n ih =>
    have hstep : finderLike ((List.range (n + 1)).map cells) =
        patternMatches (((List.range (n + 1)).map cells).take 11) + finderLike ((List.range n).map fun i => cells (i + 1)) := by
      rw [map_range_succ, finderLike_cons]
    rw [hstep, ih, ← List.map_take, List.take_range]
    by_cases hn : n < 10
    · rw [patternMatches_of_short (by simp; omega), Nat.sub_eq_zero_of_le (by omega : n ≤ 10),
        Nat.sub_eq_zero_of_le (by omega : n + 1 ≤ 10)]
      rfl
    · rw [Nat.min_eq_left (by omega), Nat.sub_add_comm (by omega : 10 ≤ n),
        map_range_succ fun k => patternMatches (elevenCells fun j => cells (k + j)), List.sum_cons]
      simp only [elevenCells, Nat.zero_add, Nat.add_right_comm _ 1]

/-- A line has at most one match at each position with 11 cells from it on. -/
theorem finderLike_le (line : List Bool) : finderLike line ≤ line.length - 10 := by
  rw [← map_getD_range line false, finderLike_map_range]
  refine (List.sum_le_card_nsmul _ 1 ?_).trans_eq (by simp)
  rintro _ hx
  obtain ⟨k, -, rfl⟩ := List.mem_map.1 hx
  exact patternMatches_le_one _

/-- The matches of a square array: at position `k` of row `l` and of column `l` (R274). -/
theorem sum_finderLike {n : Nat} {rows : List (List Bool)} (h : squareOf n rows) : ((allLines n rows).map finderLike).sum =
    ((List.range n).map fun l => ((List.range (n - 10)).map fun k =>
      patternMatches (elevenCells fun j => colourAt rows l (k + j)) +
        patternMatches (elevenCells fun j => colourAt rows (k + j) l)).sum).sum := by
  simp only [sum_allLines h, map_rows h, rowCells, columnCells, finderLike_map_range, List.sum_map_add]

/-! ### Balance -/

theorem absDiff_eq_natAbs (a b : Nat) : absDiff a b = (a - b : Int).natAbs := by
  unfold absDiff
  omega

theorem darkCount_le {n : Nat} {rows : List (List Bool)} (h : squareOf n rows) : darkCount rows ≤ n * n := by
  refine (List.sum_le_card_nsmul _ n ?_).trans_eq (by rw [List.length_map, h.1, smul_eq_mul])
  rintro _ hx
  obtain ⟨row, hrow, rfl⟩ := List.mem_map.1 hx
  exact List.count_le_length.trans_eq (h.2 row hrow)

/-- The dark share is at most ten steps of 5 % away from 50 % (R275). -/
theorem balancePenalty_le {dark total : Nat} (h : dark ≤ total) : balancePenalty dark total ≤ 100 := by
  have hdiff : absDiff (20 * dark) (10 * total) ≤ total * 10 := by
    unfold absDiff
    omega
  exact Nat.mul_le_mul_left 10 (Nat.div_le_of_le_mul hdiff)

/-! ### The formulas and the bounds -/

/-- Settles O46: each penalty by the formula of its count. -/
theorem penaltiesAreTheFormulas : Obligations.PenaltiesAreTheFormulas := by
  refine fun n rows _ h => ⟨congrArg (3 * ·) (colourBlocks_eq h), ?finderLike, ?balance⟩
  case finderLike =>
    rw [penaltyN3, sum_finderLike h]
    simp only [patternMatches, Nat.add_assoc]
  case balance =>
    rw [penaltyN4, balancePenalty, absDiff_eq_natAbs, darkCount]
    push_cast
    rfl

/-- Settles O48: each penalty from the bound on one line, one pair of rows or the dark count, and the total from the bounds at
side 77. -/
theorem penaltiesFitInAWord : Obligations.PenaltiesFitInAWord := by
  intro n rows _ h77 h
  have h1 : penaltyN1 n rows ≤ 2 * n * (n - 2) := sum_allLines_le h fun line hline => by
    rw [← hline, ← sum_runLengths line]
    exact sum_runPenalty_le _
  have h2 : penaltyN2 rows ≤ 3 * (n - 1) ^ 2 := Nat.mul_le_mul_left 3 (colourBlocks_le h)
  have h3 : penaltyN3 n rows ≤ 40 * (2 * n * (n - 10)) := Nat.mul_le_mul_left 40 <| sum_allLines_le h fun line hline =>
    hline ▸ finderLike_le line
  have h4 : penaltyN4 n rows ≤ 100 := balancePenalty_le (darkCount_le h)
  refine ⟨h1, h2, h3, h4, ?_⟩
  have hn : 2 * n ≤ 2 * 77 := by omega
  have hN1 : 2 * n * (n - 2) ≤ 2 * 77 * 75 := Nat.mul_le_mul hn (by omega)
  have hN2 : (n - 1) ^ 2 ≤ 76 ^ 2 := Nat.pow_le_pow_left (by omega) 2
  have hN3 : 2 * n * (n - 10) ≤ 2 * 77 * 67 := Nat.mul_le_mul hn (by omega)
  omega

end Sys2Proof.Machine
end

section
/-! PROOFS. MB_PENALTY and MB_SELECT: what scoring writes, the choice of the mask, and the two commands (R276, R278, R284). -/

open Sys2Proof.Claims

namespace Sys2Proof.Machine

/-! ### Scoring one mask -/

/-- PN1 to PN4 of the candidate of mask `m`, and PEN (R276). -/
def State.withPenalties (s : State) (m : BitVec 3) (pen : Vector Word 8) : State :=
  let rows := rowLines s.side (finalize s.ver m s.mat)
  { s with
    pn1 := BitVec.ofNat 32 (penaltyN1 s.side rows), pn2 := BitVec.ofNat 32 (penaltyN2 rows),
    pn3 := BitVec.ofNat 32 (penaltyN3 s.side rows), pn4 := BitVec.ofNat 32 (penaltyN4 s.side rows), pen := pen }

/-- Scoring a mask writes PN1 to PN4 and PEN, and nothing else (R278). -/
theorem State.score_eq_withPenalties (s : State) (m : BitVec 3) : s.score m = s.withPenalties m (s.score m).pen := rfl

/-- The entry of the scored mask is its total, and the others stay (R276, R278). -/
theorem State.penOf_score (s : State) (m j : BitVec 3) :
    (s.score m).penOf j = if j = m then BitVec.ofNat 32 (totalPenalty s m) else s.penOf j := by
  simp only [State.penOf, State.score, Vector.getElem_set, BitVec.toNat_inj, eq_comm (a := m), totalPenalty,
    BitVec.ofNat_add]

/-- The totals do not depend on what scoring writes. -/
@[simp] theorem totalPenalty_score (s : State) (m j : BitVec 3) : totalPenalty (s.score m) j = totalPenalty s j := rfl

/-- An MB_PENALTY word decodes for every mask (R94). -/
theorem decode_mbPenaltyWord (m : BitVec 3) (a0 a1 : Word) :
    decode ⟨0x60000000 ||| zext32 m, a0, a1⟩ = .ok (.mbPenalty m) := by
  change decode ⟨commandWord 0x60#8 (zext32 m), a0, a1⟩ = _
  simp only [decode, formatM3, withFormat, opcodeOf_commandWord_zext32 0x60#8 m (by decide),
    extractLsb'_commandWord_zext32 0x60#8 m (by decide),
    reservedClear_commandWord_zext32 0x60#8 m (mask := 0xFFFFF8#32) (by decide), if_true]

/-- A matrix can be scored at MSTAGE 2 and 3 only: the check of R278 and R284. -/
theorem not_unplaced {a : MStage} (h : a = .placed ∨ a = .selected) : ¬ (a ≠ .placed ∧ a ≠ .selected) :=
  fun ⟨hplaced, hselected⟩ => h.elim hplaced hselected

/-- Settles O43: by what scoring one mask writes, and the one check of R278. -/
theorem mbPenaltyScoresOneMask : Obligations.MbPenaltyScoresOneMask := by
  refine ⟨decode_mbPenaltyWord, fun s m hs => ⟨fun hm => ?_, fun hplaced hselected =>
    gated_eq_failure hs (if_pos ⟨hplaced, hselected⟩)⟩⟩
  refine ⟨(s.score m).pen, s.penOf_score m, ?_⟩
  have hresult : (s.score m).penOf m = BitVec.ofNat 32 (totalPenalty s m) := (s.penOf_score m m).trans (if_pos rfl)
  rw [← hresult]
  exact gated_eq_success hs (if_neg (not_unplaced hm))

/-! ### Scoring all masks -/

theorem mem_allMasks : ∀ m : BitVec 3, m ∈ allMasks := by decide

/-- A mask's place in the order is its number. -/
theorem idxOf_allMasks : ∀ m : BitVec 3, allMasks.idxOf m = m.toNat := by decide

/-- The masks scored so far have their totals, and the others their entries from before (R284). -/
theorem penOf_foldl_score (ms : List (BitVec 3)) (s : State) (j : BitVec 3) :
    (ms.foldl (fun s m => s.score m) s).penOf j = if j ∈ ms then BitVec.ofNat 32 (totalPenalty s j) else s.penOf j := by
  induction ms generalizing s with
  | nil => rfl
  | cons m ms ih =>
    rw [List.foldl_cons, ih, totalPenalty_score, s.penOf_score]
    by_cases hj : j = m
    · rw [if_pos hj, ← hj, ite_self, if_pos List.mem_cons_self]
    · simp [hj]

theorem State.penOf_scoreAll (s : State) (m : BitVec 3) : s.scoreAll.penOf m = BitVec.ofNat 32 (totalPenalty s m) := by
  rw [State.scoreAll, penOf_foldl_score, if_pos (mem_allMasks m)]

/-- Scoring masks changes nothing but PN1 to PN4 and PEN, and the components that stay are the last one's (R278, R284). -/
theorem foldl_score_eq_withPenalties (ms : List (BitVec 3)) (m : BitVec 3) (s : State) :
    ∃ pen, (ms ++ [m]).foldl (fun s m => s.score m) s = s.withPenalties m pen := by
  induction ms generalizing s with
  | nil => exact ⟨_, s.score_eq_withPenalties m⟩
  | cons m' ms ih => exact ih (s.score m')

/-- Scoring all masks leaves mask 7's components (R284). -/
theorem State.scoreAll_eq_withPenalties (s : State) : ∃ pen, s.scoreAll = s.withPenalties 7 pen :=
  foldl_score_eq_withPenalties allMasks.dropLast 7 s

/-! ### The choice of the mask -/

/-- The mask that is chosen is the first of the order with the least total. -/
theorem State.argmin_allMasks (s : State) : allMasks.argmin (fun m => (s.penOf m).toNat) = some s.bestMask := by
  rw [State.bestMask, allMasks, List.foldl_cons, ite_self, List.argmin, List.foldl_cons]
  exact List.foldl_hom some fun _ _ => (apply_ite some _ _ _).symm

/-- Its total is the least, and every mask before it has a greater one (R284). -/
theorem State.bestMask_is_least (s : State) (m : BitVec 3) : (s.penOf s.bestMask).toNat ≤ (s.penOf m).toNat ∧
    (m.toNat < s.bestMask.toNat → (s.penOf s.bestMask).toNat < (s.penOf m).toNat) := by
  obtain ⟨-, hleast, hfirst⟩ := List.argmin_eq_some_iff.1 s.argmin_allMasks
  refine ⟨hleast m (mem_allMasks m), fun hm => Nat.lt_of_not_le fun hle => ?_⟩
  have hplace := hfirst m (mem_allMasks m) hle
  rw [idxOf_allMasks, idxOf_allMasks] at hplace
  omega

/-- MB_SELECT's word decodes whatever the argument words are (R90, R94). -/
theorem decode_mbSelectWord (a0 a1 : Word) : decode ⟨0x61000000, a0, a1⟩ = .ok .mbSelect := by
  simp [decode, opcodeOf, formatN, withFormat, reservedClear]

/-- Settles O49: the totals by scoring all masks, the choice as the first least, and the one check of R284. -/
theorem mbSelectTakesTheLeastPenalty : Obligations.MbSelectTakesTheLeastPenalty := by
  refine ⟨decode_mbSelectWord, fun s hs => ⟨fun hm => ?_, fun hplaced hselected =>
    gated_eq_failure hs (if_pos ⟨hplaced, hselected⟩)⟩⟩
  obtain ⟨pen, hpen⟩ := s.scoreAll_eq_withPenalties
  have htotals := s.penOf_scoreAll
  have hleast := s.scoreAll.bestMask_is_least
  rw [hpen] at htotals hleast
  refine ⟨pen, (s.withPenalties 7 pen).bestMask, htotals, fun m => (hleast m).1, fun m => (hleast m).2,
    gated_eq_success hs ?_⟩
  rw [mbSelectBody, if_neg (not_unplaced hm), hpen]
  rfl

end Sys2Proof.Machine
end

section
/-! PROOFS. The host interface: the words and effects of NOP, ERR_CLEAR, WR_WRITE and WR_READ (R301 to R308). -/

open Sys2Proof.Claims

namespace Sys2Proof.Machine

/-! ### NOP and ERR_CLEAR -/

/-- NOP's word decodes whatever the argument words are (R90, R94). -/
theorem decode_nopWord (a0 a1 : Word) : decode ⟨0x00000000, a0, a1⟩ = .ok .nop := by
  simp [decode, opcodeOf, formatN, withFormat, reservedClear]

/-- ERR_CLEAR's word decodes whatever the argument words are (R90, R94). -/
theorem decode_errClearWord (a0 a1 : Word) : decode ⟨0x73000000, a0, a1⟩ = .ok .errClear := by
  simp [decode, opcodeOf, formatN, withFormat, reservedClear]

/-- The opcode and the reserved bits of format N are all the bits of a word (R94). -/
theorem eq_zero_of_opcode_zero {w : Word} (hop : opcodeOf w = 0) (hres : w &&& 0xFFFFFF#32 = 0) : w = 0 := by
  refine BitVec.eq_of_getLsbD_eq fun i hi => ?_
  by_cases hlow : i < 24
  · have hmask : ∀ j < 24, (0xFFFFFF#32).getLsbD j = true := by decide
    have hbit : (w &&& 0xFFFFFF#32).getLsbD i = false := by simp [hres]
    simpa [hmask i hlow] using hbit
  · have hbit : (opcodeOf w).getLsbD (i - 24) = false := by simp [hop]
    have hplace : 24 + (i - 24) = i := by omega
    have hwidth : i - 24 < 8 := by omega
    simpa [opcodeOf, hplace, hwidth] using hbit

/-- Any other word with NOP's opcode has a reserved bit set (R99 (b), R301). -/
theorem decode_nop_reserved {w : Word} (a0 a1 : Word) (hw : w ≠ 0) (hop : opcodeOf w = 0) :
    decode ⟨w, a0, a1⟩ = .error .reservedBits := by
  have hres : ¬ reservedClear 0xFFFFFF#32 w = true := fun h => hw (eq_zero_of_opcode_zero hop ((reservedClear_iff _ _).1 h))
  simp only [decode, hop]
  exact if_neg hres

/-- The model's error codes are the numbers of R330. -/
theorem ErrCode.zext32_code (e : ErrCode) : zext32 e.code = BitVec.ofNat 32 (errNumber e) := by
  cases e <;> rfl

/-- ERR_CLEAR returns the pending code and clears it, past the error gate (R308, R335). -/
theorem exec_errClear (s : State) :
    exec .errClear s = .next (success { s with err := .ok } (BitVec.ofNat 32 (errNumber s.err))) := by
  rw [← s.err.zext32_code]
  rfl

/-- Settles O11: both commands complete in every state, and NOP's format leaves no bit of the word free. -/
theorem nopAndErrClear : Obligations.NopAndErrClear :=
  ⟨decode_nopWord, decode_errClearWord, fun _ a0 a1 hw hop => ⟨_, decode_nop_reserved a0 a1 hw hop⟩, fun s =>
    ⟨rfl, exec_errClear s⟩⟩

/-! ### The words of WR_WRITE and WR_READ -/

section AddressAndByte
variable (op : BitVec 8) (addr : BitVec 12) (byte : Byte)

/-- A command word with an address and a byte is one with the 20-bit field they make (R94). -/
theorem commandWord_address_byte :
    commandWord op (zext32 addr <<< 8) ||| zext32 byte = commandWord op (zext32 (addr ++ byte)) := by
  have hfields : zext32 (addr ++ byte) = zext32 addr <<< 8 ||| zext32 byte :=
    BitVec.setWidth_append_eq_shiftLeft_setWidth_or
  rw [hfields, commandWord, commandWord, BitVec.or_assoc]

/-- The address of such a word, read back (R94). -/
theorem extractLsb'_address_commandWord : (commandWord op (zext32 (addr ++ byte))).extractLsb' 8 12 = addr := by
  have hfield := extractLsb'_commandWord_zext32 op (addr ++ byte) (by decide)
  rw [← BitVec.extractLsb'_extractLsb'_of_le (len' := 20) (by decide), hfield, BitVec.extractLsb'_append_eq_left]

/-- The byte of such a word, read back (R94). -/
theorem extractLsb'_byte_commandWord : (commandWord op (zext32 (addr ++ byte))).extractLsb' 0 8 = byte := by
  have hfield := extractLsb'_commandWord_zext32 op (addr ++ byte) (by decide)
  rw [← BitVec.extractLsb'_extractLsb'_of_le (len' := 20) (by decide), hfield, BitVec.extractLsb'_append_eq_right]

end AddressAndByte

/-- A WR_WRITE word decodes for every address and byte (R94, R302). -/
theorem decode_wrWriteWord (addr : BitVec 12) (byte : Byte) (a0 a1 : Word) :
    decode ⟨0x70000000 ||| zext32 addr <<< 8 ||| zext32 byte, a0, a1⟩ = .ok (.wrWrite addr byte) := by
  change decode ⟨commandWord 0x70#8 (zext32 addr <<< 8) ||| zext32 byte, a0, a1⟩ = _
  simp only [commandWord_address_byte, decode, opcodeOf_commandWord_zext32 0x70#8 (addr ++ byte) (by decide), formatAB,
    withFormat, reservedClear_commandWord_zext32 0x70#8 (addr ++ byte) (mask := 0xF00000#32) (by decide), if_true,
    extractLsb'_address_commandWord, extractLsb'_byte_commandWord]

/-- A word with the byte 0 has format A's reserved bits 0: the byte and the bits between the address and the opcode (R94). -/
theorem reservedClear_commandWord_address (op : BitVec 8) (addr : BitVec 12) :
    reservedClear 0xF000FF#32 (commandWord op (zext32 (addr ++ 0#8))) = true := by
  have hmask : ∀ i < 32, (0xF000FF#32).getLsbD i = true → i < 8 ∨ (20 ≤ i ∧ i < 24) := by decide
  rw [reservedClear_iff]
  refine BitVec.eq_of_getLsbD_eq fun i hi => ?_
  by_cases hm : (0xF000FF#32).getLsbD i = true
  · have hplace := hmask i hi hm
    have h24 : i < 24 := by omega
    have hfield : (addr ++ 0#8).getLsbD i = false := by
      rw [BitVec.getLsbD_append]
      split
      · exact BitVec.getLsbD_zero
      · exact BitVec.getLsbD_of_ge addr _ (by omega)
    simp [commandWord, field, hfield, h24]
  · simp [hm]

/-- A WR_READ word decodes for every address (R94, R304). -/
theorem decode_wrReadWord (addr : BitVec 12) (a0 a1 : Word) :
    decode ⟨0x71000000 ||| zext32 addr <<< 8, a0, a1⟩ = .ok (.wrRead addr) := by
  have hword : 0x71000000 ||| zext32 addr <<< 8 = commandWord 0x71#8 (zext32 (addr ++ 0#8)) := by
    rw [← commandWord_address_byte]
    exact BitVec.or_zero.symm
  simp only [hword, decode, opcodeOf_commandWord_zext32 0x71#8 (addr ++ 0#8) (by decide), formatA, withFormat,
    reservedClear_commandWord_address, if_true, extractLsb'_address_commandWord]

/-! ### WR_WRITE and WR_READ -/

/-- Every address that a command word can carry lies in WRAM (R70). -/
theorem addr_fits (addr : BitVec 12) : addr.toNat < Config.wramSize := addr.isLt

/-- WR_WRITE stores its byte (R302). -/
theorem exec_wrWrite {s : State} (hs : s.err = .ok) (addr : BitVec 12) (byte : Byte) :
    exec (.wrWrite addr byte) s = .next (success { s with wram := s.wram.store addr.toNat [byte] } 0) := by
  have hwrite : s.wram.writeBytes addr.toNat [byte] = .ok (s.wram.store addr.toNat [byte]) :=
    Memory.writeBytes_eq (addr_fits addr)
  refine gated_eq_success hs ?_
  rw [hwrite]
  rfl

/-- WR_READ returns a byte that is written (R304). -/
theorem exec_wrRead_written {s : State} (hs : s.err = .ok) {addr : BitVec 12} {byte : Byte}
    (hbyte : s.wram.lookup addr.toNat = some byte) : exec (.wrRead addr) s = .next (success s (zext32 byte)) := by
  refine gated_eq_success hs ?_
  rw [Memory.readByte_eq (addr_fits addr) hbyte]
  rfl

/-- WR_READ faults on a byte that no command has written (R71). -/
theorem exec_wrRead_unwritten {s : State} (hs : s.err = .ok) {addr : BitVec 12}
    (hnone : s.wram.lookup addr.toNat = none) : exec (.wrRead addr) s = .fault (.unwrittenByte addr.toNat) := by
  refine gated_stop hs ?_
  rw [Memory.readByte, if_pos (addr_fits addr), hnone]
  rfl

/-- Settles O50: the write by the laws of WRAM's stores, the read by whether its byte is written. -/
theorem wramWriteAndRead : Obligations.WramWriteAndRead := by
  refine ⟨decode_wrWriteWord, decode_wrReadWord, fun s addr hs =>
    ⟨fun byte => ?_, fun byte => exec_wrRead_written hs, exec_wrRead_unwritten hs⟩⟩
  obtain ⟨hstored, hother⟩ := storedAt_store s.wram addr.toNat [byte]
  refine ⟨_, exec_wrWrite hs addr byte, hstored 0 Nat.one_pos, fun a ha => hother a ?_⟩
  have := Nat.lt_or_gt_of_ne ha
  simpa using this

end Sys2Proof.Machine
end

section
/-! PROOFS. ENCODE as the seven commands: their rules do not see the response of the command before, and every text of at most
520 written bytes takes them to the end (R310, R313). -/

open Sys2Proof.Claims

namespace Sys2Proof.Machine

/-! ### A rule does not see the last command's outcome -/

/-- `s` with another RESULT, response and STATUS.ERR. -/
def State.withOutcome (s : State) (r : Word) (q : Option Response) (e : ErrCode) : State :=
  { s with result := r, rsp := q, err := e }

/-- With its own outcome a state is itself. -/
theorem State.withOutcome_self (s : State) : s.withOutcome s.result s.rsp s.err = s := rfl

/-- The rule reads neither RESULT, nor the response, nor STATUS.ERR, and leaves all three alone. -/
def IgnoresOutcome (body : Body) : Prop :=
  ∀ s r q e, body (s.withOutcome r q e) = (fun p => (p.1.withOutcome r q e, p.2)) <$> body s

theorem ignoresOutcome_deSelectBody : IgnoresOutcome deSelectBody := fun s r q e => by
  simp only [deSelectBody, map_bind]
  rfl

theorem ignoresOutcome_deEncodeBody : IgnoresOutcome deEncodeBody := fun s r q e => by
  simp only [deEncodeBody, apply_ite (Functor.map _), map_bind]
  rfl

theorem ignoresOutcome_cwBuildBody : IgnoresOutcome cwBuildBody := fun s r q e => by
  simp only [cwBuildBody, apply_ite (Functor.map _), map_bind]
  rfl

theorem ignoresOutcome_mbFuncBody : IgnoresOutcome mbFuncBody := fun s r q e => by
  simp only [mbFuncBody, apply_ite (Functor.map _)]
  rfl

theorem ignoresOutcome_mbPlaceBody : IgnoresOutcome mbPlaceBody := fun s r q e => by
  simp only [mbPlaceBody, apply_ite (Functor.map _), map_bind]
  rfl

/-- Scoring reads and writes nothing of the outcome. -/
theorem State.scoreAll_withOutcome (s : State) (r : Word) (q : Option Response) (e : ErrCode) :
    (s.withOutcome r q e).scoreAll = s.scoreAll.withOutcome r q e :=
  List.foldl_hom (fun s : State => s.withOutcome r q e) fun _ _ => rfl

theorem ignoresOutcome_mbSelectBody : IgnoresOutcome mbSelectBody := fun s r q e => by
  simp only [mbSelectBody, apply_ite (Functor.map _), State.scoreAll_withOutcome]
  rfl

theorem ignoresOutcome_mbFinalBody : IgnoresOutcome mbFinalBody := fun s r q e => by
  simp only [mbFinalBody, apply_ite (Functor.map _)]
  rfl

section Outcome
variable {body : Body} {s t : State} {r : Word} (hbody : IgnoresOutcome body) (h : body s = .ok (t, r))
include hbody h

/-- Such a rule leaves STATUS.ERR as it is. -/
theorem IgnoresOutcome.err_eq : t.err = s.err := by
  have hsame := hbody s s.result s.rsp s.err
  rw [s.withOutcome_self, h] at hsame
  exact congrArg (fun p => p.1.err) (Except.ok.inj hsame)

/-- Such a command answers after a completed command as its rule does before it (R333). -/
theorem IgnoresOutcome.gated_success (hs : s.err = .ok) (r' : Word) :
    gated body (success s r') = .next (success t r) := by
  have hafter := hbody s r' (some ⟨r', .ok⟩) s.err
  rw [h] at hafter
  rw [gated_eq_success (s := success s r') hs hafter, ← hbody.err_eq h]
  rfl

end Outcome

/-! ### ENCODE after its rules -/

/-- The word that ENCODE returns, as a number (R310). -/
theorem encodeResult_eq_encodeWord (s : State) : encodeResult s = encodeWord s := by
  have layout : ∀ (v : BitVec 4) (m : BitVec 3),
      zext32 (BitVec.ofNat 8 (Rom.size v.toNat)) <<< 8 ||| zext32 m <<< 4 ||| zext32 v =
        BitVec.ofNat 32 (256 * (4 * v.toNat + 17) + 16 * m.toNat + v.toNat) := by decide
  exact layout s.version s.mask

/-- ENCODE where its seven rules complete. -/
theorem exec_encode_of_steps {s t : State} (hs : s.err = .ok) (h : encodeSteps s = .ok t) :
    exec .encode s = .next (success t (encodeWord t)) := by
  change execEncode s = _
  rw [execEncode, if_pos hs, h, ← encodeResult_eq_encodeWord]
  rfl

/-- ENCODE where one of its rules stops on a fault. -/
theorem exec_encode_of_stop {s : State} {f : Fault} (hs : s.err = .ok) (h : encodeSteps s = stop f) :
    exec .encode s = .fault f := by
  change execEncode s = _
  rw [execEncode, if_pos hs, h]
  rfl

/-- Where the seven rules complete, the seven commands do, and leave the same state but for the response (R313). -/
theorem seven_commands_of_steps {s t : State} (hs : s.err = .ok) (h : encodeSteps s = .ok t) :
    t.err = .ok ∧ ∃ (s1 s2 s3 s4 s5 s6 : State) (r : Word),
      exec .deSelect s = .next s1 ∧ exec .deEncode s1 = .next s2 ∧ exec .cwBuild s2 = .next s3 ∧
      exec .mbFunc s3 = .next s4 ∧ exec .mbPlace s4 = .next s5 ∧ exec .mbSelect s5 = .next s6 ∧
      exec .mbFinal s6 = .next (success t r) := by
  obtain ⟨⟨t1, r1⟩, h1, h⟩ := Exec.bind_ok h
  obtain ⟨⟨t2, r2⟩, h2, h⟩ := Exec.bind_ok h
  obtain ⟨⟨t3, r3⟩, h3, h⟩ := Exec.bind_ok h
  obtain ⟨⟨t4, r4⟩, h4, h⟩ := Exec.bind_ok h
  obtain ⟨⟨t5, r5⟩, h5, h⟩ := Exec.bind_ok h
  obtain ⟨⟨t6, r6⟩, h6, h⟩ := Exec.bind_ok h
  obtain ⟨⟨t7, r7⟩, h7, h⟩ := Exec.bind_ok h
  obtain rfl : t7 = t := Except.ok.inj h
  have e1 := (ignoresOutcome_deSelectBody.err_eq h1).trans hs
  have e2 := (ignoresOutcome_deEncodeBody.err_eq h2).trans e1
  have e3 := (ignoresOutcome_cwBuildBody.err_eq h3).trans e2
  have e4 := (ignoresOutcome_mbFuncBody.err_eq h4).trans e3
  have e5 := (ignoresOutcome_mbPlaceBody.err_eq h5).trans e4
  have e6 := (ignoresOutcome_mbSelectBody.err_eq h6).trans e5
  have e7 := (ignoresOutcome_mbFinalBody.err_eq h7).trans e6
  exact ⟨e7, success t1 r1, success t2 r2, success t3 r3, success t4 r4, success t5 r5, success t6 r6, r7,
    gated_eq_success hs h1,
    ignoresOutcome_deEncodeBody.gated_success h2 e1 r1,
    ignoresOutcome_cwBuildBody.gated_success h3 e2 r2,
    ignoresOutcome_mbFuncBody.gated_success h4 e3 r3,
    ignoresOutcome_mbPlaceBody.gated_success h5 e4 r4,
    ignoresOutcome_mbSelectBody.gated_success h6 e5 r5,
    ignoresOutcome_mbFinalBody.gated_success h7 e6 r6⟩

/-! ### The rules on a text that fits -/

/-- Drawing a pattern keeps the array's shape. -/
theorem Grid.shaped_draw {g : Grid} (h : g.shaped) (pattern : Nat → Nat → Option Bool) (n : Nat) : (g.draw pattern n).shaped :=
  Grid.shaped_mapSquare h _ n

/-- Reserving an area keeps the array's shape. -/
theorem Grid.shaped_reserve {g : Grid} (h : g.shaped) (area : Nat → Nat → Bool) (n : Nat) : (g.reserve area n).shaped :=
  Grid.shaped_mapSquare h _ n

/-- MB_FUNC keeps the array's shape. -/
theorem shaped_functionPatterns (v : Nat) {g : Grid} (hg : g.shaped) : (functionPatterns v g).shaped := by
  have hblank := Grid.shaped_mapSquare hg (fun _ _ _ => Cell.blank) (Rom.size v)
  have htiming := Grid.shaped_draw hblank timingPattern (Rom.size v)
  have hfinders := Grid.shaped_draw htiming (finderPattern (Rom.size v)) (Rom.size v)
  have haligns := Grid.shaped_draw hfinders (alignPattern v) (Rom.size v)
  have hformat := Grid.shaped_reserve haligns (formatArea (Rom.size v)) (Rom.size v)
  have hdark := Grid.shaped_draw hformat (darkModule (Rom.size v)) (Rom.size v)
  unfold functionPatterns
  split
  · exact Grid.shaped_reserve hdark _ _
  · exact hdark

/-- VERSION, the text's length, the buffer and WRAM are the same: what no rule that builds the matrix writes. -/
structure SameCodewords (s t : State) : Prop where
  version : t.version = s.version
  txtLen : t.txtLen = s.txtLen
  bb : t.bb = s.bb
  wram : t.wram = s.wram

theorem SameCodewords.trans {s t u : State} (h : SameCodewords s t) (h' : SameCodewords t u) : SameCodewords s u :=
  ⟨h'.version.trans h.version, h'.txtLen.trans h.txtLen, h'.bb.trans h.bb, h'.wram.trans h.wram⟩

/-- MB_FUNC's rule completes once a version is set (R222). -/
theorem mbFuncBody_completes {s : State} (hv : s.version ≠ 0) (hshaped : s.mat.shaped) :
    ∃ t r, mbFuncBody s = .ok (t, r) ∧ SameCodewords s t ∧ t.mstage = .func ∧ t.mat.shaped :=
  ⟨_, _, if_neg hv, ⟨rfl, rfl, rfl, rfl⟩, rfl, shaped_functionPatterns s.ver hshaped⟩

/-- MB_PLACE's rule completes on a written sequence (R240). -/
theorem mbPlaceBody_completes {s : State} {seq : List Byte} (hm : s.mstage = .func) (hshaped : s.mat.shaped)
    (hlen : seq.length = Rom.totalCount s.ver) (hseq : written s 0x800 seq) :
    ∃ t r, mbPlaceBody s = .ok (t, r) ∧ SameCodewords s t ∧ t.mstage = .placed :=
  ⟨_, _, mbPlaceBody_eq_ok hm hlen hseq hshaped, ⟨rfl, rfl, rfl, rfl⟩, rfl⟩

/-- MB_SELECT's rule completes on a placed matrix (R284). -/
theorem mbSelectBody_completes {s : State} (hm : s.mstage = .placed) :
    ∃ t r, mbSelectBody s = .ok (t, r) ∧ SameCodewords s t ∧ t.mstage = .selected := by
  obtain ⟨pen, hpen⟩ := s.scoreAll_eq_withPenalties
  refine ⟨_, _, if_neg (not_unplaced (.inl hm)), ?_, rfl⟩
  rw [hpen]
  exact ⟨rfl, rfl, rfl, rfl⟩

/-- MB_FINAL's rule completes once a mask is selected (R252). -/
theorem mbFinalBody_completes {s : State} (hm : s.mstage = .selected) :
    ∃ t r, mbFinalBody s = .ok (t, r) ∧ SameCodewords s t ∧ t.mstage = .final :=
  ⟨_, _, if_neg (not_not.2 hm), ⟨rfl, rfl, rfl, rfl⟩, rfl⟩

/-- DE_SELECT finds a version for every text of at most 520 bytes (R147, R148). -/
theorem deSelectBody_finds_version {s : State} (hlen : s.txtLen.toNat ≤ 520) :
    ∃ (v : BitVec 4) (r : Word), leastVersion s.txtLen.toNat v.toNat ∧ deSelectBody s = .ok (s.setVersion v, r) := by
  obtain ⟨v, hleast, hselect⟩ := selectVersion_eq_ok hlen
  have hv : (BitVec.ofNat 4 v).toNat = v := by
    obtain ⟨-, h15, -⟩ := hleast
    rw [BitVec.toNat_ofNat]
    omega
  exact ⟨BitVec.ofNat 4 v, _, hv.symm ▸ hleast, deSelectBody_eq_ok hselect⟩

/-- A least version is a version, and holds the text. -/
theorem version_holds_of_least {len : Nat} {v : BitVec 4} (h : leastVersion len v.toNat) :
    v ≠ 0 ∧ len ≤ entry capTable v.toNat := by
  obtain ⟨h1, -, hfits, -⟩ := h
  refine ⟨?_, hfits⟩
  rintro rfl
  exact absurd h1 (by decide)

/-- ENCODE faults on an unwritten byte of a text that has a version (R71). -/
theorem encode_faultsOnUnwritten {s : State} (hs : s.err = .ok) (hlen : s.txtLen.toNat ≤ 520) :
    faultsOnUnwritten .encode s 0xC00 s.txtLen.toNat := by
  intro hunwritten
  obtain ⟨a, hlow, hhigh, hnone, hread⟩ := Memory.readBytes_unwritten (txtRegion_fits s) hunwritten
  obtain ⟨v, r, hleast, hselect⟩ := deSelectBody_finds_version hlen
  obtain ⟨hv, hfits⟩ := version_holds_of_least hleast
  have hstop : deEncodeBody (s.setVersion v) = stop (.unwrittenByte a) := deEncodeBody_text_stops hv hfits hread
  refine ⟨a, ⟨hlow, hhigh, hnone⟩, exec_encode_of_stop hs ?_⟩
  rw [encodeSteps, hselect, Exec.ok_bind, hstop]
  rfl

/-- The rules of `EncodeSteps` that make the codewords (R313). -/
def codewordSteps (s : State) : Exec State := do
  let p ← deSelectBody s
  let p ← deEncodeBody p.1
  let p ← cwBuildBody p.1
  return p.1

/-- The rules of `EncodeSteps` that build the matrix (R313). -/
def matrixSteps (s : State) : Exec State := do
  let p ← mbFuncBody s
  let p ← mbPlaceBody p.1
  let p ← mbSelectBody p.1
  let p ← mbFinalBody p.1
  return p.1

theorem encodeSteps_eq_bind (s : State) : encodeSteps s = codewordSteps s >>= matrixSteps := by
  simp only [encodeSteps, codewordSteps, matrixSteps, bind_assoc, pure_bind]

/-- The state after DE_ENCODE's rule: the stream in the buffer, and its bytes in the DATA region (R156). -/
def State.withStream (s : State) (text : List Byte) : State :=
  { s with
    bb := stream s.version.toNat text
    wram := s.wram.store 0x000 (bytesOfBits (Rom.dataCount s.ver) (stream s.version.toNat text)) }

/-- The codewords of a written text of at most 520 bytes: the least version, the stream, and a sequence in its region. -/
theorem codewordSteps_complete {s : State} {text : List Byte} (hlen : s.txtLen.toNat ≤ 520) (htext : textIs s text) :
    ∃ t seq, codewordSteps s = .ok t ∧ leastVersion s.txtLen.toNat t.version.toNat ∧ t.txtLen = s.txtLen ∧
      t.bb = stream t.version.toNat text ∧ t.mat = s.mat ∧ seq.length = Rom.totalCount t.ver ∧ written t 0x800 seq := by
  obtain ⟨v, r, hleast, hselect⟩ := deSelectBody_finds_version hlen
  obtain ⟨hv, hfits⟩ := version_holds_of_least hleast
  have hencode := deEncodeBody_eq_ok (s := s.setVersion v) hv hfits htext
  have hdata := length_bytesOfBits (Rom.dataCount v.toNat) (stream v.toNat text)
  have hbuild := cwBuildBody_eq_ok (s := (s.setVersion v).withStream text) hv hdata (storedAt_store _ _ _).1
  obtain ⟨-, hseq, -⟩ := afterCwBuild_regions (s := s.setVersion v) hv hdata ((s.setVersion v).withStream text).wram
  have hsteps : codewordSteps s = cwBuildBody ((s.setVersion v).withStream text) >>= fun p => pure p.1 := by
    rw [codewordSteps, hselect, Exec.ok_bind, hencode]
    rfl
  rw [hbuild, Exec.ok_bind] at hsteps
  exact ⟨_, _, hsteps, hleast, rfl, rfl, rfl, length_codewordSequence hdata, hseq⟩

/-- The matrix of a written sequence, from any array of the right shape. -/
theorem matrixSteps_complete {s : State} {seq : List Byte} (hv : s.version ≠ 0) (hshaped : s.mat.shaped)
    (hlen : seq.length = Rom.totalCount s.ver) (hseq : written s 0x800 seq) :
    ∃ t, matrixSteps s = .ok t ∧ SameCodewords s t ∧ t.mstage = .final := by
  obtain ⟨t1, r1, hfunc, hsame1, hstage1, hshaped1⟩ := mbFuncBody_completes hv hshaped
  have hlen1 : seq.length = Rom.totalCount t1.ver := by rw [hlen, State.ver, State.ver, hsame1.version]
  have hseq1 : written t1 0x800 seq := by rwa [written, hsame1.wram]
  obtain ⟨t2, r2, hplace, hsame2, hstage2⟩ := mbPlaceBody_completes hstage1 hshaped1 hlen1 hseq1
  obtain ⟨t3, r3, hselect, hsame3, hstage3⟩ := mbSelectBody_completes hstage2
  obtain ⟨t4, r4, hfinal, hsame4, hstage4⟩ := mbFinalBody_completes hstage3
  refine ⟨t4, ?_, hsame1.trans (hsame2.trans (hsame3.trans hsame4)), hstage4⟩
  simp only [matrixSteps, hfunc, hplace, hselect, hfinal, Exec.ok_bind]
  rfl

/-- `EncodeSteps` completes on every written text of at most 520 bytes (R313). -/
theorem encodeSteps_complete {s : State} {text : List Byte} (hshaped : s.mat.shaped) (hlen : s.txtLen.toNat ≤ 520)
    (htext : textIs s text) : ∃ t, encodeSteps s = .ok t ∧ leastVersion s.txtLen.toNat t.version.toNat ∧ t.mstage = .final ∧
      t.txtLen = s.txtLen ∧ t.bb = stream t.version.toNat text := by
  obtain ⟨u, seq, hcodewords, hleast, htxtLen, hbb, hmat, hseqLen, hseq⟩ := codewordSteps_complete hlen htext
  obtain ⟨hv, -⟩ := version_holds_of_least hleast
  obtain ⟨t, hmatrix, hsame, hstage⟩ := matrixSteps_complete hv (hmat ▸ hshaped) hseqLen hseq
  refine ⟨t, ?_, hsame.version ▸ hleast, hstage, hsame.txtLen.trans htxtLen, hsame.version ▸ hsame.bb.trans hbb⟩
  rw [encodeSteps_eq_bind, hcodewords, Exec.ok_bind, hmatrix]

/-- ENCODE's word decodes whatever the argument words are (R90, R94). -/
theorem decode_encodeWord (a0 a1 : Word) : decode ⟨0x74000000, a0, a1⟩ = .ok .encode := by
  simp [decode, opcodeOf, formatN, withFormat, reservedClear]

/-- Settles O52: the seven rules complete on the text, and each command answers as its rule does. -/
theorem encodeIsTheSevenCommands : Obligations.EncodeIsTheSevenCommands := by
  refine ⟨decode_encodeWord, fun s => encode_faultsOnUnwritten, fun s text hs hshaped hlen htext => ?_⟩
  obtain ⟨t, hsteps, hleast, hstage, htxtLen, hbb⟩ := encodeSteps_complete hshaped hlen htext
  obtain ⟨herr, s1, s2, s3, s4, s5, s6, r, h1, h2, h3, h4, h5, h6, h7⟩ := seven_commands_of_steps hs hsteps
  have hencode := exec_encode_of_steps hs hsteps
  exact ⟨s1, s2, s3, s4, s5, s6, success t r, h1, h2, h3, h4, h5, h6, h7, hencode, hleast, hstage, herr, htxtLen, hbb⟩

end Sys2Proof.Machine
end

section
/-! PROOFS. Errors: the gate and the three commands that pass it, and what a command whose response carries an error code leaves
(R334, R335, R314). -/

namespace Sys2Proof.Machine

/-! ### A rule never raises ErrPending: that code is the gate's alone -/

/-- The computation does not end with the error ErrPending. -/
def Exec.NeverPending {α : Type} (x : Exec α) : Prop := x ≠ raise .errPending

section NeverPending
variable {α β : Type}

@[simp] theorem Exec.neverPending_ok (a : α) : Exec.NeverPending (.ok a) := nofun

@[simp] theorem Exec.neverPending_pure (a : α) : Exec.NeverPending (pure a) := nofun

@[simp] theorem Exec.neverPending_stop (f : Fault) : Exec.NeverPending (stop f : Exec α) := nofun

@[simp] theorem Exec.neverPending_raise (e : ErrCode) : Exec.NeverPending (raise e : Exec α) ↔ e ≠ .errPending := by
  simp [Exec.NeverPending, raise]

@[simp] theorem Exec.neverPending_bind (x : Exec α) (f : α → Exec β) :
    (x >>= f).NeverPending ↔ x.NeverPending ∧ ∀ a, x = .ok a → (f a).NeverPending := by
  cases x with
  | ok a => simp [Exec.ok_bind]
  | error exit => simp [Exec.NeverPending, raise, bind, Except.bind]

@[simp] theorem Exec.neverPending_map (f : α → β) (x : Exec α) : (f <$> x).NeverPending ↔ x.NeverPending := by
  rw [map_eq_pure_bind, Exec.neverPending_bind]
  simp

@[simp] theorem Exec.neverPending_ite (c : Prop) [Decidable c] (x y : Exec α) :
    Exec.NeverPending (if c then x else y) ↔ (c → x.NeverPending) ∧ (¬ c → y.NeverPending) := by
  split <;> simp [*]

end NeverPending

@[simp] theorem Memory.readByte_neverPending (m : Memory) (a : Nat) : (m.readByte a).NeverPending := by
  unfold Memory.readByte
  split
  · split <;> simp
  · simp

@[simp] theorem Memory.readBytes_neverPending (m : Memory) (a n : Nat) : (m.readBytes a n).NeverPending := by
  induction n generalizing a with
  | zero => simp [Memory.readBytes]
  | succ n ih => simp [Memory.readBytes, ih]

@[simp] theorem Memory.writeBytes_neverPending (m : Memory) (a : Nat) (bytes : List Byte) :
    (m.writeBytes a bytes).NeverPending := by
  simp [Memory.writeBytes]

@[simp] theorem appendBits_neverPending (bb : List Bool) (value n : Nat) : (appendBits bb value n).NeverPending := by
  simp [appendBits]

@[simp] theorem appendBytes_neverPending (bb : List Bool) (bytes : List Byte) : (appendBytes bb bytes).NeverPending := by
  induction bytes generalizing bb with
  | nil => simp [appendBytes]
  | cons b bytes ih => simp [appendBytes, ih]

@[simp] theorem padBytes_neverPending (capBits fuel p : Nat) (bb : List Bool) :
    (padBytes capBits fuel p bb).NeverPending := by
  induction fuel generalizing p bb with
  | zero => simp [padBytes]
  | succ fuel ih => simp [padBytes, ih]

@[simp] theorem formatStream_neverPending (v : Nat) (text : List Byte) : (formatStream v text).NeverPending := by
  simp [formatStream]

@[simp] theorem selectVersion_neverPending (len : Nat) : (selectVersion len).NeverPending := by
  unfold selectVersion
  split
  · simp
  · split <;> simp

@[simp] theorem deSelectBody_neverPending (s : State) : (deSelectBody s).NeverPending := by
  simp [deSelectBody]

@[simp] theorem deEncodeBody_neverPending (s : State) : (deEncodeBody s).NeverPending := by
  simp [deEncodeBody, State.text]

@[simp] theorem cwBuildBody_neverPending (s : State) : (cwBuildBody s).NeverPending := by
  simp [cwBuildBody, State.dataRegion]

@[simp] theorem mbFuncBody_neverPending (s : State) : (mbFuncBody s).NeverPending := by
  simp [mbFuncBody]

@[simp] theorem mbPlaceBody_neverPending (s : State) : (mbPlaceBody s).NeverPending := by
  simp [mbPlaceBody, State.seqRegion]

@[simp] theorem mbSelectBody_neverPending (s : State) : (mbSelectBody s).NeverPending := by
  simp [mbSelectBody]

@[simp] theorem mbFinalBody_neverPending (s : State) : (mbFinalBody s).NeverPending := by
  simp [mbFinalBody]

theorem encodeSteps_neverPending (s : State) : (encodeSteps s).NeverPending := by
  simp [encodeSteps]

/-! ### The gate -/

/-- Every command but NOP, ERR_CLEAR, REG_READ and ENCODE is a rule behind the gate, and the rule never raises ErrPending. -/
theorem exec_eq_gated {i : Instr} (hnop : i ≠ .nop) (hclear : i ≠ .errClear) (hread : ∀ sel, i ≠ .regRead sel)
    (henc : i ≠ .encode) : ∃ body : Body, (∀ s, exec i s = gated body s) ∧ ∀ s, (body s).NeverPending := by
  cases i with
  | nop => exact absurd rfl hnop
  | errClear => exact absurd rfl hclear
  | regRead sel => exact absurd rfl (hread sel)
  | encode => exact absurd rfl henc
  | bbGetbit | bbGetbyte =>
    refine ⟨_, fun _ => rfl, fun s => ?_⟩
    split <;> simp
  | bbClear | bbAppend | bbAppendByte | bbLength | lenSet | verSet | deSelect | deEncode | gfExp | gfLog | gfMul | gfDiv | rsGen
      | rsEncode | cwBuild | mbFunc | mbPlace | mbCell | mbFinal | mbIsdark | mbPenalty | mbSelect | wrWrite | wrRead =>
    exact ⟨_, fun _ => rfl, fun s => by simp⟩

/-- NOP, ERR_CLEAR and REG_READ are rules without the gate (R335). -/
theorem exec_eq_perform {i : Instr} (h : i = .nop ∨ i = .errClear ∨ ∃ sel, i = .regRead sel) :
    ∃ body : Body, (∀ s, exec i s = perform body s) ∧ ∀ s, (body s).NeverPending := by
  obtain rfl | rfl | ⟨sel, rfl⟩ := h
  · exact ⟨fun s => .ok (s, 0), fun _ => rfl, fun _ => Exec.neverPending_ok _⟩
  · exact ⟨fun s => .ok (s.clearErr, zext32 s.err.code), fun _ => rfl, fun _ => Exec.neverPending_ok _⟩
  · refine ⟨_, fun _ => rfl, fun s => ?_⟩
    split <;> simp

/-- ENCODE has its own gate, which answers as the others do (R335). -/
theorem exec_encode_of_pending {s : State} (hs : s.err ≠ .ok) : exec .encode s = .next s.refusePending :=
  if_neg hs

/-- Everything ENCODE can do when it answers a next state: be refused, complete, or take an error of its rules (R310, R314). -/
theorem exec_encode_next {s t : State} (h : exec .encode s = .next t) :
    (s.err ≠ .ok ∧ t = s.refusePending) ∨
    (s.err = .ok ∧ ∃ s', encodeSteps s = .ok s' ∧ t = s'.respond (encodeResult s') .ok) ∨
    (s.err = .ok ∧ ∃ e, encodeSteps s = raise e ∧ t = s.failEncode e) := by
  by_cases hs : s.err = .ok
  · change execEncode s = _ at h
    rw [execEncode, if_pos hs] at h
    split at h
    · rename_i s' hsteps
      cases h
      exact .inr (.inl ⟨hs, s', hsteps, rfl⟩)
    · rename_i e hsteps
      cases h
      exact .inr (.inr ⟨hs, e, hsteps, rfl⟩)
    · cases h
  · rw [exec_encode_of_pending hs] at h
    cases h
    exact .inl ⟨hs, rfl⟩

/-- While an error is pending, the gate refuses every command but NOP, ERR_CLEAR and REG_READ (R335). -/
theorem exec_of_pending {i : Instr} {s : State} (hs : s.err ≠ .ok) (hnop : i ≠ .nop) (hclear : i ≠ .errClear)
    (hread : ∀ sel, i ≠ .regRead sel) : exec i s = .next s.refusePending := by
  by_cases henc : i = .encode
  · rw [henc, exec_encode_of_pending hs]
  · obtain ⟨body, hexec, -⟩ := exec_eq_gated hnop hclear hread henc
    rw [hexec, gated_pending hs]

/-- Every legal selector names a register (R44, R97). -/
theorem State.readReg_eq_some_of_legalSelector (s : State) {sel : BitVec 5} (h : legalSelector sel = true) :
    ∃ w, s.readReg sel = some w := by
  simp only [legalSelector, Bool.or_eq_true, Bool.and_eq_true, decide_eq_true_eq] at h
  unfold State.readReg
  split
  case h_10 =>
    simp only [imp_false] at *
    have hpen : 16 ≤ sel.toNat ∧ sel.toNat ≤ 23 := by omega
    exact ⟨_, if_pos hpen⟩
  all_goals exact ⟨_, rfl⟩

/-- Settles O7: the gate refuses all commands but the three, and each of the three completes in every state. -/
theorem pendingErrorGatesCommands : Obligations.PendingErrorGatesCommands := by
  intro s
  refine ⟨fun i hs hnop hclear hread => exec_of_pending hs hnop hclear hread, ⟨0, rfl⟩, ⟨_, _, exec_errClear s⟩, ?_⟩
  intro sel hsel
  obtain ⟨w, hw⟩ := s.readReg_eq_some_of_legalSelector hsel
  exact ⟨w, exec_regRead hw⟩

/-! ### What a command that answers an error leaves -/

/-- An error that is taken leaves no ErrPending in STATUS.ERR (R34). -/
theorem State.fail_err_ne_errPending {s : State} {e : ErrCode} (he : e ≠ .errPending) (hs : s.err ≠ .errPending) :
    (s.fail e).err ≠ .errPending := by
  rw [State.fail_err]
  split <;> assumption

section Failing
variable {s t : State} {r : Word} {e : ErrCode}

/-- A response has one error code. -/
theorem Response.err_unique {r' : Word} {e' : ErrCode} (h : (some ⟨r', e'⟩ : Option Response) = some ⟨r, e⟩) : e' = e :=
  (Response.mk.inj (Option.some.inj h)).2

variable (hr : t.rsp = some ⟨r, e⟩) (he : e ≠ .ok)
include hr he

/-- The state after a command that completed is not one whose response carries an error code. -/
theorem State.ne_respond_ok (s' : State) (r' : Word) : t ≠ s'.respond r' .ok := by
  rintro rfl
  exact he (Response.err_unique hr).symm

/-- A performed rule that answers an error code raised it, and the error is taken on the state before (R14, R334). -/
theorem perform_error {body : Body} (hb : (body s).NeverPending) (h : perform body s = .next t) :
    e ≠ .errPending ∧ t = s.fail e := by
  rcases perform_next h with ⟨s', r', -, ht⟩ | ⟨e', hraise, rfl⟩
  · exact absurd ht (State.ne_respond_ok hr he s' r')
  · obtain rfl : e' = e := Response.err_unique hr
    rw [hraise, Exec.neverPending_raise] at hb
    exact ⟨hb, rfl⟩

/-- A gated rule that answers an error code was refused by the gate, or raised the error. -/
theorem gated_error {body : Body} (hb : (body s).NeverPending) (h : gated body s = .next t) :
    (s.err ≠ .ok ∧ e = .errPending ∧ t = s.refusePending) ∨ (e ≠ .errPending ∧ t = s.fail e) := by
  by_cases hs : s.err = .ok
  · rw [gated_open hs] at h
    exact .inr (perform_error hr he hb h)
  · rw [gated_pending hs] at h
    cases h
    exact .inl ⟨hs, (Response.err_unique hr).symm, rfl⟩

/-- An ENCODE that answers an error code was refused by its gate, or one of its rules raised the error (R314). -/
theorem exec_encode_error (h : exec .encode s = .next t) :
    (s.err ≠ .ok ∧ e = .errPending ∧ t = s.refusePending) ∨ (e ≠ .errPending ∧ t = s.failEncode e) := by
  rcases exec_encode_next h with ⟨hs, rfl⟩ | ⟨-, s', -, ht⟩ | ⟨-, e', hraise, rfl⟩
  · exact .inl ⟨hs, (Response.err_unique hr).symm, rfl⟩
  · exact absurd ht (State.ne_respond_ok hr he s' _)
  · obtain rfl : e' = e := Response.err_unique hr
    have hb := encodeSteps_neverPending s
    rw [hraise, Exec.neverPending_raise] at hb
    exact .inr ⟨hb, rfl⟩

/-- Any other command that answers an error code was refused by the gate, or its rule raised the error (R334, R335). -/
theorem exec_error {i : Instr} (henc : i ≠ .encode) (h : exec i s = .next t) :
    (s.err ≠ .ok ∧ e = .errPending ∧ t = s.refusePending) ∨ (e ≠ .errPending ∧ t = s.fail e) := by
  by_cases hfree : i = .nop ∨ i = .errClear ∨ ∃ sel, i = .regRead sel
  · obtain ⟨body, hexec, hbody⟩ := exec_eq_perform hfree
    rw [hexec] at h
    exact .inr (perform_error hr he (hbody s) h)
  · simp only [not_or, not_exists] at hfree
    obtain ⟨hnop, hclear, hread⟩ := hfree
    obtain ⟨body, hexec, hbody⟩ := exec_eq_gated hnop hclear hread henc
    rw [hexec] at h
    exact gated_error hr he (hbody s) h

/-- A command word that answers an error code was refused by the gate, failed as an ENCODE, or failed as any other command or
as an illegal word (R99, R332). -/
theorem runCommand_error {c : Command} (h : runCommand c s = .next t) :
    (s.err ≠ .ok ∧ e = .errPending ∧ t = s.refusePending) ∨
    (e ≠ .errPending ∧ decode c = .ok .encode ∧ t = s.failEncode e) ∨
    (e ≠ .errPending ∧ decode c ≠ .ok .encode ∧ t = s.fail e) := by
  cases hd : decode c with
  | error reason =>
    rw [runCommand_of_decode_error hd] at h
    cases h
    obtain rfl : ErrCode.illegal = e := Response.err_unique hr
    exact .inr (.inr ⟨nofun, nofun, rfl⟩)
  | ok i =>
    rw [runCommand, hd] at h
    by_cases henc : i = .encode
    · subst henc
      exact (exec_encode_error hr he h).imp_right fun ⟨hne, ht⟩ => .inl ⟨hne, rfl, ht⟩
    · exact (exec_error hr he henc h).imp_right fun ⟨hne, ht⟩ => .inr ⟨hne, fun hok => henc (Except.ok.inj hok), ht⟩

end Failing

/-- Settles O8: the gate's refusal, a failed ENCODE and any other failure each leave the stated state, and only the gate answers
ErrPending. -/
theorem failingCommandCommitsNothing : Obligations.FailingCommandCommitsNothing := by
  intro c s t r e h hr he
  rcases runCommand_error hr he h with ⟨hs, rfl, rfl⟩ | ⟨hne, henc, rfl⟩ | ⟨hne, henc, rfl⟩
  · refine ⟨?_, fun _ => hs, id⟩
    have hkeep : ¬ (decode c = .ok .encode ∧ ErrCode.errPending ≠ .errPending) := fun ⟨_, hne⟩ => hne rfl
    rw [if_neg hs, if_neg hkeep]
    rfl
  · refine ⟨?_, fun hpend => absurd hpend hne, State.fail_err_ne_errPending hne⟩
    rw [if_pos (And.intro henc hne)]
    rfl
  · refine ⟨?_, fun hpend => absurd hpend hne, State.fail_err_ne_errPending hne⟩
    have hkeep : ¬ (decode c = .ok .encode ∧ e ≠ .errPending) := fun ⟨hok, _⟩ => henc hok
    rw [if_neg hkeep]
    rfl

end Sys2Proof.Machine
end

section
/-! PROOFS. Encoding and decoding undo each other: every well-formed command is read back from its words, and every legal word is
its command's (R94, R96, R98, R100). -/

open Sys2Proof.Claims

namespace Sys2Proof.Machine

/-! ### Every command is read back -/

/-- A field in the lowest bits is not shifted (R94). -/
@[simp] theorem field_zero {n : Nat} (x : BitVec n) : field x 0 = zext32 x := BitVec.shiftLeft_zero _

/-- Two fields over an opcode, in the order the words of the claims write them (R93). -/
theorem commandWord_or (op : BitVec 8) (x y : Word) : commandWord op (x ||| y) = commandWord op x ||| y :=
  (BitVec.or_assoc _ _ _).symm

/-- Settles O1: the words of `encode` are those whose decoding the commands' own sections state. -/
theorem encodeThenDecodeReturnsTheCommand : Obligations.EncodeThenDecodeReturnsTheCommand := by
  intro i hi
  cases i <;> simp only [encode, field_zero, commandWord_or]
  case nop => exact decode_nopWord 0 0
  case bbClear => exact decode_bbClearWord 0 0
  case bbAppend nbits value => exact decode_bbAppendWord nbits value 0
  case bbAppendByte byte => exact decode_bbAppendByteWord byte 0 0
  case bbLength => exact decode_bbLengthWord 0 0
  case bbGetbit index => exact decode_bbGetbitWord index 0
  case bbGetbyte k => exact decode_bbGetbyteWord k 0
  case lenSet len => exact decode_lenSetWord len 0 0
  case verSet ver => exact decode_verSetWord ver 0 0
  case deSelect => exact decode_deSelectWord 0 0
  case deEncode => exact decode_deEncodeWord 0 0
  case gfExp x => exact decode_gfExpWord x 0 0
  case gfLog a => exact decode_gfLogWord a 0 0
  case gfMul a b => exact decode_gfMulWord a b 0 0
  case gfDiv a b => exact decode_gfDivWord a b 0 0
  case rsGen n dst => exact decode_rsGenWord n dst 0
  case rsEncode n src len dst => exact decode_rsEncodeWord n src len dst
  case cwBuild => exact decode_cwBuildWord 0 0
  case mbFunc => exact decode_mbFuncWord 0 0
  case mbPlace => exact decode_mbPlaceWord 0 0
  case mbCell row col => exact decode_mbCellWord row col 0 0
  case mbFinal => exact decode_mbFinalWord 0 0
  case mbIsdark row col => exact decode_mbIsdarkWord row col 0 0
  case mbPenalty m => exact decode_mbPenaltyWord m 0 0
  case mbSelect => exact decode_mbSelectWord 0 0
  case wrWrite addr byte => exact decode_wrWriteWord addr byte 0 0
  case wrRead addr => exact decode_wrReadWord addr 0 0
  case regRead sel => exact regReadReturnsTheRegister.1 sel 0 0 hi
  case errClear => exact decode_errClearWord 0 0
  case encode => exact decode_encodeWord 0 0

/-! ### Every legal word is its command's -/

/-- A reserved bit of a word that passes the check is 0 (R101). -/
theorem getLsbD_of_clear {w mask : Word} (hclear : w &&& mask = 0) {k : Nat} (hk : mask.getLsbD k = true) :
    w.getLsbD k = false := by
  have hbit : (w &&& mask).getLsbD k = false := by simp [hclear]
  rwa [BitVec.getLsbD_and, hk, Bool.and_true] at hbit

/-- Two fields side by side are the bits from the lower one's first to the upper one's last. -/
theorem field_adjacent (w : Word) (m n : Nat) :
    field (w.extractLsb' n m) n ||| field (w.extractLsb' 0 n) 0 = zext32 (w.extractLsb' 0 (m + n)) := by
  refine BitVec.eq_of_getLsbD_eq fun k hk => ?_
  by_cases hlow : k < n
  · have hsum : k < m + n := by omega
    simp [field, hlow, hsum, hk]
  · have hplace : n + (k - n) = k := by omega
    have hsum : k - n < m ↔ k < m + n := by omega
    simp [field, hlow, hsum, hplace, hk]

/-- What a format without a reserved value accepts, and as what (R101). -/
theorem withFormat_eq_ok {mask w : Word} {i j : Instr} (h : withFormat mask w i = .ok j) : w &&& mask = 0 ∧ j = i := by
  rw [withFormat] at h
  split at h
  case isTrue hclear => exact ⟨(reservedClear_iff mask w).1 hclear, (Except.ok.inj h).symm⟩
  case isFalse => cases h

section Word
variable {w : Word} {op : BitVec 8} (hop : opcodeOf w = op)
include hop

/-- A word is its opcode and its low `n` bits, where every other bit is reserved (R93, R94). -/
theorem commandWord_extractLsb' (n : Nat) {mask : Word} (hclear : w &&& mask = 0)
    (hmask : ∀ k < 24, n ≤ k → mask.getLsbD k = true) : commandWord op (zext32 (w.extractLsb' 0 n)) = w := by
  subst hop
  refine BitVec.eq_of_getLsbD_eq fun k hk => ?_
  by_cases hhigh : k < 24
  · by_cases hfield : k < n
    · simp [commandWord, field, hhigh, hfield, hk]
    · have hbit := getLsbD_of_clear hclear (hmask k hhigh (by omega))
      simp [commandWord, field, hhigh, hfield, hbit]
  · have hwidth : k - 24 < 8 := by omega
    have hplace : 24 + (k - 24) = k := by omega
    simp [commandWord, field, opcodeOf, hhigh, hwidth, hplace, hk]

/-- A word of two fields that stand side by side is its opcode and the two (R93, R94). -/
theorem commandWord_two_fields (m n : Nat) {mask : Word} (hclear : w &&& mask = 0)
    (hmask : ∀ k < 24, m + n ≤ k → mask.getLsbD k = true) :
    commandWord op (field (w.extractLsb' n m) n ||| field (w.extractLsb' 0 n) 0) = w := by
  rw [field_adjacent, commandWord_extractLsb' hop (m + n) hclear hmask]

section Formats
variable {mask : Word} {j : Instr}

/-- Format N: the word is the opcode. -/
theorem formatN_eq_ok {i : Instr} (h : formatN w i = .ok j) : j = i ∧ commandWord op 0 = w := by
  obtain ⟨hclear, rfl⟩ := withFormat_eq_ok h
  have hword := commandWord_extractLsb' hop 0 hclear (by decide)
  rw [BitVec.eq_nil (w.extractLsb' 0 0)] at hword
  exact ⟨rfl, hword⟩

/-- The formats of one field, in the low bits. -/
theorem lowField_eq_ok {n : Nat} {i : BitVec n → Instr} (hmask : ∀ k < 24, n ≤ k → mask.getLsbD k = true)
    (h : withFormat mask w (i (w.extractLsb' 0 n)) = .ok j) : ∃ x, j = i x ∧ commandWord op (field x 0) = w := by
  obtain ⟨hclear, rfl⟩ := withFormat_eq_ok h
  exact ⟨_, rfl, (field_zero _).symm ▸ commandWord_extractLsb' hop n hclear hmask⟩

theorem formatNB_eq_ok {i : BitVec 6 → Instr} (h : formatNB w i = .ok j) : ∃ x, j = i x ∧ commandWord op (field x 0) = w :=
  lowField_eq_ok hop (by decide) h

theorem formatI8_eq_ok {i : Byte → Instr} (h : formatI8 w i = .ok j) : ∃ x, j = i x ∧ commandWord op (field x 0) = w :=
  lowField_eq_ok hop (by decide) h

theorem formatL10_eq_ok {i : BitVec 10 → Instr} (h : formatL10 w i = .ok j) :
    ∃ x, j = i x ∧ commandWord op (field x 0) = w := lowField_eq_ok hop (by decide) h

theorem formatV4_eq_ok {i : BitVec 4 → Instr} (h : formatV4 w i = .ok j) : ∃ x, j = i x ∧ commandWord op (field x 0) = w :=
  lowField_eq_ok hop (by decide) h

theorem formatM3_eq_ok {i : BitVec 3 → Instr} (h : formatM3 w i = .ok j) : ∃ x, j = i x ∧ commandWord op (field x 0) = w :=
  lowField_eq_ok hop (by decide) h

/-- Format S5: one field, which is a legal selector (R97). -/
theorem formatS5_eq_ok {i : BitVec 5 → Instr} (h : formatS5 w i = .ok j) :
    ∃ sel, j = i sel ∧ legalSelector sel = true ∧ commandWord op (field sel 0) = w := by
  obtain ⟨hclear, hsel⟩ := (formatS5_eq_ok_iff w i).1 ⟨j, h⟩
  have hread : formatS5 w i = .ok (i (w.extractLsb' 0 5)) :=
    (if_pos ((reservedClear_iff _ _).2 hclear)).trans (if_pos hsel)
  obtain rfl := Except.ok.inj (hread.symm.trans h)
  exact ⟨_, rfl, hsel, (field_zero _).symm ▸ commandWord_extractLsb' hop 5 hclear (by decide)⟩

/-- Formats P8 and RC: two bytes. -/
theorem formatP8_eq_ok {i : Byte → Byte → Instr} (h : formatP8 w i = .ok j) :
    ∃ a b, j = i a b ∧ commandWord op (field a 8 ||| field b 0) = w := by
  obtain ⟨hclear, rfl⟩ := withFormat_eq_ok h
  exact ⟨_, _, rfl, commandWord_two_fields hop 8 8 hclear (by decide)⟩

/-- Format AB: an address and a byte. -/
theorem formatAB_eq_ok {i : BitVec 12 → Byte → Instr} (h : formatAB w i = .ok j) :
    ∃ a b, j = i a b ∧ commandWord op (field a 8 ||| field b 0) = w := by
  obtain ⟨hclear, rfl⟩ := withFormat_eq_ok h
  exact ⟨_, _, rfl, commandWord_two_fields hop 12 8 hclear (by decide)⟩

/-- Format A: an address over a byte that is reserved. -/
theorem formatA_eq_ok {i : BitVec 12 → Instr} (h : formatA w i = .ok j) :
    ∃ a, j = i a ∧ commandWord op (field a 8) = w := by
  obtain ⟨hclear, rfl⟩ := withFormat_eq_ok h
  have hword := commandWord_two_fields hop 12 8 hclear (by decide)
  have hbyte : w.extractLsb' 0 8 = 0 := by
    have hmask : ∀ k < 8, (0xF000FF#32).getLsbD k = true := by decide
    refine BitVec.eq_of_getLsbD_eq fun k hk => ?_
    simp [hk, getLsbD_of_clear hclear (hmask k hk)]
  rw [hbyte] at hword
  exact ⟨_, rfl, (congrArg (commandWord op) BitVec.or_zero.symm).trans hword⟩

end Formats

end Word

/-- Settles O2: each row of the map by what its format accepts. -/
theorem decodedWordHasOneReading : Obligations.DecodedWordHasOneReading := by
  intro c i h
  unfold decode at h
  split at h
  case h_3 hop =>
    obtain ⟨x, rfl, hw⟩ := formatNB_eq_ok hop h
    exact ⟨rfl, congrArg (Command.mk · _ _) hw⟩
  case h_4 hop | h_12 hop | h_13 hop | h_16 hop =>
    obtain ⟨x, rfl, hw⟩ := formatI8_eq_ok hop h
    exact ⟨rfl, congrArg (Command.mk · _ _) hw⟩
  case h_17 hop =>
    obtain ⟨x, rfl, hw⟩ := formatI8_eq_ok hop h
    have hhalves : field (c.arg0.extractLsb' 16 16) 16 ||| field (c.arg0.extractLsb' 0 16) 0 = c.arg0 := by
      rw [field_adjacent, zext32, BitVec.extractLsb'_eq_self, BitVec.setWidth_eq]
    exact ⟨rfl, congrArg₂ (Command.mk · · _) hw hhalves⟩
  case h_8 hop =>
    obtain ⟨x, rfl, hw⟩ := formatL10_eq_ok hop h
    exact ⟨rfl, congrArg (Command.mk · _ _) hw⟩
  case h_9 hop =>
    obtain ⟨x, rfl, hw⟩ := formatV4_eq_ok hop h
    exact ⟨rfl, congrArg (Command.mk · _ _) hw⟩
  case h_14 hop | h_15 hop | h_21 hop | h_23 hop =>
    obtain ⟨a, b, rfl, hw⟩ := formatP8_eq_ok hop h
    exact ⟨rfl, congrArg (Command.mk · _ _) hw⟩
  case h_24 hop =>
    obtain ⟨x, rfl, hw⟩ := formatM3_eq_ok hop h
    exact ⟨rfl, congrArg (Command.mk · _ _) hw⟩
  case h_26 hop =>
    obtain ⟨a, b, rfl, hw⟩ := formatAB_eq_ok hop h
    exact ⟨rfl, congrArg (Command.mk · _ _) hw⟩
  case h_27 hop =>
    obtain ⟨a, rfl, hw⟩ := formatA_eq_ok hop h
    exact ⟨rfl, congrArg (Command.mk · _ _) hw⟩
  case h_28 hop =>
    obtain ⟨sel, rfl, hsel, hw⟩ := formatS5_eq_ok hop h
    exact ⟨hsel, congrArg (Command.mk · _ _) hw⟩
  case h_31 => cases h
  all_goals
    rename_i hop
    obtain ⟨rfl, hw⟩ := formatN_eq_ok hop h
    exact ⟨rfl, congrArg (Command.mk · _ _) hw⟩

end Sys2Proof.Machine
end

section
/-! PROOFS. What a step can do: the effect of each rule that completes, the outcomes of a command, and the step of the port
(R14, R72, R300, R332 to R335). -/

open Sys2Proof.Claims

namespace Sys2Proof.Machine

/-! ### What the shared operations yield -/

section Yields
variable {α : Type} {x : Exec α} {P Q : α → Prop}

theorem Exec.Yields.imp (h : x.Yields P) (himp : ∀ a, P a → Q a) : x.Yields Q := fun a ha => himp a (h a ha)

theorem Exec.yields_of_forall (h : ∀ a, P a) : x.Yields P := fun a _ => h a

end Yields

/-- The bits fit the buffer (R9, R39). -/
def FitsBuffer (bb : List Bool) : Prop := bb.length ≤ Config.bbCap

/-- An append that completes leaves no more bits than the buffer holds (R121). -/
theorem appendBits_yields_fits (bb : List Bool) (value n : Nat) : (appendBits bb value n).Yields FitsBuffer := by
  rcases appendBits_cases bb value n with ⟨-, hroom, h⟩ | ⟨-, h⟩
  · rw [h, Exec.yields_ok, FitsBuffer, List.length_append, length_msbBits]
    exact hroom
  · rw [h]
    exact Exec.yields_raise _

/-- The pad loop keeps the buffer within its capacity (R155). -/
theorem padBytes_yields_fits {capBits fuel p : Nat} {bb : List Bool} (h : FitsBuffer bb) :
    (padBytes capBits fuel p bb).Yields FitsBuffer := by
  induction fuel generalizing p bb with
  | zero => exact (Exec.yields_ok bb).2 h
  | succ fuel ih =>
    rw [padBytes, Exec.yields_ite, Exec.yields_bind]
    exact ⟨fun _ => (appendBits_yields_fits _ _ _).imp fun _ => ih, fun _ => (Exec.yields_ok bb).2 h⟩

/-- The stream of a text fits the buffer at any version (R150). -/
theorem formatStream_yields_fits (v : Nat) (text : List Byte) : (formatStream v text).Yields FitsBuffer := by
  simp only [formatStream, Exec.yields_bind]
  exact Exec.yields_of_forall fun _ => Exec.yields_of_forall fun _ => Exec.yields_of_forall fun _ =>
    Exec.yields_of_forall fun _ => (appendBits_yields_fits _ _ _).imp fun _ => padBytes_yields_fits

/-- `m` is what `s` holds in WRAM but for bytes that the command may store to (R72), and in the canonical form if that is. -/
structure StoredBy (i : Instr) (s : State) (m : Memory) : Prop where
  wf : s.wram.wf → m.wf
  other : ∀ v a, ¬ storesTo i s v a → m.lookup a = s.wram.lookup a

theorem StoredBy.refl (i : Instr) (s : State) : StoredBy i s s.wram := ⟨id, fun _ _ _ => rfl⟩

/-- A write of bytes that the command names (R71, R72). -/
theorem StoredBy.writeBytes {i : Instr} {s : State} {m : Memory} (h : StoredBy i s m) {base : Nat} {bytes : List Byte}
    (hnamed : ∀ k < bytes.length, ∀ v, storesTo i s v (base + k)) : (m.writeBytes base bytes).Yields (StoredBy i s) := by
  intro m' hwrite
  refine ⟨fun hwf => Memory.wf_writeBytes (h.wf hwf) hwrite, fun v a ha => ?_⟩
  have hroom : m.writeBytes base bytes = .ok (m.store base bytes) := by
    by_cases hroom : base + bytes.length ≤ Config.wramSize
    · exact Memory.writeBytes_eq hroom
    · rw [Memory.writeBytes, if_neg hroom] at hwrite
      cases hwrite
  have houtside : a < base ∨ base + bytes.length ≤ a := by
    by_contra hinside
    have hname := hnamed (a - base) (by omega) v
    rw [show base + (a - base) = a by omega] at hname
    exact ha hname
  obtain rfl := Except.ok.inj (hroom.symm.trans hwrite)
  rw [Memory.lookup_store_outside houtside, h.other v a ha]

/-! ### The effect of a command -/

/-- What a command that completes can do to the state, RESULT and the response apart. A command that only answers is `nothing`;
of what a constructor does not name, its command leaves all as it is. -/
inductive Effect : Instr → State → State → Prop
  | nothing (i : Instr) (s : State) : Effect i s s
  | memory {i : Instr} {s : State} {bb : List Bool} {m : Memory} (hbb : FitsBuffer s.bb → FitsBuffer bb)
      (hm : StoredBy i s m) : Effect i s { s with bb := bb, wram := m }
  | length {s : State} (len : BitVec 10) : Effect (.lenSet len) s { s with txtLen := len }
  | version {i : Instr} {s : State} (v : BitVec 4) (hi : i = .deSelect ∨ i = .verSet v) : Effect i s (s.setVersion v)
  | func {s : State} (hv : s.version ≠ 0) :
      Effect .mbFunc s { s with mat := functionPatterns s.ver s.mat, mstage := .func }
  | place {s : State} (seq : List Byte) (hm : s.mstage = .func) :
      Effect .mbPlace s { s with mat := (placeBits (zigzag s.side) (codewordBits seq) s.mat 0).1, mstage := .placed }
  | penalty {s : State} (m : BitVec 3) (pen : Vector Word 8) : Effect (.mbPenalty m) s (s.withPenalties m pen)
  | select {s : State} (pen : Vector Word 8) (m : BitVec 3) (hm : s.mstage = .placed ∨ s.mstage = .selected) :
      Effect .mbSelect s { s.withPenalties 7 pen with mask := m, mstage := .selected }
  | final {s : State} (hm : s.mstage = .selected) :
      Effect .mbFinal s { s with mat := finalize s.ver s.mask s.mat, mstage := .final }
  | clear (s : State) : Effect .errClear s s.clearErr

/-- The rule completes with no more than the command's effect. -/
def HasEffect (i : Instr) (s : State) (x : Exec (State × Word)) : Prop := x.Yields fun p => Effect i s p.1

section Rules
variable (s : State)

theorem deSelectBody_hasEffect : HasEffect .deSelect s (deSelectBody s) := by
  simp only [HasEffect, deSelectBody, Exec.yields_bind, Exec.yields_pure]
  exact Exec.yields_of_forall fun _ => .version _ (.inl rfl)

theorem deEncodeBody_hasEffect : HasEffect .deEncode s (deEncodeBody s) := by
  simp only [HasEffect, deEncodeBody, Exec.yields_ite, Exec.yields_raise, Exec.yields_bind, Exec.yields_pure]
  refine ⟨fun _ => trivial, fun _ => ⟨fun _ => trivial, fun _ => Exec.yields_of_forall fun text => ?_⟩⟩
  refine (formatStream_yields_fits _ _).imp fun bb hbb => ?_
  refine ((StoredBy.refl .deEncode s).writeBytes fun k hk _ => ?_).imp fun m hm => .memory (fun _ => hbb) hm
  rw [length_bytesOfBits] at hk
  exact (Nat.zero_add k).symm ▸ hk

/-- The data codewords are as many as the version has (R206). -/
theorem dataRegion_yields_length : s.dataRegion.Yields fun data => data.length = Rom.dataCount s.ver :=
  fun _ hread => (Memory.readBytes_spec hread).1

theorem cwBuildBody_hasEffect : HasEffect .cwBuild s (cwBuildBody s) := by
  simp only [HasEffect, cwBuildBody, Exec.yields_ite, Exec.yields_raise, Exec.yields_bind, Exec.yields_pure]
  refine ⟨fun _ => trivial, fun _ => (dataRegion_yields_length s).imp fun data hlen => ?_⟩
  refine ((StoredBy.refl .cwBuild s).writeBytes fun k hk _ => ?ec).imp fun m hm => ?_
  case ec =>
    rw [length_ecBlocks_flatten] at hk
    exact .inl ⟨Nat.le_add_right _ _, Nat.add_lt_add_left hk _⟩
  refine (hm.writeBytes fun k hk _ => ?seq).imp fun m' hm' => .memory id hm'
  case seq =>
    rw [length_codewordSequence hlen] at hk
    exact .inr ⟨Nat.le_add_right _ _, Nat.add_lt_add_left hk _⟩

theorem mbFuncBody_hasEffect : HasEffect .mbFunc s (mbFuncBody s) := by
  simp only [HasEffect, mbFuncBody, Exec.yields_ite, Exec.yields_raise, Exec.yields_ok]
  exact ⟨fun _ => trivial, .func⟩

theorem mbPlaceBody_hasEffect : HasEffect .mbPlace s (mbPlaceBody s) := by
  simp only [HasEffect, mbPlaceBody, Exec.yields_ite, Exec.yields_raise, Exec.yields_bind, Exec.yields_pure]
  exact ⟨fun _ => trivial, fun hm => Exec.yields_of_forall fun seq => .place seq (not_not.1 hm)⟩

theorem mbSelectBody_hasEffect : HasEffect .mbSelect s (mbSelectBody s) := by
  obtain ⟨pen, hpen⟩ := s.scoreAll_eq_withPenalties
  simp only [HasEffect, mbSelectBody, Exec.yields_ite, Exec.yields_raise, Exec.yields_ok, hpen]
  exact ⟨fun _ => trivial, fun hm => .select pen _ (or_iff_not_and_not.2 hm)⟩

theorem mbFinalBody_hasEffect : HasEffect .mbFinal s (mbFinalBody s) := by
  simp only [HasEffect, mbFinalBody, Exec.yields_ite, Exec.yields_raise, Exec.yields_ok]
  exact ⟨fun _ => trivial, fun hm => .final (not_not.1 hm)⟩

theorem appendBody_hasEffect (i : Instr) (value n : Nat) : HasEffect i s (appendBody value n s) := by
  simp only [HasEffect, appendBody, Exec.yields_bind, Exec.yields_pure]
  exact (appendBits_yields_fits _ _ _).imp fun bb hbb => .memory (fun _ => hbb) (StoredBy.refl i s)

end Rules

/-! ### The outcomes of a command -/

/-- What a command other than ENCODE can answer as a next state: the gate's refusal, its effect with a RESULT, or an error taken
on the state before (R14, R333 to R335). -/
def Outcome (i : Instr) (s t : State) : Prop :=
  (s.err ≠ .ok ∧ t = s.refusePending) ∨ (∃ s' r, Effect i s s' ∧ t = s'.respond r .ok) ∨ ∃ e, e ≠ .errPending ∧ t = s.fail e

section Outcomes
variable {i : Instr} {s t : State}

/-- An error that a command takes is ErrPending only as the gate's refusal. -/
theorem outcome_of_fail (henc : i ≠ .encode) {e : ErrCode} (h : exec i s = .next (s.fail e)) : Outcome i s (s.fail e) := by
  by_cases he : e = .ok
  · subst he
    exact .inr (.inr ⟨.ok, nofun, rfl⟩)
  · rcases exec_error rfl he henc h with ⟨hs, -, ht⟩ | ⟨hne, -⟩
    · exact .inl ⟨hs, ht⟩
    · exact .inr (.inr ⟨e, hne, rfl⟩)

theorem outcome_of_perform {body : Body} (henc : i ≠ .encode) (hexec : exec i s = perform body s) (h : exec i s = .next t)
    (hb : HasEffect i s (body s)) : Outcome i s t := by
  rcases perform_next (hexec.symm.trans h) with ⟨s', r, hok, rfl⟩ | ⟨e, -, rfl⟩
  · exact .inr (.inl ⟨s', r, hb _ hok, rfl⟩)
  · exact outcome_of_fail henc h

theorem outcome_of_gated {body : Body} (henc : i ≠ .encode) (hexec : exec i s = gated body s) (h : exec i s = .next t)
    (hb : HasEffect i s (body s)) : Outcome i s t := by
  rcases gated_next (hexec.symm.trans h) with hpend | ⟨-, s', r, hok, rfl⟩ | ⟨-, e, -, rfl⟩
  · exact .inl hpend
  · exact .inr (.inl ⟨s', r, hb _ hok, rfl⟩)
  · exact outcome_of_fail henc h

/-- Everything a command other than ENCODE can do when it answers a next state. -/
theorem exec_outcome (henc : i ≠ .encode) (h : exec i s = .next t) : Outcome i s t := by
  cases i with
  | encode => exact absurd rfl henc
  | nop => exact outcome_of_perform (body := fun s => .ok (s, 0)) henc rfl h ((Exec.yields_ok _).2 (.nothing _ s))
  | errClear =>
    exact outcome_of_perform (body := fun s => .ok (s.clearErr, zext32 s.err.code)) henc rfl h
      ((Exec.yields_ok _).2 (.clear s))
  | regRead sel =>
    have hexec : exec (.regRead sel) s = execRegRead sel s := rfl
    rw [execRegRead] at hexec
    refine outcome_of_perform henc hexec h ?_
    split <;> simp [HasEffect, Effect.nothing]
  | bbClear =>
    refine outcome_of_gated henc rfl h ?_
    exact (Exec.yields_ok _).2 (.memory (fun _ => Nat.zero_le _) (StoredBy.refl _ s))
  | bbAppend | bbAppendByte => exact outcome_of_gated henc rfl h (appendBody_hasEffect s _ _ _)
  | bbGetbit | bbGetbyte =>
    refine outcome_of_gated henc rfl h ?_
    split <;> simp [HasEffect, Effect.nothing]
  | bbLength | gfExp | gfLog | gfMul | gfDiv | mbCell | mbIsdark | wrRead =>
    exact outcome_of_gated henc rfl h (by simp [HasEffect, Effect.nothing])
  | lenSet len => exact outcome_of_gated henc rfl h ((Exec.yields_ok _).2 (.length len))
  | verSet ver => exact outcome_of_gated henc rfl h ((Exec.yields_ok _).2 (.version ver (.inr rfl)))
  | deSelect => exact outcome_of_gated henc rfl h (deSelectBody_hasEffect s)
  | deEncode => exact outcome_of_gated henc rfl h (deEncodeBody_hasEffect s)
  | cwBuild => exact outcome_of_gated henc rfl h (cwBuildBody_hasEffect s)
  | mbFunc => exact outcome_of_gated henc rfl h (mbFuncBody_hasEffect s)
  | mbPlace => exact outcome_of_gated henc rfl h (mbPlaceBody_hasEffect s)
  | mbSelect => exact outcome_of_gated henc rfl h (mbSelectBody_hasEffect s)
  | mbFinal => exact outcome_of_gated henc rfl h (mbFinalBody_hasEffect s)
  | mbPenalty m =>
    refine outcome_of_gated henc rfl h ?_
    simp only [HasEffect, Exec.yields_ite, Exec.yields_raise, Exec.yields_ok]
    exact ⟨fun _ => trivial, fun _ => .penalty m _⟩
  | wrWrite addr byte =>
    refine outcome_of_gated henc rfl h ?_
    simp only [HasEffect, Exec.yields_bind, Exec.yields_pure]
    refine ((StoredBy.refl _ s).writeBytes fun k hk _ => ?_).imp fun m hm => .memory id hm
    obtain rfl : k = 0 := by simpa using hk
    rfl
  | rsGen n dst =>
    refine outcome_of_gated henc rfl h ?_
    simp only [HasEffect, Exec.yields_ite, Exec.yields_raise, Exec.yields_bind, Exec.yields_pure]
    refine ⟨fun _ => trivial, fun _ => ⟨fun _ => trivial, fun _ => ?_⟩⟩
    refine ((StoredBy.refl _ s).writeBytes fun k hk _ => ?_).imp fun m hm => .memory id hm
    rw [length_rsGenPoly] at hk
    exact ⟨Nat.le_add_right _ _, Nat.add_le_add_left (Nat.le_of_lt_succ hk) _⟩
  | rsEncode n src len dst =>
    refine outcome_of_gated henc rfl h ?_
    simp only [HasEffect, Exec.yields_ite, Exec.yields_raise, Exec.yields_bind, Exec.yields_pure]
    refine ⟨fun _ => trivial, fun _ => ⟨fun _ => trivial, fun _ => ⟨fun _ => trivial, fun _ =>
      Exec.yields_of_forall fun d => ?_⟩⟩⟩
    refine ((StoredBy.refl _ s).writeBytes fun k hk _ => ?_).imp fun m hm => .memory id hm
    rw [length_rsRemainder] at hk
    exact ⟨Nat.le_add_right _ _, Nat.add_lt_add_left hk _⟩

/-- The seven rules of ENCODE, one effect after the other (R313). -/
theorem encodeSteps_effects (h : encodeSteps s = .ok t) : ∃ s1 s2 s3 s4 s5 s6,
    Effect .deSelect s s1 ∧ Effect .deEncode s1 s2 ∧ Effect .cwBuild s2 s3 ∧ Effect .mbFunc s3 s4 ∧ Effect .mbPlace s4 s5 ∧
    Effect .mbSelect s5 s6 ∧ Effect .mbFinal s6 t := by
  obtain ⟨p1, h1, h⟩ := Exec.bind_ok h
  obtain ⟨p2, h2, h⟩ := Exec.bind_ok h
  obtain ⟨p3, h3, h⟩ := Exec.bind_ok h
  obtain ⟨p4, h4, h⟩ := Exec.bind_ok h
  obtain ⟨p5, h5, h⟩ := Exec.bind_ok h
  obtain ⟨p6, h6, h⟩ := Exec.bind_ok h
  obtain ⟨p7, h7, h⟩ := Exec.bind_ok h
  obtain rfl := Except.ok.inj h
  exact ⟨p1.1, p2.1, p3.1, p4.1, p5.1, p6.1, deSelectBody_hasEffect s p1 h1, deEncodeBody_hasEffect p1.1 p2 h2,
    cwBuildBody_hasEffect p2.1 p3 h3, mbFuncBody_hasEffect p3.1 p4 h4, mbPlaceBody_hasEffect p4.1 p5 h5,
    mbSelectBody_hasEffect p5.1 p6 h6, mbFinalBody_hasEffect p6.1 p7 h7⟩

end Outcomes

/-! ### The step -/

/-- Everything a step can do when it answers a next state: nothing, a reset, or one command (R84, R300, R361). -/
theorem step_next {s t : State} (h : step s = .next t) :
    t = s ∨ ∃ rest, t = ({ s with inputs := rest } : State).afterReset ∨ ∃ c, runCommand c { s with inputs := rest } = .next t := by
  change stepPort s = _ at h
  unfold stepPort at h
  split at h
  · cases h
    exact .inl rfl
  · rename_i i rest _
    cases i with
    | command c => exact .inr ⟨rest, .inr ⟨c, h⟩⟩
    | reset =>
      cases h
      exact .inr ⟨rest, .inl rfl⟩

/-- A legal word is its command (R332). -/
theorem runCommand_of_decode {c : Command} {i : Instr} (h : decode c = .ok i) (s : State) : runCommand c s = exec i s := by
  rw [runCommand, h]

/-- A step performs the command the host presents next. -/
theorem step_command {s : State} {c : Command} {rest : List HostInput} {i : Instr} (hinputs : s.inputs = .command c :: rest)
    (hdecode : decode c = .ok i) : step s = exec i { s with inputs := rest } := by
  rw [step, stepPort, hinputs]
  exact runCommand_of_decode hdecode _

/-- A table word that decodes is a command that does. -/
theorem decode_of_decodeTableWord {nbits w : Nat} {i : Instr} (h : decodeTableWord nbits w = some i) :
    decode (commandOfTableWord nbits w) = .ok i := by
  unfold decodeTableWord at h
  split at h
  · rename_i j hj
    rw [hj, Option.some.inj h]
  · cases h

/-- Settles O5: a step takes the next input, and `withFetchWord` puts its command there. -/
theorem stepRunsTheDecodedCommand : Obligations.StepRunsTheDecodedCommand :=
  ⟨fun _ _ _ _ hinputs hdecode => step_command hinputs hdecode, fun s nbits w _ h =>
    step_command (s := s.withFetchWord nbits w) rfl (decode_of_decodeTableWord h)⟩

/-! ### Errors and responses -/

/-- No rule but ERR_CLEAR's writes STATUS.ERR. -/
theorem Effect.err_eq {i : Instr} {s t : State} (h : Effect i s t) (hclear : i ≠ .errClear) : t.err = s.err := by
  cases h with
  | clear => exact absurd rfl hclear
  | _ => rfl

/-- Settles O9: while an error is pending the gate refuses, and of what passes it only ERR_CLEAR writes STATUS.ERR. -/
theorem onlyErrClearEndsAnError : Obligations.OnlyErrClearEndsAnError := by
  intro c s t h hs
  cases hd : decode c with
  | error e =>
    rw [runCommand_of_decode_error hd] at h
    cases h
    exact ⟨fun _ => if_neg hs, nofun⟩
  | ok i =>
    rw [runCommand_of_decode hd] at h
    refine ⟨fun hclear => ?_, fun hclear => ?_⟩
    · by_cases henc : i = .encode
      · rw [henc, exec_encode_of_pending hs] at h
        cases h
        rfl
      · rcases exec_outcome henc h with ⟨-, rfl⟩ | ⟨s', r, heff, rfl⟩ | ⟨e, -, rfl⟩
        · rfl
        · exact heff.err_eq fun hi => hclear (congrArg Except.ok hi)
        · exact if_neg hs
    · obtain rfl := Except.ok.inj hclear
      rw [exec_errClear] at h
      cases h
      rfl

/-- The state holds RESULT and a response with it, 0 where the response carries an error (R33, R92, R334). -/
def State.Responded (t : State) : Prop := ∃ e, t.rsp = some ⟨t.result, e⟩ ∧ (e ≠ .ok → t.result = 0)

theorem State.responded_ok (s : State) (r : Word) : (s.respond r .ok).Responded := ⟨.ok, rfl, fun h => absurd rfl h⟩

theorem exec_responded {i : Instr} {s t : State} (h : exec i s = .next t) : t.Responded := by
  by_cases henc : i = .encode
  · subst henc
    rcases exec_encode_next h with ⟨-, rfl⟩ | ⟨-, s', -, rfl⟩ | ⟨-, e, -, rfl⟩
    · exact ⟨_, rfl, fun _ => rfl⟩
    · exact s'.responded_ok _
    · exact ⟨_, rfl, fun _ => rfl⟩
  · rcases exec_outcome henc h with ⟨-, rfl⟩ | ⟨s', r, -, rfl⟩ | ⟨e, -, rfl⟩
    · exact ⟨_, rfl, fun _ => rfl⟩
    · exact s'.responded_ok r
    · exact ⟨_, rfl, fun _ => rfl⟩

theorem gated_ne_refused {body : Body} {s : State} {q : Refusal} : gated body s ≠ .refused q := by
  by_cases hs : s.err = .ok
  · rw [gated_open hs]
    exact perform_ne_refused
  · rw [gated_pending hs]
    nofun

/-- Every command has a meaning: none is refused. -/
theorem exec_ne_refused (i : Instr) (s : State) (q : Refusal) : exec i s ≠ .refused q := by
  by_cases henc : i = .encode
  · subst henc
    change execEncode s ≠ _
    unfold execEncode
    split
    · split <;> nofun
    · nofun
  by_cases hfree : i = .nop ∨ i = .errClear ∨ ∃ sel, i = .regRead sel
  · obtain ⟨body, hexec, -⟩ := exec_eq_perform hfree
    rw [hexec]
    exact perform_ne_refused
  · simp only [not_or, not_exists] at hfree
    obtain ⟨hnop, hclear, hread⟩ := hfree
    obtain ⟨body, hexec, -⟩ := exec_eq_gated hnop hclear hread henc
    rw [hexec]
    exact gated_ne_refused

/-- Settles O10: an illegal word by its one answer, a legal one by the outcomes of its command. -/
theorem everyCommandWritesItsResponse : Obligations.EveryCommandWritesItsResponse := by
  intro c s
  cases hd : decode c with
  | error e =>
    rw [runCommand_of_decode_error hd]
    refine ⟨nofun, fun t h => ?_⟩
    cases h
    exact ⟨_, rfl, fun _ => rfl⟩
  | ok i =>
    rw [runCommand_of_decode hd]
    exact ⟨exec_ne_refused i s, fun t h => exec_responded h⟩

/-! ### WRAM outside a command's write ranges -/

section Frame
variable {i : Instr} {s t : State} {v a : Nat}

theorem Effect.lookup_eq (h : Effect i s t) (ha : ¬ storesTo i s v a) : t.wram.lookup a = s.wram.lookup a := by
  cases h with
  | memory hbb hm => exact hm.other v a ha
  | _ => rfl

/-- VERSION is written by VER_SET and DE_SELECT only (R36). -/
theorem Effect.version_eq (h : Effect i s t) (hselect : i ≠ .deSelect) (hset : ∀ v, i ≠ .verSet v) :
    t.version = s.version := by
  cases h with
  | version v hi => exact absurd hi (not_or.2 ⟨hselect, hset v⟩)
  | _ => rfl

/-- ENCODE stores to the regions of the version it selects (R313). -/
theorem encodeSteps_lookup_eq (h : encodeSteps s = .ok t) (ha : ¬ storesTo .encode s t.version.toNat a) :
    t.wram.lookup a = s.wram.lookup a := by
  obtain ⟨s1, s2, s3, s4, s5, s6, h1, h2, h3, h4, h5, h6, h7⟩ := encodeSteps_effects h
  have v3 : t.version = s3.version := by
    rw [h7.version_eq nofun nofun, h6.version_eq nofun nofun, h5.version_eq nofun nofun, h4.version_eq nofun nofun]
  have v2 : t.version = s2.version := by rw [v3, h3.version_eq nofun nofun]
  have v1 : t.version = s1.version := by rw [v2, h2.version_eq nofun nofun]
  obtain ⟨hdata, hcodewords⟩ := not_or.1 ha
  have hdeEncode : ¬ storesTo .deEncode s1 0 a := by
    rw [v1] at hdata
    exact hdata
  have hcwBuild : ¬ storesTo .cwBuild s2 0 a := by
    rw [v2] at hcodewords
    exact hcodewords
  have h47 : t.wram.lookup a = s3.wram.lookup a := by
    rw [h7.lookup_eq (v := 0) id, h6.lookup_eq (v := 0) id, h5.lookup_eq (v := 0) id, h4.lookup_eq (v := 0) id]
  rw [h47, h3.lookup_eq hcwBuild, h2.lookup_eq hdeEncode, h1.lookup_eq (v := 0) id]

end Frame

/-- Settles O21: each rule by its effect, ENCODE by those of its seven, and an error or a refusal stores nothing. -/
theorem otherWramBytesAreUnchanged : Obligations.OtherWramBytesAreUnchanged := by
  intro i s t a h ha
  by_cases henc : i = .encode
  · subst henc
    rcases exec_encode_next h with ⟨-, rfl⟩ | ⟨-, s', hsteps, rfl⟩ | ⟨-, e, -, rfl⟩
    · rfl
    · exact (encodeSteps_lookup_eq hsteps ha :)
    · rfl
  · rcases exec_outcome henc h with ⟨-, rfl⟩ | ⟨s', r, heff, rfl⟩ | ⟨e, -, rfl⟩
    · rfl
    · exact heff.lookup_eq ha
    · rfl

end Sys2Proof.Machine
end

section
/-! PROOFS. The invariants of every reachable state: they hold right after reset, and every step keeps them (R52). -/

open Sys2Proof.Claims

namespace Sys2Proof.Machine

/-! ### What every step keeps -/

/-- The property depends neither on RESULT, nor on the response, nor on the host's inputs, it holds after reset and whenever
MSTAGE goes to 0, STATUS.ERR may take any code but ErrPending, and every rule keeps it. -/
structure Kept (P : State → Prop) : Prop where
  outcome : ∀ {s : State} (r : Word) (q : Option Response) (e : ErrCode), (e = .errPending → s.err = .errPending) → P s →
    P (s.withOutcome r q e)
  empty : ∀ {s : State}, P s → P { s with mstage := .empty }
  inputs : ∀ {s : State} (rest : List HostInput), P s → P { s with inputs := rest }
  reset : P State.reset
  effect : ∀ {i : Instr} {s t : State}, Effect i s t → P s → P t

section Kept
variable {P : State → Prop} (hP : Kept P) {s t : State}
include hP

theorem Kept.respond (r : Word) (e : ErrCode) (h : P s) : P (s.respond r e) := hP.outcome r _ s.err id h

theorem Kept.fail {e : ErrCode} (he : e ≠ .errPending) (h : P s) : P (s.fail e) := by
  have hcode : (s.fail e).err = .errPending → s.err = .errPending := by
    rw [State.fail_err]
    split
    · exact fun hpend => absurd hpend he
    · exact id
  exact hP.outcome (s := s) 0 (some ⟨0, e⟩) (s.fail e).err hcode h

theorem Kept.encodeSteps (hsteps : encodeSteps s = .ok t) (h : P s) : P t := by
  obtain ⟨s1, s2, s3, s4, s5, s6, h1, h2, h3, h4, h5, h6, h7⟩ := encodeSteps_effects hsteps
  exact hP.effect h7 (hP.effect h6 (hP.effect h5 (hP.effect h4 (hP.effect h3 (hP.effect h2 (hP.effect h1 h))))))

theorem Kept.exec {i : Instr} (hexec : exec i s = .next t) (h : P s) : P t := by
  by_cases henc : i = .encode
  · subst henc
    rcases exec_encode_next hexec with ⟨-, rfl⟩ | ⟨-, s', hsteps, rfl⟩ | ⟨-, e, hraise, rfl⟩
    · exact hP.respond _ _ h
    · exact hP.respond _ _ (hP.encodeSteps hsteps h)
    · have he := encodeSteps_neverPending s
      rw [hraise, Exec.neverPending_raise] at he
      exact hP.empty (hP.fail he h)
  · rcases exec_outcome henc hexec with ⟨-, rfl⟩ | ⟨s', r, heff, rfl⟩ | ⟨e, he, rfl⟩
    · exact hP.respond _ _ h
    · exact hP.respond _ _ (hP.effect heff h)
    · exact hP.fail he h

/-- Every step keeps such a property (R52). -/
theorem Kept.step (hstep : step s = .next t) (h : P s) : P t := by
  rcases step_next hstep with rfl | ⟨rest, rfl | ⟨c, hrun⟩⟩
  · exact h
  · exact hP.inputs _ hP.reset
  · have hrest := hP.inputs rest h
    cases hd : decode c with
    | error e =>
      rw [runCommand_of_decode_error hd] at hrun
      cases hrun
      exact hP.fail nofun hrest
    | ok i =>
      rw [runCommand_of_decode hd] at hrun
      exact hP.exec hrun hrest

end Kept

/-! ### The memory form, the array's shape, and R52 (a) to (c) -/

/-- Placement keeps the array's shape. -/
theorem Grid.shaped_placeBits {g : Grid} (h : g.shaped) (cells : List (Nat × Nat)) (bits : List Bool) (k : Nat) :
    (placeBits cells bits g k).1.shaped := by
  induction cells generalizing bits g k with
  | nil => exact h
  | cons p cells ih =>
    obtain ⟨r, c⟩ := p
    cases hres : (g.cell r c).res with
    | true =>
      rw [placeBits_cons_reserved hres]
      exact ih h _ _
    | false =>
      rw [placeBits_cons_free hres]
      exact ih (Grid.shaped_putVal h _ _ _) _ _

/-- Finalize keeps the array's shape. -/
theorem shaped_finalize {g : Grid} (h : g.shaped) (v : Nat) (m : BitVec 3) : (finalize v m g).shaped := by
  have hformatted : (maskedAndFormatted v m g).shaped := shaped_maskedAndFormatted h m
  rw [finalize_eq]
  split
  · exact Grid.shaped_writeWord hformatted _
  · exact hformatted

theorem regular_reset : State.reset.Regular where
  wram_wf := ⟨.nil, nofun⟩
  mat_shaped := Grid.shaped_reset
  bb_le := Nat.zero_le _
  version_of_stage := fun h => absurd rfl h
  err_held := nofun

/-- Every rule keeps the regular states regular. -/
theorem Effect.regular {i : Instr} {s t : State} (h : Effect i s t) (hs : s.Regular) : t.Regular := by
  have hstage : s.mstage ≠ .empty → s.version ≠ 0 := hs.version_of_stage
  cases h with
  | nothing => exact hs
  | memory hbb hm => exact { hs with wram_wf := hm.wf hs.wram_wf, bb_le := hbb hs.bb_le }
  | length len => exact { hs with }
  | version v => exact { hs with version_of_stage := fun h => absurd rfl h }
  | func hv => exact { hs with mat_shaped := shaped_functionPatterns _ hs.mat_shaped, version_of_stage := fun _ => hv }
  | place seq hm =>
    exact { hs with
      mat_shaped := Grid.shaped_placeBits hs.mat_shaped _ _ _, version_of_stage := fun _ => hstage (hm ▸ nofun) }
  | penalty m pen => exact { hs with }
  | select pen m hm =>
    exact { hs with version_of_stage := fun _ => hstage (by rcases hm with hm | hm <;> rw [hm] <;> nofun) }
  | final hm =>
    exact { hs with mat_shaped := shaped_finalize hs.mat_shaped _ _, version_of_stage := fun _ => hstage (hm ▸ nofun) }
  | clear => exact { hs with err_held := nofun }

theorem kept_regular : Kept State.Regular where
  outcome _ _ _ he hs := { hs with err_held := fun hpend => hs.err_held (he hpend) }
  empty hs := { hs with version_of_stage := fun h => absurd rfl h }
  inputs _ hs := { hs with }
  reset := regular_reset
  effect := Effect.regular

/-- Settles O56: regularity is kept. -/
theorem stepKeepsTheStateRegular : Obligations.StepKeepsTheStateRegular := fun _ _ hs hstep => kept_regular.step hstep hs

/-! ### The reserved set -/

/-- A version is set once a matrix is built (R52 (b)). -/
theorem State.Regular.ver_range {s : State} (hs : s.Regular) (hstage : s.mstage ≠ .empty) : 1 ≤ s.ver ∧ s.ver ≤ 15 :=
  Machine.ver_range (hs.version_of_stage hstage)

/-- Placement changes no reserved flag (R240). -/
theorem res_placeBits {g : Grid} {cells : List (Nat × Nat)} (hg : g.shaped)
    (hcells : ∀ p ∈ cells, p.1 < Config.matDim ∧ p.2 < Config.matDim) (bits : List Bool) (k r' c' : Nat) :
    ((placeBits cells bits g k).1.cell r' c').res = (g.cell r' c').res := by
  induction cells generalizing bits g k with
  | nil => rfl
  | cons p cells ih =>
    obtain ⟨r, c⟩ := p
    rw [List.forall_mem_cons] at hcells
    obtain ⟨⟨hr, hc⟩, hcells⟩ := hcells
    cases hres : (g.cell r c).res with
    | true => rw [placeBits_cons_reserved hres, ih hg hcells]
    | false => rw [placeBits_cons_free hres, ih (Grid.shaped_putVal hg _ _ _) hcells, Grid.res_putVal hg hr hc]

/-- Every rule keeps the reserved flags those of the version (R52 (e)). -/
theorem Effect.reservedOk {i : Instr} {s t : State} (h : Effect i s t) (hs : s.Regular) (hres : s.ReservedOk) :
    t.ReservedOk := by
  have hshaped := hs.mat_shaped
  cases h with
  | nothing | memory | length | penalty | clear => exact hres
  | version => exact fun h => absurd rfl h
  | func hv =>
    obtain ⟨-, h15⟩ := ver_range hv
    exact fun _ r c hr hc => by rw [cell_functionPatterns h15 hshaped hr hc]; rfl
  | place seq hm =>
    exact fun _ r c hr hc => (res_placeBits hshaped (zigzag_in_array s) _ _ r c).trans (hres (hm ▸ nofun) r c hr hc)
  | select pen m hm => exact fun _ => hres (by rcases hm with hm | hm <;> rw [hm] <;> nofun)
  | final hm =>
    have hstage : s.mstage ≠ .empty := hm ▸ nofun
    obtain ⟨-, h15⟩ := hs.ver_range hstage
    exact fun _ r c hr hc => (res_finalize hshaped _ h15 hr hc).trans (hres hstage r c hr hc)

theorem kept_reserved : Kept fun s => s.Regular ∧ s.ReservedOk where
  outcome r q e he hs := ⟨kept_regular.outcome r q e he hs.1, hs.2⟩
  empty hs := ⟨kept_regular.empty hs.1, fun h => absurd rfl h⟩
  inputs rest hs := ⟨kept_regular.inputs rest hs.1, hs.2⟩
  reset := ⟨regular_reset, fun h => absurd rfl h⟩
  effect h hs := ⟨h.regular hs.1, h.reservedOk hs.1 hs.2⟩

/-- Settles O57: the reserved set is kept, in the states that are regular. -/
theorem stepKeepsTheReservedSet : Obligations.StepKeepsTheReservedSet := fun _ _ hs hres hstep =>
  (kept_reserved.step hstep ⟨hs, hres⟩).2

/-! ### The colours -/

/-- A placed cell has a colour. -/
theorem val_placeBits_of_free {g : Grid} {cells : List (Nat × Nat)} (hg : g.shaped)
    (hcells : ∀ p ∈ cells, p.1 < Config.matDim ∧ p.2 < Config.matDim) (hnodup : cells.Nodup) (bits : List Bool) (k : Nat)
    {r c : Nat} (hp : (r, c) ∈ freeCells g cells) : ((placeBits cells bits g k).1.cell r c).val ≠ .unset := by
  obtain ⟨j, hj⟩ := List.getElem?_of_mem hp
  rw [placeBits_free hg hcells hnodup hj]
  exact bitColour_ne_unset _

/-- The cells of column 6 are reserved: the timing pattern runs down it (R225). -/
theorem reservedSet_column (v r : Nat) : reservedSet v r 6 = true := by
  have htiming : (timingPattern r 6).isSome = true := isSome_timingPattern.2 (.inr rfl)
  simp [reservedSet, htiming]

/-- The cells of the two words are reserved (R239). -/
theorem reservedSet_of_lateCells {v r c : Nat} (h : lateCells v r c = true) : reservedSet v r c = true := by
  rw [reservedSet_eq, h, Bool.or_true]

/-- A cell under a mask keeps a colour (R253). -/
theorem val_maskCell_ne_unset (m : BitVec 3) (r c : Nat) {x : Cell} (h : x.val ≠ .unset) : (maskCell m r c x).val ≠ .unset := by
  rw [val_maskCell]
  split
  · split <;> nofun
  · exact h

section Square
variable {s : State} {r c : Nat} (hr : r < s.side) (hc : c < s.side)
include hr hc

/-- MB_FUNC leaves the cells of the two words UNSET and colours every other reserved cell (R222, R236, R237). -/
theorem colours_func (hs : s.Regular) (hv : s.version ≠ 0) :
    (lateCells s.ver r c = true → ((functionPatterns s.ver s.mat).cell r c).val = .unset) ∧
    (reservedSet s.ver r c = true → lateCells s.ver r c = false → ((functionPatterns s.ver s.mat).cell r c).val ≠ .unset) := by
  obtain ⟨h1, h15⟩ := ver_range hv
  obtain ⟨hreserved, hlate, -, hword, -, hcoloured⟩ := reservedSetIsDrawn s.ver s.mat r c h1 h15 hs.mat_shaped hr hc
  refine ⟨fun h => by rw [hword (hlate.1 h)], fun h hnot => hcoloured (hreserved.1 h) fun hw => ?_⟩
  rw [hlate.2 hw] at hnot
  cases hnot

/-- MB_PLACE colours every cell but those of the two words (R240, R248). -/
theorem colours_place (hs : s.Good) (hm : s.mstage = .func) (bits : List Bool) :
    (lateCells s.ver r c = true → ((placeBits (zigzag s.side) bits s.mat 0).1.cell r c).val = .unset) ∧
    (lateCells s.ver r c = false → ((placeBits (zigzag s.side) bits s.mat 0).1.cell r c).val ≠ .unset) := by
  obtain ⟨hregular, hreserved, hcolours⟩ := hs
  obtain ⟨hunset, -, hcoloured, -⟩ := hcolours r c hr hc
  have hres := hreserved (hm ▸ nofun) r c hr hc
  have hstays (h : reservedSet s.ver r c = true) :
      (placeBits (zigzag s.side) bits s.mat 0).1.cell r c = s.mat.cell r c := by
    refine placeBits_other hregular.mat_shaped (zigzag_in_array s) fun hp => ?_
    have hfree := (List.mem_filter.1 hp).2
    rw [hres, h] at hfree
    cases hfree
  refine ⟨fun hlate => ?_, fun hlate => ?_⟩
  · rw [hstays (reservedSet_of_lateCells hlate)]
    exact hunset (.inl hm) hlate
  · cases hset : reservedSet s.ver r c with
    | true =>
      rw [hstays hset]
      exact hcoloured hm hset hlate
    | false =>
      have hcol : c ≠ 6 := by
        rintro rfl
        rw [reservedSet_column] at hset
        cases hset
      refine val_placeBits_of_free hregular.mat_shaped (zigzag_in_array s) (nodup_zigzag s.ver) bits 0 ?_
      exact List.mem_filter.2 ⟨mem_zigzag.2 ⟨hr, hc, hcol⟩, by simp [hres, hset]⟩

/-- MB_FINAL colours the cells of the two words and keeps every other cell coloured (R253, R256, R258). -/
theorem colours_final (hs : s.Good) (hm : s.mstage = .selected) (m : BitVec 3) :
    ((finalize s.ver m s.mat).cell r c).val ≠ .unset := by
  obtain ⟨hregular, -, hcolours⟩ := hs
  obtain ⟨-, hcoloured, -⟩ := hcolours r c hr hc
  have hshaped := hregular.mat_shaped
  obtain ⟨h1, h15⟩ := hregular.ver_range (hm ▸ nofun)
  cases hlate : lateCells s.ver r c with
  | true =>
    rcases wordCell_iff.1 ((lateCells_iff hr hc).1 hlate) with ⟨i, hi, hp⟩ | ⟨h7, i, hi, hp⟩
    · rw [val_finalize_format hshaped m h15 h1 hi hp]
      exact bitColour_ne_unset _
    · rw [val_finalize_version hshaped m h15 h7 hi hp]
      exact bitColour_ne_unset _
  | false =>
    rw [val_finalize_other hshaped m h15 hr hc fun hw => by rw [(lateCells_iff hr hc).2 hw] at hlate; cases hlate]
    exact val_maskCell_ne_unset m r c (hcoloured (.inr hm) hlate)

end Square

/-- With MSTAGE 0 nothing is said of the cells. -/
theorem State.coloursOk_of_empty {s : State} (h : s.mstage = .empty) : s.ColoursOk := by
  intro r c _ _
  simp [h]

/-- Every rule keeps the colours (R52 (f), (g)). -/
theorem Effect.coloursOk {i : Instr} {s t : State} (h : Effect i s t) (hs : s.Good) : t.ColoursOk := by
  have hcolours := hs.colours
  cases h with
  | nothing | memory | length | penalty | clear => exact hcolours
  | version => exact State.coloursOk_of_empty rfl
  | func hv =>
    intro r c hr hc
    obtain ⟨hunset, hcoloured⟩ := colours_func (s := s) hr hc hs.regular hv
    exact ⟨fun _ => hunset, by simp, fun _ => hcoloured, by simp⟩
  | place seq hm =>
    intro r c hr hc
    obtain ⟨hunset, hcoloured⟩ := colours_place (s := s) hr hc hs hm (codewordBits seq)
    exact ⟨fun _ => hunset, fun _ => hcoloured, by simp, by simp⟩
  | select pen m hm =>
    intro r c hr hc
    obtain ⟨hunset, hcoloured, -⟩ := hcolours r c hr hc
    exact ⟨fun _ => hunset (.inr hm), fun _ => hcoloured hm, by simp, by simp⟩
  | final hm =>
    intro r c hr hc
    exact ⟨by simp, by simp, by simp, fun _ => colours_final (s := s) hr hc hs hm s.mask⟩

/-- Settles O55: nothing is written, and MSTAGE is 0. -/
theorem resetStateIsGood : Obligations.ResetStateIsGood :=
  ⟨regular_reset, fun h => absurd rfl h, State.coloursOk_of_empty rfl⟩

theorem kept_good : Kept State.Good where
  outcome r q e he hs := ⟨kept_regular.outcome r q e he hs.regular, hs.reserved, hs.colours⟩
  empty hs := ⟨kept_regular.empty hs.regular, fun h => absurd rfl h, State.coloursOk_of_empty rfl⟩
  inputs rest hs := ⟨kept_regular.inputs rest hs.regular, hs.reserved, hs.colours⟩
  reset := resetStateIsGood
  effect h hs := ⟨h.regular hs.regular, h.reservedOk hs.regular hs.reserved, h.coloursOk hs⟩

/-- Settles O58: the whole invariant is kept. -/
theorem stepKeepsTheColours : Obligations.StepKeepsTheColours := fun _ _ hs hstep => (kept_good.step hstep hs).colours

end Sys2Proof.Machine
end

section
/-! PROOFS. The reset state, the bit buffer read back, the GF(256) tables, the codeword's roots, the mask formulas, the colour
array, and a text that is too long for ENCODE (R78, R171, R194, R270, R271, R314, R360). -/

open Sys2Proof.Claims

namespace Sys2Proof.Machine

/-! ### Reset -/

theorem readByte_reset {a : Nat} (ha : a < 4096) : State.reset.wram.readByte a = .error (.stop (.unwrittenByte a)) := by
  have hsize : a < Config.wramSize := ha
  rw [Memory.readByte, if_pos hsize]
  rfl

/-- Settles O6: the registers by evaluation, WRAM by what a read of the empty memory answers, the reset input by `step`. -/
theorem resetLeavesTheStatedValues : Obligations.ResetLeavesTheStatedValues := by
  refine ⟨by decide, by decide, fun a ha => readByte_reset ha, fun s rest hinputs => ?_⟩
  rw [step, stepPort, hinputs]
  rfl

/-! ### An appended byte read back -/

/-- The byte after the whole bytes of a buffer is the one appended there (R78). -/
theorem byteOfBits_append {bb : List Bool} {k : Nat} (hk : bb.length = 8 * k) (byte : Byte) :
    byteOfBits (bb ++ bitsOf 8 byte.toNat) k = some byte := by
  have hroom : 8 * k + 8 ≤ (bb ++ bitsOf 8 byte.toNat).length := by rw [List.length_append, length_bitsOf, hk]
  have hbits : ((bb ++ bitsOf 8 byte.toNat).drop (8 * k)).take 8 = bitsOf 8 byte.toNat := by
    rw [← hk, List.drop_left, List.take_of_length_le (length_bitsOf 8 _).le]
  have hvalue : ofMsbBits (bitsOf 8 byte.toNat) = byte.toNat := by
    rw [← msbBits_eq_bitsOf, ofMsbBits_msbBits, Nat.mod_eq_of_lt byte.isLt]
  rw [byteOfBits, if_pos hroom, hbits, hvalue, BitVec.ofNat_toNat, BitVec.setWidth_eq]

/-- Settles O15: the append fits, and its byte is the buffer's last. -/
theorem appendedByteReadsBack : Obligations.AppendedByteReadsBack := by
  intro s byte k hs haligned hroom hk
  refine ⟨_, gated_appendBody_fits hs byte.toNat (by decide) hroom, gated_eq_success hs ?_⟩
  have hbyte := byteOfBits_append (bb := s.bb) (k := k.toNat) (by omega) byte
  simp only [success, hbyte]

/-! ### The GF(256) tables -/

/-- Settles O22: the two tables, entry by entry. -/
theorem galoisTablesAreInverse : Obligations.GaloisTablesAreInverse :=
  ⟨by decide, Rom.exp_succ, by decide, Rom.exp_ne_zero_and_log_exp, Rom.log_lt_and_exp_log⟩

/-! ### Long division and the roots of a codeword -/

section Division
variable {x : Byte}

/-- Trailing zeros multiply the value by a power of `x`, so a root stays one. -/
theorem horner_append_zeros {p : List Byte} (h : horner p x = 0) (k : Nat) : horner (p ++ List.replicate k 0) x = 0 := by
  induction k with
  | zero => rwa [List.replicate_zero, List.append_nil]
  | succ k ih =>
    rw [List.replicate_succ', ← List.append_assoc, horner_append_singleton, ih]
    exact (congrArg (· ^^^ 0#8) (zero_gfmul x)).trans BitVec.xor_zero

/-- Leading zeros do not change the value. -/
theorem horner_zeros_append (p : List Byte) (k : Nat) : horner (List.replicate k 0 ++ p) x = horner p x := by
  induction k with
  | zero => rfl
  | succ k ih => rw [List.replicate_succ, List.cons_append, horner_zero_cons, ih]

/-- Adding zeros changes no coefficient. -/
theorem zipWith_xor_zeros (p : List Byte) : List.zipWith (· ^^^ ·) p (List.replicate p.length 0) = p := by
  induction p with
  | nil => rfl
  | cons a p ih =>
    rw [List.length_cons, List.replicate_succ, List.zipWith_cons_cons, ih]
    exact congrArg (· :: p) BitVec.xor_zero

/-- The inner loop of R192 adds `c` times the generator's tail, with zeros below it. -/
theorem subtractMultiple_eq (c : Byte) {gtail rest : List Byte} (h : gtail.length ≤ rest.length) :
    subtractMultiple c gtail rest =
      List.zipWith (· ^^^ ·) rest ((gtail.map fun a => gfmul a c) ++ List.replicate (rest.length - gtail.length) 0) := by
  induction gtail generalizing rest with
  | nil => exact (zipWith_xor_zeros rest).symm
  | cons g gtail ih =>
    cases rest with
    | nil => simp at h
    | cons y rest =>
      rw [subtractMultiple, ih (by simpa using h)]
      simp

/-- One round of the division takes a multiple of the generator away, so at a root of the generator the value stays (R192). -/
theorem horner_subtractMultiple {gtail rest : List Byte} (hroot : horner (1 :: gtail) x = 0)
    (hlen : gtail.length ≤ rest.length) (c : Byte) : horner (subtractMultiple c gtail rest) x = horner (c :: rest) x := by
  have hmultiple : horner ((c :: gtail.map fun a => gfmul a c) ++ List.replicate (rest.length - gtail.length) 0) x = 0 := by
    have hscaled := horner_map_gfmul (1 :: gtail) c x
    rw [hroot, List.map_cons, one_gfmul] at hscaled
    exact horner_append_zeros (hscaled.trans (zero_gfmul c)) _
  have hsum : 0 :: subtractMultiple c gtail rest = List.zipWith (· ^^^ ·) (c :: rest)
      ((c :: gtail.map fun a => gfmul a c) ++ List.replicate (rest.length - gtail.length) 0) := by
    rw [subtractMultiple_eq c hlen, List.cons_append, List.zipWith_cons_cons, BitVec.xor_self]
    rfl
  rw [← horner_zero_cons, hsum, horner_zipWith_xor (by simp [hlen]), hmultiple]
  exact BitVec.xor_zero

/-- The division keeps the value at a root of the generator (R192). -/
theorem horner_longDivide {gtail : List Byte} (hroot : horner (1 :: gtail) x = 0) {k : Nat} {rem : List Byte}
    (hlen : k + gtail.length ≤ rem.length) : horner (longDivide gtail k rem) x = horner rem x := by
  induction k generalizing rem with
  | zero => rfl
  | succ k ih =>
    cases rem with
    | nil => simp at hlen
    | cons c rest =>
      rw [List.length_cons] at hlen
      rw [longDivide]
      split
      case isTrue hc => rw [ih (by omega), hc, horner_zero_cons]
      case isFalse => rw [ih (by rw [length_subtractMultiple]; omega), horner_subtractMultiple hroot (by omega)]

/-- The remainder's value at a root of the generator is that of the block, shifted (R192). -/
theorem horner_rsRemainder {n i : Nat} (hi : i < n) (d : List Byte) :
    horner (rsRemainder d n) (Rom.exp i) = horner (d ++ List.replicate n 0) (Rom.exp i) := by
  obtain ⟨gtail, hgen⟩ := List.head?_eq_some_iff.1 (head?_rsGenPoly n)
  have hroot : horner (1 :: gtail) (Rom.exp i) = 0 := hgen ▸ horner_rsGenPoly_exp hi
  have hlen : gtail.length = n := by
    have := length_rsGenPoly n
    rw [hgen, List.length_cons] at this
    omega
  rw [rsRemainder, hgen, List.tail_cons, horner_longDivide hroot (by simp [hlen])]

/-- A block with as many codewords behind it is the shifted block plus the codewords. -/
theorem append_eq_zipWith_xor (d e : List Byte) :
    d ++ e = List.zipWith (· ^^^ ·) (d ++ List.replicate e.length 0) (List.replicate d.length 0 ++ e) := by
  have hzeros : List.zipWith (· ^^^ ·) (List.replicate e.length 0) e = e := by
    rw [List.zipWith_comm_of_comm BitVec.xor_comm, zipWith_xor_zeros]
  rw [List.zipWith_append (by simp), zipWith_xor_zeros, hzeros]

end Division

/-- Settles O29: the block with its EC codewords is the shifted block plus its remainder, and the two have one value at a root of
the generator. -/
theorem codewordVanishesAtTheRoots : Obligations.CodewordVanishesAtTheRoots := by
  intro d n i _ hi
  rw [append_eq_zipWith_xor d (rsRemainder d n), horner_zipWith_xor (by simp), horner_zeros_append, length_rsRemainder,
    ← horner_rsRemainder hi, BitVec.xor_self]
  rfl

/-! ### The mask formulas -/

/-- Settles O44: the model tests each formula for 0. -/
theorem maskFormulas : Obligations.MaskFormulas := fun _ _ =>
  ⟨beq_iff_eq, beq_iff_eq, beq_iff_eq, beq_iff_eq, beq_iff_eq, beq_iff_eq, beq_iff_eq, beq_iff_eq⟩

/-! ### The colour array -/

/-- Entry `k` of the first `n` entries of a list after a function. -/
theorem getD_map_take {α β : Type} (f : α → β) {xs : List α} {n k : Nat} (hk : k < n) (hlen : k < xs.length) (a : α) (b : β) :
    ((xs.take n).map f).getD k b = f (xs.getD k a) := by
  have hboth : k < ((xs.take n).map f).length := by simp [hk, hlen]
  rw [List.getD_eq_getElem _ _ hboth, List.getD_eq_getElem _ _ hlen]
  simp

section Colours
variable {n : Nat} {g : Grid} (hn : n ≤ 77) (hg : g.shaped)
include hn hg

/-- The array that is scored is square (R270). -/
theorem squareOf_rowLines : squareOf n (rowLines n g) := by
  refine ⟨by rw [rowLines, List.length_map, List.length_take, hg.1]; exact Nat.min_eq_left hn, fun line hline => ?_⟩
  obtain ⟨row, hrow, rfl⟩ := List.mem_map.1 hline
  rw [List.length_map, List.length_take, hg.2 row (List.mem_of_mem_take hrow)]
  exact Nat.min_eq_left hn

/-- Its entries are the colours of the cells (R270). -/
theorem colourAt_rowLines {r c : Nat} (hr : r < n) (hc : c < n) :
    colourAt (rowLines n g) r c = decide ((g.cell r c).val = .dark) := by
  have hrow : r < g.length := by rw [hg.1]; exact hr.trans_le hn
  have hcell : c < (g.getD r []).length := by rw [Grid.length_row hg (hr.trans_le hn)]; exact hc.trans_le hn
  rw [colourAt, rowLines, getD_map_take _ hr hrow [], getD_map_take _ hc hcell Cell.blank]
  rfl

end Colours

/-- Settles O45: the array's shape and its entries. -/
theorem colourArrayReadsTheCells : Obligations.ColourArrayReadsTheCells := fun _ _ hn hg =>
  ⟨squareOf_rowLines hn hg, fun r c hr hc => by rw [colourAt_rowLines hn hg hr hc, decide_eq_true_iff]⟩

/-! ### A text that is too long for ENCODE -/

/-- Settles O53: the first of the seven rules finds no version. -/
theorem encodeFailureClearsTheStage : Obligations.EncodeFailureClearsTheStage := by
  intro s hs hlen
  have hsteps : encodeSteps s = raise .capacity := by
    rw [encodeSteps, deSelectBody_eq_raise (selectVersion_eq_raise hlen)]
    rfl
  change execEncode s = _
  rw [execEncode, if_pos hs, hsteps, ← State.fail_of_err_ok hs]
  rfl

end Sys2Proof.Machine
end

section
/-! PROOFS. The size of the data region: the reserved set is made of rectangles that do not meet, and the cells outside them are
the codeword bits and the remainder bits (R233, R239). -/

open Sys2Proof.Claims

namespace Sys2Proof.Machine

/-! ### Rectangles of cells -/

/-- A rectangle of cells: its first row and its height, its first column and its width. -/
structure Rect where
  row : Nat
  height : Nat
  col : Nat
  width : Nat

def Rect.cells (q : Rect) : Finset (Nat × Nat) :=
  Finset.Ico q.row (q.row + q.height) ×ˢ Finset.Ico q.col (q.col + q.width)

theorem Rect.mem_cells {q : Rect} {r c : Nat} :
    (r, c) ∈ q.cells ↔ (q.row ≤ r ∧ r < q.row + q.height) ∧ q.col ≤ c ∧ c < q.col + q.width := by
  simp [Rect.cells]

def Rect.area (q : Rect) : Nat := q.height * q.width

/-- One rectangle lies above, below or beside the other. -/
def Rect.apart (q q' : Rect) : Bool :=
  q.row + q.height ≤ q'.row || q'.row + q'.height ≤ q.row || q.col + q.width ≤ q'.col || q'.col + q'.width ≤ q.col

theorem Rect.disjoint_of_apart {q q' : Rect} (h : q.apart q' = true) : Disjoint q.cells q'.cells := by
  simp only [Rect.apart, Bool.or_eq_true, decide_eq_true_eq] at h
  refine Finset.disjoint_left.2 fun ⟨r, c⟩ hq hq' => ?_
  rw [Rect.mem_cells] at hq hq'
  omega

/-- The rectangle lies in the square of side `n`. -/
def Rect.within (n : Nat) (q : Rect) : Bool := q.row + q.height ≤ n && q.col + q.width ≤ n

/-- The cells of a list of rectangles. -/
def rectCells (rects : List Rect) : Finset (Nat × Nat) := rects.foldr (fun q cells => q.cells ∪ cells) ∅

theorem mem_rectCells {rects : List Rect} {p : Nat × Nat} : p ∈ rectCells rects ↔ ∃ q ∈ rects, p ∈ q.cells := by
  induction rects with
  | nil => simp [rectCells]
  | cons q rects ih =>
    rw [rectCells, List.foldr_cons, Finset.mem_union, ← rectCells, ih, List.exists_mem_cons_iff]

/-- Rectangles that do not meet have as many cells as their areas say. -/
theorem card_rectCells {rects : List Rect} (h : rects.Pairwise fun q q' => q.apart q' = true) :
    (rectCells rects).card = (rects.map Rect.area).sum := by
  induction rects with
  | nil => rfl
  | cons q rects ih =>
    obtain ⟨hq, h⟩ := List.pairwise_cons.1 h
    have hdisjoint : Disjoint q.cells (rectCells rects) := by
      refine Finset.disjoint_right.2 fun p hp => ?_
      obtain ⟨q', hq', hp⟩ := mem_rectCells.1 hp
      exact Finset.disjoint_right.1 (Rect.disjoint_of_apart (hq q' hq')) hp
    have hcells : q.cells.card = q.area := by simp [Rect.cells, Rect.area]
    rw [rectCells, List.foldr_cons, ← rectCells, Finset.card_union_of_disjoint hdisjoint, ih h, hcells, List.map_cons,
      List.sum_cons]

/-! ### The reserved set in rectangles -/

/-- The finders with their separators, the format cells and the dark module beside them, and the timing patterns between them
(R223 to R225, R228, R236). -/
def frameRects (v : Nat) : List Rect :=
  [⟨0, 9, 0, 9⟩, ⟨0, 9, 4 * v + 9, 8⟩, ⟨4 * v + 9, 8, 0, 9⟩, ⟨6, 1, 9, 4 * v⟩, ⟨9, 4 * v, 6, 1⟩]

/-- The version cells, from version 7 on (R237). -/
def versionRects (v : Nat) : List Rect :=
  if 7 ≤ v then [⟨0, 6, 4 * v + 6, 3⟩, ⟨4 * v + 6, 3, 0, 6⟩] else []

/-- The alignment pattern around a centre, without the cells it shares with a timing pattern (R226). -/
def centreRects (p : Nat × Nat) : List Rect :=
  if p.1 = 6 then [⟨4, 2, p.2 - 2, 5⟩, ⟨7, 2, p.2 - 2, 5⟩]
  else if p.2 = 6 then [⟨p.1 - 2, 5, 4, 2⟩, ⟨p.1 - 2, 5, 7, 2⟩]
  else [⟨p.1 - 2, 5, p.2 - 2, 5⟩]

def reservedRects (v : Nat) : List Rect := frameRects v ++ ((alignCentres v).flatMap centreRects ++ versionRects v)

section Covered
variable {v r c : Nat}

/-- The frame's cells: three corners of nine rows or columns, row 6 and column 6. -/
theorem mem_frameRects (hr : r < 4 * v + 17) (hc : c < 4 * v + 17) : (∃ q ∈ frameRects v, (r, c) ∈ q.cells) ↔
    (r ≤ 8 ∧ c ≤ 8) ∨ (r ≤ 8 ∧ 4 * v + 9 ≤ c) ∨ (4 * v + 9 ≤ r ∧ c ≤ 8) ∨ r = 6 ∨ c = 6 := by
  simp only [frameRects, List.exists_mem_cons_iff, List.not_mem_nil, false_and, exists_false, or_false, Rect.mem_cells]
  omega

/-- The frame is what the finders, the timing patterns, the format cells and the dark module cover. -/
theorem frame_iff (hr : r < 4 * v + 17) (hc : c < 4 * v + 17) : (∃ q ∈ frameRects v, (r, c) ∈ q.cells) ↔
    ((finderPattern (4 * v + 17) r c).isSome || (timingPattern r c).isSome || (darkModule (4 * v + 17) r c).isSome ||
      formatArea (4 * v + 17) r c) = true := by
  rw [mem_frameRects hr hc, Bool.or_eq_true, Bool.or_eq_true, Bool.or_eq_true, isSome_finderPattern hr hc,
    isSome_timingPattern, isSome_darkModule, formatArea_eq_true_iff hr hc]
  constructor
  · rintro (h | h | h | h | h) <;> omega
  · omega

theorem mem_versionRects : (∃ q ∈ versionRects v, (r, c) ∈ q.cells) ↔
    (decide (7 ≤ v) && versionArea (4 * v + 17) r c) = true := by
  rw [Bool.and_eq_true, decide_eq_true_eq, versionArea_eq_true_iff, versionRects]
  split
  · simp only [List.exists_mem_cons_iff, List.not_mem_nil, false_and, exists_false, or_false, Rect.mem_cells]
    omega
  · simp [*]

theorem mem_centreRects {p q : Nat} (hp : 6 ≤ p) (hq : 6 ≤ q) (hr : r ≠ 6) (hc : c ≠ 6) :
    (∃ x ∈ centreRects (p, q), (r, c) ∈ x.cells) ↔ ringDist r c p q ≤ 2 := by
  rw [ringDist_le_iff, centreRects]
  split_ifs <;>
    simp only [List.exists_mem_cons_iff, List.not_mem_nil, false_and, exists_false, or_false, Rect.mem_cells] <;>
    omega

end Covered

section Versions
variable {v : Nat} (h1 : 1 ≤ v) (h15 : v ≤ 15)
include h1 h15

/-- Every coordinate of an alignment pattern's centre is 6 or more (R227). -/
theorem Rom.six_le_alignPos : ∀ p ∈ Rom.alignPos v, 6 ≤ p := by
  interval_cases v <;> decide

/-- Off the timing patterns, the alignment patterns are their rectangles (R226). -/
theorem mem_alignRects {r c : Nat} (hr : r ≠ 6) (hc : c ≠ 6) :
    (∃ x ∈ (alignCentres v).flatMap centreRects, (r, c) ∈ x.cells) ↔ (alignPattern v r c).isSome = true := by
  have hnear {p q : Nat} (hpq : (p, q) ∈ alignCentres v) :
      (∃ x ∈ centreRects (p, q), (r, c) ∈ x.cells) ↔ ringDist r c p q ≤ 2 := by
    obtain ⟨hp, hq, -⟩ := (mem_alignCentres h1 h15).1 hpq
    exact mem_centreRects (Rom.six_le_alignPos h1 h15 p hp) (Rom.six_le_alignPos h1 h15 q hq) hr hc
  rw [alignPattern_eq, isSome_ringPattern]
  constructor
  · rintro ⟨x, hx, hmem⟩
    obtain ⟨⟨p, q⟩, hpq, hx⟩ := List.mem_flatMap.1 hx
    exact ⟨p, q, hpq, (hnear hpq).1 ⟨x, hx, hmem⟩⟩
  · rintro ⟨p, q, hpq, hdist⟩
    obtain ⟨x, hx, hmem⟩ := (hnear hpq).2 hdist
    exact ⟨x, List.mem_flatMap.2 ⟨(p, q), hpq, hx⟩, hmem⟩

/-- The rectangles cover the reserved set (R239). -/
theorem mem_reservedRects {r c : Nat} (hr : r < 4 * v + 17) (hc : c < 4 * v + 17) :
    (r, c) ∈ rectCells (reservedRects v) ↔ reservedSet v r c = true := by
  have hset : reservedSet v r c = true ↔ (∃ q ∈ frameRects v, (r, c) ∈ q.cells) ∨
      (alignPattern v r c).isSome = true ∨ ∃ q ∈ versionRects v, (r, c) ∈ q.cells := by
    rw [frame_iff hr hc, mem_versionRects, ← Bool.or_eq_true, ← Bool.or_eq_true]
    refine Eq.congr_left ?_
    simp only [reservedSet, Rom.size]
    ac_rfl
  simp only [mem_rectCells, reservedRects, List.mem_append, or_and_right, exists_or, hset]
  by_cases htiming : r = 6 ∨ c = 6
  · have hframe : ∃ q ∈ frameRects v, (r, c) ∈ q.cells :=
      (mem_frameRects hr hc).2 (.inr (.inr (.inr htiming)))
    simp only [hframe, true_or]
  · obtain ⟨hr6, hc6⟩ := not_or.1 htiming
    rw [mem_alignRects h1 h15 hr6 hc6]

/-- The rectangles do not meet, they lie in the square, and their areas leave the codeword bits and the remainder bits (R233). -/
theorem reservedRects_areas : (reservedRects v).Pairwise (fun q q' => q.apart q' = true) ∧
    (∀ q ∈ reservedRects v, q.within (4 * v + 17) = true) ∧
    ((reservedRects v).map Rect.area).sum + (8 * entry totalTable v + entry remainderTable v) =
      (4 * v + 17) * (4 * v + 17) := by
  interval_cases v <;> decide +kernel

end Versions

/-- Settles O36: ZigZag visits the cells of the square once, but for column 6, and those that are not reserved are those of no
rectangle. -/
theorem freeCellsHoldTheCodewords : Obligations.FreeCellsHoldTheCodewords := by
  intro v h1 h15
  obtain ⟨hapart, hwithin, hareas⟩ := reservedRects_areas h1 h15
  have hsquare : rectCells (reservedRects v) ⊆ Finset.range (4 * v + 17) ×ˢ Finset.range (4 * v + 17) := by
    rintro ⟨r, c⟩ hp
    obtain ⟨q, hq, hp⟩ := mem_rectCells.1 hp
    have hin := hwithin q hq
    simp only [Rect.within, Bool.and_eq_true, decide_eq_true_eq] at hin
    rw [Rect.mem_cells] at hp
    simp only [Finset.mem_product, Finset.mem_range]
    omega
  have hfree : ((zigzag (4 * v + 17)).filter fun p => reservedSet v p.1 p.2 = false).toFinset =
      (Finset.range (4 * v + 17) ×ˢ Finset.range (4 * v + 17)) \ rectCells (reservedRects v) := by
    ext ⟨r, c⟩
    simp only [List.mem_toFinset, List.mem_filter, mem_zigzag, Finset.mem_sdiff, Finset.mem_product, Finset.mem_range,
      decide_eq_true_eq]
    constructor
    · rintro ⟨⟨hr, hc, -⟩, hfree⟩
      exact ⟨⟨hr, hc⟩, by rw [mem_reservedRects h1 h15 hr hc, hfree]; decide⟩
    · rintro ⟨⟨hr, hc⟩, hfree⟩
      rw [mem_reservedRects h1 h15 hr hc, Bool.not_eq_true] at hfree
      refine ⟨⟨hr, hc, ?_⟩, hfree⟩
      rintro rfl
      rw [reservedSet_column] at hfree
      cases hfree
  rw [← List.toFinset_card_of_nodup ((nodup_zigzag v).filter _), hfree, Finset.card_sdiff_of_subset hsquare,
    Finset.card_product, Finset.card_range, card_rectCells hapart]
  omega

end Sys2Proof.Machine
end

section
/-! PROOFS. The command port clock by clock: one answer to an accepted command, and reset from every port state (R300, R360, R361,
R365, R367). -/

open Sys2Proof.Claims

namespace Sys2Proof.Machine

/-! ### Runs of the port -/

/-- The samples `is` take the port from `p` to the architectural state `core` and the phase `phase`. -/
def Reaches (is : List PortIn) (p : PortState) (core : State) (phase : PortPhase) : Prop :=
  ∃ q, portEdges is p = .next q ∧ q.core = core ∧ q.phase = phase

section Runs
variable {is js : List PortIn} {i : PortIn} {p q : PortState} {core core' : State} {phase phase' : PortPhase}

theorem portEdges_append (h : portEdges is p = .next q) : portEdges (is ++ js) p = portEdges js q := by
  induction is generalizing p with
  | nil =>
    cases h
    rfl
  | cons i is ih =>
    rw [portEdges] at h
    rw [List.cons_append, portEdges]
    split at h
    · exact ih h
    · cases h
    · cases h

/-- One run after another. -/
theorem Reaches.append (his : Reaches is p core phase)
    (hjs : ∀ q : PortState, q.core = core → q.phase = phase → Reaches js q core' phase') :
    Reaches (is ++ js) p core' phase' := by
  obtain ⟨q, hq, hcore, hphase⟩ := his
  rw [Reaches, portEdges_append hq]
  exact hjs q hcore hphase

theorem reaches_nil (p : PortState) : Reaches [] p p.core p.phase := ⟨p, rfl, rfl, rfl⟩

theorem reaches_of_edge (h : portEdge i p = .next q) : Reaches [i] p q.core q.phase :=
  ⟨q, by rw [portEdges, h]; rfl, rfl, rfl⟩

end Runs

/-! ### The edge in each phase -/

/-- What every edge with `rst_n = 1` records of its sample (R365). -/
def PortState.sampled (p : PortState) (i : PortIn) : PortState :=
  { p with clock := p.clock + 1, offered := i.offer, broken := p.broken || p.breaks i }

section Edges
variable {i : PortIn} {p : PortState} {c : Command}

/-- An edge with `rst_n = 0` (R360). -/
theorem reaches_inReset (hrst : i.rstN = false) : Reaches [i] p p.core .inReset :=
  reaches_of_edge (q := ⟨p.core, .inReset, none, false, p.clock + 1⟩) (if_pos hrst)

variable (hrst : i.rstN = true)
include hrst

/-- The first edge with `rst_n = 1` leaves the reset state and a ready port (R361). -/
theorem reaches_afterReset (hp : p.phase = .inReset) : Reaches [i] p p.core.afterReset .ready :=
  reaches_of_edge (q := { p.sampled i with core := p.core.afterReset, phase := .ready })
    (by simp [portEdge, hrst, hp, PortState.sampled])

/-- A ready port accepts what the host presents while it keeps the handshake (R300 (a), R365 (a)). -/
theorem reaches_accept (hp : p.phase = .ready) (hbroken : p.broken = false) (hkept : p.breaks i = false)
    (hoffer : i.offer = some c) : Reaches [i] p p.core (.busy c (latency c)) :=
  reaches_of_edge (q := { p.sampled i with phase := .busy c (latency c), offered := none, broken := false })
    (by simp [portEdge, hrst, hp, hbroken, hkept, hoffer, PortState.sampled])

/-- A clock of a command that is not its last (R367). -/
theorem reaches_busy {k : Nat} (hp : p.phase = .busy c (k + 1)) (hk : 0 < k) : Reaches [i] p p.core (.busy c k) :=
  reaches_of_edge (q := { p.sampled i with phase := .busy c k }) (by simp [portEdge, hrst, hp, hk, PortState.sampled])

/-- The last clock of a command performs it (R300 (c)). -/
theorem reaches_responding {s : State} (hp : p.phase = .busy c 1) (hrun : runCommand c p.core = .next s) :
    Reaches [i] p s .responding :=
  reaches_of_edge (q := { p.sampled i with core := s, phase := .responding })
    (by simp [portEdge, hrst, hp, hrun, PortState.sampled])

/-- A response that is not taken stays (R300 (c)). -/
theorem reaches_held (hp : p.phase = .responding) (hready : i.rspReady = false) : Reaches [i] p p.core .responding :=
  hp ▸ reaches_of_edge (q := p.sampled i) (by simp [portEdge, hrst, hp, hready, PortState.sampled])

/-- A response that is taken (R300 (d)). -/
theorem reaches_taken (hp : p.phase = .responding) (hready : i.rspReady = true) : Reaches [i] p p.core .taken :=
  reaches_of_edge (q := { p.sampled i with phase := .taken }) (by simp [portEdge, hrst, hp, hready, PortState.sampled])

/-- The edge after it (R300 (d)). -/
theorem reaches_ready (hp : p.phase = .taken) : Reaches [i] p p.core .ready :=
  reaches_of_edge (q := { p.sampled i with phase := .ready }) (by simp [portEdge, hrst, hp, PortState.sampled])

end Edges

/-! ### Reset -/

/-- While `rst_n` is 0 the port stays in reset and the state is not touched (R360, R361). -/
theorem reaches_low {low : List PortIn} (hne : low ≠ []) (hlow : ∀ i ∈ low, i.rstN = false) (p : PortState) :
    Reaches low p p.core .inReset := by
  induction low generalizing p with
  | nil => exact absurd rfl hne
  | cons i low ih =>
    rw [List.forall_mem_cons] at hlow
    obtain ⟨hi, hlow⟩ := hlow
    refine (reaches_inReset hi).append (js := low) fun q hcore hphase => ?_
    rw [← hcore]
    by_cases hrest : low = []
    · subst hrest
      exact hphase ▸ reaches_nil q
    · exact ih hrest hlow q

/-- Settles O60: an edge in reset forgets what the port was doing, and the edge after reset leaves the reset state. -/
theorem portResetAbandonsTheCommand : Obligations.PortResetAbandonsTheCommand := by
  intro p low high hne hlow hhigh
  have hreset := reaches_low hne hlow p
  have hafter : Reaches (low ++ [high]) p p.core.afterReset .ready :=
    hreset.append fun q hcore hphase => hcore ▸ reaches_afterReset hhigh hphase
  obtain ⟨q, hq, -, hphase⟩ := hreset
  obtain ⟨q', hq', hcore', hphase'⟩ := hafter
  exact ⟨⟨q, hq, by simp [PortState.outputs, hphase], by simp [PortState.outputs, hphase, PortPhase.presenting]⟩,
    ⟨q', hq', hcore', by simp [PortState.outputs, hphase'], by simp [PortState.outputs, hphase', PortPhase.presenting]⟩⟩

/-! ### One command -/

/-- Clocks that are not a command's last only count (R367). -/
theorem reaches_waits {c : Command} {k : Nat} (hk : 0 < k) {waits : List PortIn} (hrst : ∀ i ∈ waits, i.rstN = true)
    {p : PortState} (hp : p.phase = .busy c (k + waits.length)) : Reaches waits p p.core (.busy c k) := by
  induction waits generalizing p with
  | nil => exact hp ▸ reaches_nil p
  | cons i waits ih =>
    rw [List.forall_mem_cons] at hrst
    obtain ⟨hi, hrst⟩ := hrst
    have hstep : Reaches [i] p p.core (.busy c (k + waits.length)) := reaches_busy hi hp (by omega)
    exact hstep.append (js := waits) fun q hcore hphase => hcore ▸ ih hrst hphase

/-- A response stays through any edges without `rsp_ready` (R300 (c)). -/
theorem reaches_holds {holds : List PortIn} (hholds : ∀ i ∈ holds, i.rstN = true ∧ i.rspReady = false) {p : PortState}
    (hp : p.phase = .responding) : Reaches holds p p.core .responding := by
  induction holds generalizing p with
  | nil => exact hp ▸ reaches_nil p
  | cons i holds ih =>
    rw [List.forall_mem_cons] at hholds
    obtain ⟨⟨hrst, hready⟩, hholds⟩ := hholds
    exact (reaches_held hrst hp hready).append (js := holds) fun q hcore hphase => hcore ▸ ih hholds hphase

/-- A held offer that is presented again keeps the handshake (R365 (a)). -/
theorem breaks_eq_false {p : PortState} {i : PortIn} {c : Command} (hoffered : p.offered = none ∨ p.offered = some c)
    (hi : presents i c) : p.breaks i = false := by
  obtain ⟨-, hvalid, rfl⟩ := hi
  rcases hoffered with h | h <;> simp [PortState.breaks, h, hvalid]

/-- The response signals carry RESULT and the error code of the last command (R92, R300). -/
theorem outputs_responding {q : PortState} (hphase : q.phase = .responding)
    (hresponded : q.core.Responded) :
    q.outputs.cmdReady = false ∧ q.outputs.rspValid = true ∧ q.outputs.rspResult = q.core.result ∧
    q.core.rsp.map (fun r => errNumber r.err) = some q.outputs.rspErr.toNat := by
  obtain ⟨e, hrsp, -⟩ := hresponded
  have hcode : e.code.toNat = errNumber e := by cases e <;> rfl
  simp [PortState.outputs, hphase, PortPhase.presenting, hrsp, hcode]

/-- Settles O59: the phases one after the other, and the response of the state the command leaves. -/
theorem portAnswersEachCommandOnce : Obligations.PortAnswersEachCommandOnce := by
  intro p c first waits holds last settle s hready hbroken hoffered hfirst hwaits hwaitsRst hholds hlastRst hlastReady
    hsettleRst hrun
  have hlatency : 1 ≤ latency c := Nat.le_add_left 1 _
  have hoffer : first.offer = some c := by
    obtain ⟨-, hvalid, rfl⟩ := hfirst
    simp [PortIn.offer, hvalid]
  have haccept : Reaches [first] p p.core (.busy c (latency c)) :=
    reaches_accept hfirst.1 hready hbroken (breaks_eq_false hoffered hfirst) hoffer
  have hbusy (k : Nat) (hk : k < waits.length) :
      Reaches (first :: waits.take k) p p.core (.busy c (latency c - k)) := by
    refine haccept.append (js := waits.take k) fun q hcore hphase => hcore ▸ reaches_waits (by omega)
      (fun i hi => hwaitsRst i (List.mem_of_mem_take hi)) ?_
    rw [hphase, List.length_take]
    congr 1
    omega
  have hresponding : Reaches (first :: waits) p s .responding := by
    have hne : waits ≠ [] := List.ne_nil_of_length_pos (hwaits ▸ hlatency)
    obtain ⟨front, final, rfl⟩ := (List.eq_nil_or_concat' waits).resolve_left hne
    have hlast : latency c - front.length = 1 := by simp [← hwaits]
    have hfront := hbusy front.length (by simp)
    rw [List.take_left, hlast] at hfront
    exact hfront.append (js := [final]) fun q hcore hphase =>
      reaches_responding (hwaitsRst final (by simp)) hphase (hcore ▸ hrun)
  have hheld : Reaches (first :: waits ++ holds) p s .responding :=
    hresponding.append fun q hcore hphase => hcore ▸ reaches_holds hholds hphase
  have htaken : Reaches (first :: waits ++ holds ++ [last]) p s .taken :=
    hheld.append fun q hcore hphase => hcore ▸ reaches_taken hlastRst hphase hlastReady
  have hsettled : Reaches (first :: waits ++ holds ++ [last, settle]) p s .ready := by
    rw [List.append_cons]
    exact htaken.append fun q hcore hphase => hcore ▸ reaches_ready hsettleRst hphase
  obtain ⟨-, hresponse⟩ := everyCommandWritesItsResponse c p.core
  refine ⟨hlatency, fun k hk => ?busy, ?held, ?taken, ?settled⟩
  case busy =>
    obtain ⟨q, hq, hcore, hphase⟩ := hbusy k hk
    exact ⟨q, hq, hcore, by simp [PortState.outputs, hphase], by simp [PortState.outputs, hphase, PortPhase.presenting]⟩
  case held =>
    obtain ⟨q, hq, rfl, hphase⟩ := hheld
    exact ⟨q, hq, rfl, outputs_responding hphase (hresponse q.core hrun)⟩
  case taken =>
    obtain ⟨q, hq, hcore, hphase⟩ := htaken
    exact ⟨q, hq, hcore, by simp [PortState.outputs, hphase]⟩
  case settled =>
    obtain ⟨q, hq, hcore, hphase⟩ := hsettled
    exact ⟨q, hq, hcore, by simp [PortState.outputs, hphase], by simp [PortState.outputs, hphase, PortPhase.presenting]⟩

end Sys2Proof.Machine
end

section
/-! PROOFS. Determinism of ENCODE: the state it leaves, written out, and that its symbol, its penalties and its codewords
depend on the text alone (R262, R286, R310). -/

open Sys2Proof.Claims

namespace Sys2Proof.Machine

/-! ### The state after ENCODE -/

/-- The data codewords of a text at version `v` (R156). -/
def textData (v : Nat) (text : List Byte) : List Byte := bytesOfBits (Rom.dataCount v) (stream v text)

/-- The state after the rules that make the codewords (R148, R156, R204). -/
def State.withCodewords (s : State) (v : BitVec 4) (text : List Byte) : State :=
  { s.setVersion v with
    bb := stream v.toNat text
    wram := (s.wram.store 0x000 (textData v.toNat text)).afterCwBuild v.toNat (textData v.toNat text) }

/-- The state after MB_FUNC and MB_PLACE (R222, R240). -/
def State.placed (s : State) (seq : List Byte) : State :=
  { s with mat := (placeBits (zigzag s.side) (codewordBits seq) (functionPatterns s.ver s.mat) 0).1, mstage := .placed }

/-- The state after MB_FINAL with a mask (R252). The mask is a parameter so that no comparison of fields unfolds the scoring. -/
def State.masked (s : State) (m : BitVec 3) : State :=
  { s with mask := m, mat := finalize s.ver m s.mat, mstage := .final }

/-- A scored state after the choice of the mask and MB_FINAL (R252, R284). -/
def State.chosen (s : State) : State := s.masked s.bestMask

section Steps
variable {s : State}

/-- A least version, as VERSION holds it. -/
theorem toNat_least {len v : Nat} (h : leastVersion len v) : (BitVec.ofNat 4 v).toNat = v := by
  obtain ⟨-, h15, -⟩ := h
  rw [BitVec.toNat_ofNat]
  omega

theorem version_ne_zero_of_least {len v : Nat} (h : leastVersion len v) : BitVec.ofNat 4 v ≠ 0 :=
  (version_holds_of_least ((toNat_least h).symm ▸ h)).1

theorem codewordSteps_eq_ok {v : Nat} {text : List Byte} (htext : textIs s text) (hleast : leastVersion text.length v)
    (hselect : selectVersion text.length = .ok v) :
    codewordSteps s = .ok (s.withCodewords (BitVec.ofNat 4 v) text) := by
  have hv := version_ne_zero_of_least hleast
  obtain ⟨-, hfits⟩ := version_holds_of_least ((toNat_least hleast).symm ▸ hleast)
  rw [htext.1] at hfits
  have hencode := deEncodeBody_eq_ok (s := s.setVersion (BitVec.ofNat 4 v)) hv hfits htext
  have hbuild := cwBuildBody_eq_ok (s := (s.setVersion (BitVec.ofNat 4 v)).withStream text) hv
    (length_bytesOfBits (Rom.dataCount _) (stream _ text)) (storedAt_store _ _ _).1
  rw [codewordSteps, deSelectBody_eq_ok (htext.1 ▸ hselect), Exec.ok_bind, hencode, Exec.ok_bind]
  change (cwBuildBody ((s.setVersion (BitVec.ofNat 4 v)).withStream text) >>= fun p => pure p.1) = _
  rw [hbuild]
  rfl

theorem mbFuncBody_eq_ok (hv : s.version ≠ 0) :
    mbFuncBody s = .ok ({ s with mat := functionPatterns s.ver s.mat, mstage := .func }, BitVec.ofNat 32 s.side) := if_neg hv

theorem mbSelectBody_eq_ok (hm : s.mstage = .placed) : mbSelectBody s =
    .ok ({ s.scoreAll with mask := s.scoreAll.bestMask, mstage := .selected }, zext32 s.scoreAll.bestMask) :=
  if_neg (not_unplaced (.inl hm))

theorem mbFinalBody_selected (s : State) (m : BitVec 3) :
    mbFinalBody { s with mask := m, mstage := .selected } = .ok (s.masked m, zext32 m) := if_neg (not_not.2 rfl)

theorem matrixSteps_eq_ok {seq : List Byte} (hv : s.version ≠ 0) (hshaped : s.mat.shaped)
    (hlen : seq.length = Rom.totalCount s.ver) (hseq : written s 0x800 seq) :
    matrixSteps s = .ok (s.placed seq).scoreAll.chosen := by
  have hplace := mbPlaceBody_eq_ok (s := { s with mat := functionPatterns s.ver s.mat, mstage := .func }) rfl hlen hseq
    (shaped_functionPatterns s.ver hshaped)
  rw [matrixSteps, mbFuncBody_eq_ok hv, Exec.ok_bind, hplace, Exec.ok_bind]
  change (mbSelectBody (s.placed seq) >>= fun p => mbFinalBody p.1 >>= fun p => pure p.1) = _
  rw [mbSelectBody_eq_ok rfl, Exec.ok_bind, mbFinalBody_selected, Exec.ok_bind]
  rfl

/-- The state that ENCODE leaves, but for the response (R310). -/
def State.encoded (s : State) (v : BitVec 4) (text : List Byte) : State :=
  ((s.withCodewords v text).placed (codewordSequence v.toNat (textData v.toNat text))).scoreAll.chosen

/-- ENCODE of a written text of at most 520 bytes leaves that state. -/
theorem exec_encode_eq {v : Nat} {text : List Byte} (hs : s.err = .ok) (hshaped : s.mat.shaped) (htext : textIs s text)
    (hleast : leastVersion text.length v) (hselect : selectVersion text.length = .ok v) :
    exec .encode s = .next (success (s.encoded (BitVec.ofNat 4 v) text)
      (encodeWord (s.encoded (BitVec.ofNat 4 v) text))) := by
  have hv := version_ne_zero_of_least hleast
  have hdata := length_bytesOfBits (Rom.dataCount (BitVec.ofNat 4 v).toNat) (stream (BitVec.ofNat 4 v).toNat text)
  have hregions := afterCwBuild_regions (s := s.setVersion (BitVec.ofNat 4 v)) hv hdata
  obtain ⟨-, hseq, -⟩ := hregions (s.wram.store 0x000 (textData (BitVec.ofNat 4 v).toNat text))
  have hmatrix := matrixSteps_eq_ok (s := s.withCodewords (BitVec.ofNat 4 v) text) hv hshaped
    (length_codewordSequence hdata) hseq
  refine exec_encode_of_steps hs ?_
  rw [encodeSteps_eq_bind, codewordSteps_eq_ok htext hleast hselect, Exec.ok_bind, hmatrix]
  rfl

end Steps

/-! ### One symbol, one score -/

/-- Two arrays of the right shape that agree on the symbol square of side `n`. -/
structure Grid.SameSquare (n : Nat) (g g' : Grid) : Prop where
  shaped : g.shaped
  shaped' : g'.shaped
  cell : ∀ r c, r < n → c < n → g.cell r c = g'.cell r c

section SameSquare
variable {n v : Nat} {g g' : Grid}

theorem sameSquare_functionPatterns (h15 : v ≤ 15) (hg : g.shaped) (hg' : g'.shaped) :
    Grid.SameSquare (4 * v + 17) (functionPatterns v g) (functionPatterns v g') :=
  ⟨shaped_functionPatterns v hg, shaped_functionPatterns v hg', fun r c hr hc => by
    rw [cell_functionPatterns h15 hg hr hc, cell_functionPatterns h15 hg' hr hc]⟩

theorem Grid.SameSquare.putVal (h : Grid.SameSquare n g g') (hn : n ≤ Config.matDim) {r c : Nat} (hr : r < n) (hc : c < n)
    (d : Bool) : Grid.SameSquare n (g.putVal r c d) (g'.putVal r c d) := by
  refine ⟨Grid.shaped_putVal h.shaped r c d, Grid.shaped_putVal h.shaped' r c d, fun r' c' hr' hc' => ?_⟩
  by_cases hsame : r' = r ∧ c' = c
  · obtain ⟨rfl, rfl⟩ := hsame
    rw [Grid.cell_putVal_same h.shaped (by omega) (by omega), Grid.cell_putVal_same h.shaped' (by omega) (by omega),
      h.cell _ _ hr hc]
  · rw [Grid.cell_putVal_other g (not_and_or.1 hsame), Grid.cell_putVal_other g' (not_and_or.1 hsame), h.cell _ _ hr' hc']

/-- Placement of the same bits gives the same square. -/
theorem Grid.SameSquare.placeBits (h : Grid.SameSquare n g g') (hn : n ≤ Config.matDim) {cells : List (Nat × Nat)}
    (hcells : ∀ p ∈ cells, p.1 < n ∧ p.2 < n) (bits : List Bool) (k : Nat) :
    Grid.SameSquare n (placeBits cells bits g k).1 (placeBits cells bits g' k).1 := by
  induction cells generalizing bits g g' k with
  | nil => exact h
  | cons p cells ih =>
    obtain ⟨r, c⟩ := p
    rw [List.forall_mem_cons] at hcells
    obtain ⟨⟨hr, hc⟩, hcells⟩ := hcells
    have hcell := h.cell r c hr hc
    cases hres : (g.cell r c).res with
    | true =>
      rw [placeBits_cons_reserved hres, placeBits_cons_reserved (hcell ▸ hres)]
      exact ih h hcells _ _
    | false =>
      rw [placeBits_cons_free hres, placeBits_cons_free (hcell ▸ hres)]
      exact ih (h.putVal hn hr hc _) hcells _ _

variable (h : Grid.SameSquare (4 * v + 17) g g') (h1 : 1 ≤ v) (h15 : v ≤ 15) (m : BitVec 3)
include h h1 h15

/-- The same mask finalises the same square alike (R253). -/
theorem Grid.SameSquare.finalize : Grid.SameSquare (4 * v + 17) (finalize v m g) (finalize v m g') := by
  refine ⟨shaped_finalize h.shaped v m, shaped_finalize h.shaped' v m, fun r c hr hc => ?_⟩
  have hcell := h.cell r c hr hc
  have hval : ((Machine.finalize v m g).cell r c).val = ((Machine.finalize v m g').cell r c).val := by
    by_cases hword : wordCell v r c
    · rcases wordCell_iff.1 hword with ⟨i, hi, hp⟩ | ⟨h7, i, hi, hp⟩
      · rw [val_finalize_format h.shaped m h15 h1 hi hp, val_finalize_format h.shaped' m h15 h1 hi hp]
      · rw [val_finalize_version h.shaped m h15 h7 hi hp, val_finalize_version h.shaped' m h15 h7 hi hp]
    · rw [val_finalize_other h.shaped m h15 hr hc hword, val_finalize_other h.shaped' m h15 hr hc hword, hcell]
  have hres : ((Machine.finalize v m g).cell r c).res = ((Machine.finalize v m g').cell r c).res := by
    rw [res_finalize h.shaped m h15 hr hc, res_finalize h.shaped' m h15 hr hc, hcell]
  exact congrArg₂ Cell.mk hval hres

/-- The candidate that is scored is the same (R276). -/
theorem Grid.SameSquare.candidate :
    rowLines (4 * v + 17) (Machine.finalize v m g) = rowLines (4 * v + 17) (Machine.finalize v m g') := by
  have hn : 4 * v + 17 ≤ 77 := by omega
  have hfinal := h.finalize h1 h15 m
  rw [rows_eq_map_rowCells (squareOf_rowLines hn hfinal.shaped), rows_eq_map_rowCells (squareOf_rowLines hn hfinal.shaped')]
  refine List.map_congr_left fun r hr => List.map_congr_left fun c hc => ?_
  rw [List.mem_range] at hr hc
  rw [colourAt_rowLines hn hfinal.shaped hr hc, colourAt_rowLines hn hfinal.shaped' hr hc, hfinal.cell r c hr hc]

end SameSquare

section Scored
variable (s : State)

/-- Scoring and the choice of the mask keep every field but the penalties, MASK, MAT and MSTAGE (R278, R284). -/
theorem State.chosen_scoreAll_frame : s.scoreAll.chosen.version = s.version ∧ s.scoreAll.chosen.bb = s.bb ∧
    s.scoreAll.chosen.wram = s.wram ∧ s.scoreAll.chosen.err = s.err := by
  obtain ⟨pen, hpen⟩ := s.scoreAll_eq_withPenalties
  rw [hpen]
  exact ⟨rfl, rfl, rfl, rfl⟩

/-- The array is finalised with the mask that was chosen (R252). -/
theorem State.chosen_scoreAll_mat : s.scoreAll.chosen.mat = finalize s.ver s.scoreAll.bestMask s.mat := by
  obtain ⟨pen, hpen⟩ := s.scoreAll_eq_withPenalties
  rw [hpen]
  rfl

/-- The choice of the mask keeps the penalties. -/
theorem State.chosen_choices : s.chosen.mask = s.bestMask ∧ s.chosen.pen = s.pen ∧ s.chosen.pn1 = s.pn1 ∧
    s.chosen.pn2 = s.pn2 ∧ s.chosen.pn3 = s.pn3 ∧ s.chosen.pn4 = s.pn4 ∧ s.chosen.mstage = .final := by
  rw [State.chosen]
  generalize s.bestMask = m
  exact ⟨rfl, rfl, rfl, rfl, rfl, rfl, rfl⟩

end Scored

/-- Two states with one version, and one symbol. -/
structure SameSymbol (s s' : State) : Prop where
  version : s.version = s'.version
  square : Grid.SameSquare s.side s.mat s'.mat

section SameSymbol
variable {s s' : State} (h : SameSymbol s s') (hv : s.version ≠ 0)
include h hv

/-- The candidates of both states are the same (R276). -/
theorem SameSymbol.candidate (m : BitVec 3) :
    rowLines s.side (finalize s.ver m s.mat) = rowLines s'.side (finalize s'.ver m s'.mat) := by
  obtain ⟨h1, h15⟩ := ver_range hv
  have hver : s'.ver = s.ver := congrArg BitVec.toNat h.version.symm
  rw [State.side, State.side, hver]
  exact h.square.candidate h1 h15 m

theorem SameSymbol.totalPenalty (m : BitVec 3) : totalPenalty s m = totalPenalty s' m := by
  have hside : s'.side = s.side := congrArg (fun v : BitVec 4 => Rom.size v.toNat) h.version.symm
  rw [Claims.totalPenalty, Claims.totalPenalty, ← h.candidate hv m, hside]

/-- All masks get the same totals (R284). -/
theorem SameSymbol.pen : s.scoreAll.pen = s'.scoreAll.pen := by
  refine Vector.ext fun i hi => ?_
  have htotal : s.scoreAll.penOf (BitVec.ofNat 3 i) = s'.scoreAll.penOf (BitVec.ofNat 3 i) := by
    rw [State.penOf_scoreAll, State.penOf_scoreAll, h.totalPenalty hv]
  have hplace : (BitVec.ofNat 3 i).toNat = i := by
    rw [BitVec.toNat_ofNat]
    omega
  simpa only [State.penOf, hplace] using htotal

/-- The same mask is chosen (R284). -/
theorem SameSymbol.bestMask : s.scoreAll.bestMask = s'.scoreAll.bestMask := by
  have hpen : s.scoreAll.penOf = s'.scoreAll.penOf := funext fun m => by simp only [State.penOf, h.pen hv]
  rw [State.bestMask, hpen]
  rfl

/-- The same components stay, those of mask 7 (R284). -/
theorem SameSymbol.components : s.scoreAll.pn1 = s'.scoreAll.pn1 ∧ s.scoreAll.pn2 = s'.scoreAll.pn2 ∧
    s.scoreAll.pn3 = s'.scoreAll.pn3 ∧ s.scoreAll.pn4 = s'.scoreAll.pn4 := by
  have hside : s'.side = s.side := congrArg (fun v : BitVec 4 => Rom.size v.toNat) h.version.symm
  obtain ⟨pen, hpen⟩ := s.scoreAll_eq_withPenalties
  obtain ⟨pen', hpen'⟩ := s'.scoreAll_eq_withPenalties
  rw [hpen, hpen']
  simp only [State.withPenalties, h.candidate hv 7, hside, and_self]

/-- The same symbol is finalised (R262). -/
theorem SameSymbol.chosen : Grid.SameSquare s.side s.scoreAll.chosen.mat s'.scoreAll.chosen.mat := by
  obtain ⟨h1, h15⟩ := ver_range hv
  have hver : s'.ver = s.ver := congrArg BitVec.toNat h.version.symm
  rw [s.chosen_scoreAll_mat, s'.chosen_scoreAll_mat, ← h.bestMask hv, hver]
  exact h.square.finalize h1 h15 _

end SameSymbol

/-! ### ENCODE depends on the text alone -/

section Placed
variable (s : State) (v : BitVec 4) (text seq : List Byte)

theorem State.placed_withCodewords_version : ((s.withCodewords v text).placed seq).version = v := rfl

theorem State.placed_withCodewords_bb : ((s.withCodewords v text).placed seq).bb = stream v.toNat text := rfl

theorem State.placed_withCodewords_wram :
    ((s.withCodewords v text).placed seq).wram = (s.withCodewords v text).wram := rfl

theorem State.placed_withCodewords_err : ((s.withCodewords v text).placed seq).err = s.err := rfl

theorem State.placed_withCodewords_mat : ((s.withCodewords v text).placed seq).mat =
    (placeBits (zigzag (Rom.size v.toNat)) (codewordBits seq) (functionPatterns v.toNat s.mat) 0).1 := rfl

end Placed

/-- The symbol that is placed does not depend on what the array held (R222). -/
theorem sameSymbol_placed {s s' : State} (hs : s.mat.shaped) (hs' : s'.mat.shaped) (v : BitVec 4) (text : List Byte)
    (seq : List Byte) : SameSymbol ((s.withCodewords v text).placed seq) ((s'.withCodewords v text).placed seq) where
  version := by rw [State.placed_withCodewords_version, State.placed_withCodewords_version]
  square := by
    have hfunc := sameSquare_functionPatterns (Nat.le_of_lt_succ v.isLt) hs hs'
    rw [State.side, State.ver, State.placed_withCodewords_version, State.placed_withCodewords_mat,
      State.placed_withCodewords_mat]
    refine hfunc.placeBits (State.side_le { s with version := v }) (fun p hp => ?_) _ _
    obtain ⟨hr, hc, -⟩ := mem_zigzag.1 hp
    exact ⟨hr, hc⟩

/-- Where a list of bytes stands in two memories, they agree. -/
theorem lookup_eq_of_bytesAt {m m' : Memory} {base a : Nat} {bytes : List Byte} (h : bytesAt m base bytes)
    (h' : bytesAt m' base bytes) (hlow : base ≤ a) (hhigh : a < base + bytes.length) : m.lookup a = m'.lookup a := by
  have hk : a - base < bytes.length := by omega
  have hread := (h (a - base) hk).trans (h' (a - base) hk).symm
  rwa [show base + (a - base) = a by omega] at hread

/-- The three regions hold the codewords of the text, whatever WRAM held (R156, R204). -/
theorem withCodewords_lookup_eq {t : State} (s s' : State) {v : BitVec 4} (hv : v ≠ 0) (text : List Byte) {a : Nat}
    (ha : storesTo .encode t v.toNat a) :
    (s.withCodewords v text).wram.lookup a = (s'.withCodewords v text).wram.lookup a := by
  have hdata : (textData v.toNat text).length = Rom.dataCount v.toNat := length_bytesOfBits _ _
  have hcount : Rom.dataCount v.toNat ≤ 523 := (Rom.counts_fit v.toNat (Nat.le_of_lt_succ v.isLt)).1
  have hregions := afterCwBuild_regions (s := s.setVersion v) hv hdata
  obtain ⟨hec, hseq, hother⟩ := hregions (s.wram.store 0x000 (textData v.toNat text))
  obtain ⟨hec', hseq', hother'⟩ := hregions (s'.wram.store 0x000 (textData v.toNat text))
  rcases ha with ha | ⟨hlow, hhigh⟩ | ⟨hlow, hhigh⟩
  · refine (hother a (.inl (by omega))).trans (Eq.trans ?_ (hother' a (.inl (by omega))).symm)
    exact lookup_eq_of_bytesAt (storedAt_store _ _ _).1 (storedAt_store _ _ _).1 (Nat.zero_le a) (by omega)
  · exact lookup_eq_of_bytesAt hec hec' hlow ((length_ecBlocks_flatten _ _).symm ▸ hhigh)
  · exact lookup_eq_of_bytesAt hseq hseq' hlow ((length_codewordSequence hdata).symm ▸ hhigh)

/-- The registers, bytes and cells that O54 compares, of the states that two ENCODEs leave. -/
structure SameOutcome (v : BitVec 4) (q q' : State) : Prop where
  version : q.version = v
  version' : q'.version = v
  mask : q.mask = q'.mask
  bb : q.bb = q'.bb
  pen : q.pen = q'.pen
  components : q.pn1 = q'.pn1 ∧ q.pn2 = q'.pn2 ∧ q.pn3 = q'.pn3 ∧ q.pn4 = q'.pn4
  mstage : q.mstage = q'.mstage
  err : q.err = q'.err
  bytes : ∀ s a, storesTo .encode s v.toNat a → q.wram.lookup a = q'.wram.lookup a
  cells : ∀ r c, r < Rom.size v.toNat → c < Rom.size v.toNat → q.mat.cell r c = q'.mat.cell r c

/-- From one placed symbol and one set of codewords, one outcome. -/
theorem SameSymbol.sameOutcome {p p' : State} (h : SameSymbol p p') (hv : p.version ≠ 0) (hbb : p.bb = p'.bb)
    (herr : p.err = p'.err)
    (hwram : ∀ s a, storesTo .encode s p.version.toNat a → p.wram.lookup a = p'.wram.lookup a) :
    SameOutcome p.version p.scoreAll.chosen p'.scoreAll.chosen := by
  obtain ⟨hversion, hqbb, hqwram, hqerr⟩ := p.chosen_scoreAll_frame
  obtain ⟨hversion', hqbb', hqwram', hqerr'⟩ := p'.chosen_scoreAll_frame
  obtain ⟨hmask, hpen, hpn1, hpn2, hpn3, hpn4, hmstage⟩ := p.scoreAll.chosen_choices
  obtain ⟨hmask', hpen', hpn1', hpn2', hpn3', hpn4', hmstage'⟩ := p'.scoreAll.chosen_choices
  exact {
    version := hversion
    version' := hversion'.trans h.version.symm
    mask := by rw [hmask, hmask', h.bestMask hv]
    bb := hqbb.trans (hbb.trans hqbb'.symm)
    pen := by rw [hpen, hpen', h.pen hv]
    components := by rw [hpn1, hpn1', hpn2, hpn2', hpn3, hpn3', hpn4, hpn4']; exact h.components hv
    mstage := hmstage.trans hmstage'.symm
    err := hqerr.trans (herr.trans hqerr'.symm)
    bytes := fun s a ha => by rw [hqwram, hqwram', hwram s a ha]
    cells := (h.chosen hv).cell }

/-- Two ENCODEs of one text have one outcome (R262, R286). -/
theorem sameOutcome_encoded {s s' : State} (herr : s.err = s'.err) (hs : s.mat.shaped) (hs' : s'.mat.shaped) {v : BitVec 4}
    (hv : v ≠ 0) (text : List Byte) : SameOutcome v (s.encoded v text) (s'.encoded v text) := by
  rw [State.encoded, State.encoded]
  generalize codewordSequence v.toNat (textData v.toNat text) = seq
  have hsymbol := sameSymbol_placed hs hs' v text seq
  have hversion := s.placed_withCodewords_version v text seq
  have hbb := (s.placed_withCodewords_bb v text seq).trans (s'.placed_withCodewords_bb v text seq).symm
  have hperr := (s.placed_withCodewords_err v text seq).trans (herr.trans (s'.placed_withCodewords_err v text seq).symm)
  have hwram (t : State) (a : Nat) (ha : storesTo .encode t v.toNat a) := withCodewords_lookup_eq s s' hv text ha
  rw [← s.placed_withCodewords_wram v text seq, ← s'.placed_withCodewords_wram v text seq] at hwram
  generalize (s.withCodewords v text).placed seq = p at *
  generalize (s'.withCodewords v text).placed seq = p' at *
  subst hversion
  exact hsymbol.sameOutcome hv hbb hperr hwram

/-- They have one result word, and their responses leave the rest as it is (R310). -/
theorem SameOutcome.encodeWord_eq {v : BitVec 4} {q q' : State} (h : SameOutcome v q q') : encodeWord q = encodeWord q' := by
  rw [encodeWord, encodeWord, h.version, h.version', h.mask]

theorem result_success (s : State) (r : Word) : (success s r).result = r := rfl

theorem SameOutcome.success {v : BitVec 4} {q q' : State} (h : SameOutcome v q q') (r r' : Word) :
    SameOutcome v (success q r) (success q' r') :=
  ⟨h.version, h.version', h.mask, h.bb, h.pen, h.components, h.mstage, h.err, h.bytes, h.cells⟩

/-- Settles O54: both states end in the state written out above, whose parts are those of the text. -/
theorem encodeDependsOnTheTextOnly : Obligations.EncodeDependsOnTheTextOnly := by
  intro s s' t t' text hs hs' hshaped hshaped' htext htext' hlen ht ht'
  obtain ⟨v, hleast, hselect⟩ := selectVersion_eq_ok hlen
  have hfinal := Host.Outcome.next.inj (ht.symm.trans (exec_encode_eq hs hshaped htext hleast hselect))
  have hfinal' := Host.Outcome.next.inj (ht'.symm.trans (exec_encode_eq hs' hshaped' htext' hleast hselect))
  have hencoded := sameOutcome_encoded (hs.trans hs'.symm) hshaped hshaped' (version_ne_zero_of_least hleast) text
  have houtcome : SameOutcome (BitVec.ofNat 4 v) t t' := by
    rw [hfinal, hfinal']
    exact hencoded.success _ _
  have hresult : t.result = t'.result := by
    rw [hfinal, hfinal', result_success, result_success, hencoded.encodeWord_eq]
  obtain ⟨hv, hv', hmask, hbb, hpen, ⟨hpn1, hpn2, hpn3, hpn4⟩, hmstage, herr, hbytes, hcells⟩ := houtcome
  rw [← hv] at hbytes hcells
  exact ⟨hresult, hv.trans hv'.symm, hmask, hbb, hpen, hpn1, hpn2, hpn3, hpn4, hmstage, herr, hbytes s, hcells⟩

end Sys2Proof.Machine
end
